-- ==== Sys2Proof/Word.lean ====
section
/-! DEFINITION. The word types of HUFCORE (00_scope.md R16, R17). A byte is 8 bits, a command or response word 32 bits,
a frequency count 64 bits, a tree weight 72 bits. -/

namespace Sys2Proof

/-- A byte (R17), bit 7 the most significant. -/
abbrev Byte := BitVec 8

/-- A 32-bit command or response word (R16). -/
abbrev Word := BitVec 32

/-- A frequency count or the header's `original_size`: unsigned 64-bit (R16). -/
abbrev Count := BitVec 64

/-- A tree weight: 72 bits, so that no sum of 256 counts overflows (R16, R162). -/
abbrev Weight := BitVec 72

end Sys2Proof
end

