-- ==== Sys2Proof/Config.lean ====
section
/-! DEFINITION. The implementation parameters of 00_scope.md R8 to R14, with the bounds the spec puts on them, and the
free values: what the spec leaves open, as constants without a body. -/

namespace Sys2Proof

/-- The parameters a model takes as arguments (00_scope.md section 3). They never change while the block runs (R22). -/
structure Config where
  /-- SRC_BATCH_RESET (R8): the batch size of BSRC after reset, in bytes. -/
  srcBatchReset : Nat
  /-- SNK_THRESH_RESET (R9): the write threshold of BSNK after reset, in bytes. -/
  snkThreshReset : Nat
  /-- SRC_BUF_CAP (R10): the largest batch size. -/
  srcBufCap : Nat
  /-- SNK_BUF_CAP (R11): the size of the sink's byte buffer and the largest threshold. -/
  snkBufCap : Nat
  /-- CHUNK_CAP (R12): the capacity of the encoder's chunk store, in bytes. -/
  chunkCap : Nat
  /-- CMD_PAYLOAD_MAX (R13): the largest command payload, in bytes. -/
  cmdPayloadMax : Nat
  /-- MAX_NODES (R14): the largest number of nodes of a tree. -/
  maxNodes : Nat
  deriving DecidableEq, Repr

/-- The reference values (R8 to R14), which the vectors of 95_test_vectors.md assume. -/
def Config.reference : Config where
  srcBatchReset := 128
  snkThreshReset := 128
  srcBufCap := 4096
  snkBufCap := 4096
  chunkCap := 65536
  cmdPayloadMax := 1048576
  maxNodes := 511

/-- The bounds of R10 to R14, and of R38 for the parameters that must fit a 32-bit CSR. The batch size and the
threshold after reset are legal values of their fields (R23, R25). -/
structure Config.Legal (c : Config) : Prop where
  batch_pos : 1 ≤ c.srcBatchReset
  batch_le : c.srcBatchReset ≤ c.srcBufCap
  thresh_le : c.snkThreshReset ≤ c.snkBufCap
  srcBufCap_lt : c.srcBufCap < 2 ^ 32
  snkBufCap_pos : 1 ≤ c.snkBufCap
  snkBufCap_lt : c.snkBufCap < 2 ^ 32
  chunkCap_pos : 1 ≤ c.chunkCap
  chunkCap_lt : c.chunkCap < 2 ^ 64
  payload_ge : 2048 ≤ c.cmdPayloadMax
  payload_lt : c.cmdPayloadMax < 2 ^ 32
  nodes_ge : 511 ≤ c.maxNodes
  nodes_lt : c.maxNodes < 2 ^ 32

/-- FREE VALUE (TIEBREAK, R15, R162): `Config.tieBreak k` is the draw of the k-th Pick the block makes. Among n
least-weight nodes the Pick returns the one numbered `tieBreak k % n`. -/
opaque Config.tieBreak : Nat → Nat

/-- FREE VALUE (R92): the 16-bit length field of a code of 65536 bits or more, whose length has no `le16`. Only a tree
of more than 131072 nodes has such a code. -/
opaque Config.longCodeLen : Nat → BitVec 16

/-- FREE VALUE (R77): the result word of a count of 2^32 or more, which has no 32-bit value. -/
opaque Config.bigResult : Nat → Word

end Sys2Proof
end

