-- ==== Sys2Proof/Syntax.lean ====
section
/-! DEFINITION. The commands of HUFCORE as syntax: one constructor per row of spec/opcode_table.json, with the operand
fields of 30_encoding.md R71, R72 and R70's payload; and the command packet itself. -/

namespace Sys2Proof

/-- The operands a packet carries beside its opcode (30_encoding.md R70 to R72): IMM8 = w0[15:8], ARG = w1, and the
payload. Every command carries all three, since an unused one must be 0 and is checked (R73, R81). -/
structure Operands where
  imm : Byte
  arg : Word
  payload : List Byte
  deriving DecidableEq, Repr

/-- A command packet `(w0, w1, payload)` as the command channel delivers it (30_encoding.md R70). -/
structure Packet where
  w0 : Word
  w1 : Word
  payload : List Byte
  deriving DecidableEq, Repr

/-- The 19 commands of 30_encoding.md R78. -/
inductive Instr where
  /-- CSR_READ (46_control.md R261) -/
  | csrRead (o : Operands)
  /-- SRC_OPEN (41_bitsource.md R106) -/
  | srcOpen (o : Operands)
  /-- SRC_NEXT_BIT (41_bitsource.md R107) -/
  | srcNextBit (o : Operands)
  /-- SRC_NEXT_BYTE (41_bitsource.md R108) -/
  | srcNextByte (o : Operands)
  /-- SRC_TAKE_UNCONSUMED (41_bitsource.md R109) -/
  | srcTakeUnconsumed (o : Operands)
  /-- SNK_OPEN (42_bitsink.md R140) -/
  | snkOpen (o : Operands)
  /-- SNK_WRITE_BIT (42_bitsink.md R136) -/
  | snkWriteBit (o : Operands)
  /-- SNK_WRITE_BYTE (42_bitsink.md R137) -/
  | snkWriteByte (o : Operands)
  /-- SNK_FLUSH (42_bitsink.md R138) -/
  | snkFlush (o : Operands)
  /-- SNK_SET_THRESHOLD (42_bitsink.md R139) -/
  | snkSetThreshold (o : Operands)
  /-- SNK_CLOSE (42_bitsink.md R141) -/
  | snkClose (o : Operands)
  /-- TREE_BUILD (43_tree.md R165) -/
  | treeBuild (o : Operands)
  /-- TREE_SERIALIZE (43_tree.md R168) -/
  | treeSerialize (o : Operands)
  /-- TREE_DESERIALIZE (43_tree.md R170) -/
  | treeDeserialize (o : Operands)
  /-- TREE_CODE_TABLE (43_tree.md R173) -/
  | treeCodeTable (o : Operands)
  /-- ENC_NEW (44_encoder.md R201) -/
  | encNew (o : Operands)
  /-- ENC_ADD_CHUNK (44_encoder.md R202) -/
  | encAddChunk (o : Operands)
  /-- ENC_ENCODE (44_encoder.md R203) -/
  | encEncode (o : Operands)
  /-- DEC_DECODE (45_decoder.md R231) -/
  | decDecode (o : Operands)
  deriving DecidableEq, Repr

/-- The operands of a command. -/
def Instr.operands : Instr → Operands
  | .csrRead o | .srcOpen o | .srcNextBit o | .srcNextByte o | .srcTakeUnconsumed o | .snkOpen o | .snkWriteBit o
  | .snkWriteByte o | .snkFlush o | .snkSetThreshold o | .snkClose o | .treeBuild o | .treeSerialize o
  | .treeDeserialize o | .treeCodeTable o | .encNew o | .encAddChunk o | .encEncode o | .decDecode o => o

/-- The operands of a command that uses none of them: IMM8 = 0, ARG = 0, no payload (30_encoding.md R73). -/
def Operands.none : Operands := ⟨0, 0, []⟩

/-- The operands of a command that uses IMM8 only. -/
def Operands.ofImm (imm : Byte) : Operands := ⟨imm, 0, []⟩

/-- The operands of a command that uses ARG as a parameter. -/
def Operands.ofArg (arg : Word) : Operands := ⟨0, arg, []⟩

/-- The operands of a command of ARG class `len`: ARG is the payload's length (30_encoding.md R73). -/
def Operands.ofPayload (p : List Byte) : Operands := ⟨0, BitVec.ofNat 32 p.length, p⟩

end Sys2Proof
end

