-- ==== Sys2Proof/WellFormed.lean ====
section
/-! DEFINITION. When a command is well formed: it passes every operand check of 30_encoding.md R81 and the payload
capacity check, so that it reaches the checks of its own rule. Written command by command from the table of R73; the
machine's own check (Machine/Operands.lean) is written from R81's list, and a statement says that the two agree. -/

namespace Sys2Proof

/-- The CSR numbers of 10_state.md R34 to R38: 0x00 to 0x0C and 0x10 to 0x16. -/
def WellFormed.csrNumber (n : Byte) : Bool := n.toNat ≤ 0x0C || (0x10 ≤ n.toNat && n.toNat ≤ 0x16)

/-- IMM8 and ARG unused, no payload. -/
def WellFormed.bare (o : Operands) : Bool := o.imm = 0 && o.arg = 0 && o.payload.isEmpty

/-- Only IMM8 used. -/
def WellFormed.immOnly (o : Operands) : Bool := o.arg = 0 && o.payload.isEmpty

/-- Only ARG used, as a parameter. -/
def WellFormed.argOnly (o : Operands) : Bool := o.imm = 0 && o.payload.isEmpty

/-- ARG is the length of the payload, within the payload capacity; IMM8 unused. -/
def WellFormed.len (c : Config) (o : Operands) : Bool :=
  o.imm = 0 && o.payload.length = o.arg.toNat && o.arg.toNat ≤ c.cmdPayloadMax

/-- The command passes the operand checks under the parameters `c` (R73, R81). -/
def WellFormed (c : Config) : Instr → Bool
  | .csrRead o => WellFormed.immOnly o && WellFormed.csrNumber o.imm
  | .srcOpen o => WellFormed.argOnly o && 1 ≤ o.arg.toNat && o.arg.toNat ≤ c.srcBufCap
  | .srcNextBit o => WellFormed.bare o
  | .srcNextByte o => WellFormed.bare o
  | .srcTakeUnconsumed o => WellFormed.bare o
  | .snkOpen o => WellFormed.argOnly o && o.arg.toNat ≤ c.snkBufCap
  | .snkWriteBit o => WellFormed.immOnly o && o.imm.toNat ≤ 1
  | .snkWriteByte o => WellFormed.immOnly o
  | .snkFlush o => WellFormed.bare o
  | .snkSetThreshold o => WellFormed.argOnly o && o.arg.toNat ≤ c.snkBufCap
  | .snkClose o => WellFormed.bare o
  | .treeBuild o => WellFormed.len c o && o.arg.toNat = 2048
  | .treeSerialize o => WellFormed.bare o
  | .treeDeserialize o => WellFormed.len c o
  | .treeCodeTable o => WellFormed.bare o
  | .encNew o => WellFormed.bare o
  | .encAddChunk o => WellFormed.len c o
  | .encEncode o => WellFormed.bare o
  | .decDecode o => WellFormed.len c o

end Sys2Proof
end

