-- ==== Sys2Proof/Decode.lean ====
section
/-! DEFINITION. Decoding a command packet (30_encoding.md R70 to R83) and encoding one. Decoding is total: it answers a
command or the name of the check that failed. It selects the command by `w0 & 0xFFFF00FF == OPC` (R78); the operand
checks of R81 come after it, in the command's meaning (Machine/Operands.lean). -/

namespace Sys2Proof

/-- Why a packet selects no command. -/
inductive DecodeError where
  /-- `w0[31:16] != 0` (R80). -/
  | reservedBits
  /-- OPC is not in the map of R78 (R79). -/
  | unknownOpcode
  /-- Fewer than the 8 bytes of w0 and w1: no packet (R70, R74). The channel delivers whole packets only. -/
  | shortPacket
  deriving DecidableEq, Repr

/-! ### Little-endian integers (00_scope.md R17, 20_memory.md R53) -/

/-- The `n`-byte little-endian encoding of `v`, least significant byte first. -/
def leBytes : Nat → Nat → List Byte
  | 0, _ => []
  | n + 1, v => BitVec.ofNat 8 v :: leBytes n (v / 256)

/-- The value of a little-endian byte sequence. -/
def fromLe : List Byte → Nat
  | [] => 0
  | b :: bs => b.toNat + 256 * fromLe bs

/-! ### The opcode map -/

/-- The opcode of a command (R78). -/
def Instr.opcode : Instr → Byte
  | .csrRead _ => 0x01
  | .srcOpen _ => 0x10
  | .srcNextBit _ => 0x11
  | .srcNextByte _ => 0x12
  | .srcTakeUnconsumed _ => 0x13
  | .snkOpen _ => 0x20
  | .snkWriteBit _ => 0x21
  | .snkWriteByte _ => 0x22
  | .snkFlush _ => 0x23
  | .snkSetThreshold _ => 0x24
  | .snkClose _ => 0x25
  | .treeBuild _ => 0x30
  | .treeSerialize _ => 0x31
  | .treeDeserialize _ => 0x32
  | .treeCodeTable _ => 0x33
  | .encNew _ => 0x40
  | .encAddChunk _ => 0x41
  | .encEncode _ => 0x42
  | .decDecode _ => 0x50

/-- The command an opcode selects, given the operands (R78); no command for every other value (R79). -/
def selectCommand (opc : Nat) (o : Operands) : Option Instr :=
  match opc with
  | 0x01 => some (.csrRead o)
  | 0x10 => some (.srcOpen o)
  | 0x11 => some (.srcNextBit o)
  | 0x12 => some (.srcNextByte o)
  | 0x13 => some (.srcTakeUnconsumed o)
  | 0x20 => some (.snkOpen o)
  | 0x21 => some (.snkWriteBit o)
  | 0x22 => some (.snkWriteByte o)
  | 0x23 => some (.snkFlush o)
  | 0x24 => some (.snkSetThreshold o)
  | 0x25 => some (.snkClose o)
  | 0x30 => some (.treeBuild o)
  | 0x31 => some (.treeSerialize o)
  | 0x32 => some (.treeDeserialize o)
  | 0x33 => some (.treeCodeTable o)
  | 0x40 => some (.encNew o)
  | 0x41 => some (.encAddChunk o)
  | 0x42 => some (.encEncode o)
  | 0x50 => some (.decDecode o)
  | _ => none

/-- Decode a packet: the reserved bits first, then the opcode (R82 (1), (2)). -/
def decode (p : Packet) : Except DecodeError Instr :=
  if p.w0.extractLsb' 16 16 ≠ 0 then .error .reservedBits
  else
    match selectCommand (p.w0.extractLsb' 0 8).toNat ⟨p.w0.extractLsb' 8 8, p.w1, p.payload⟩ with
    | some i => .ok i
    | none => .error .unknownOpcode

/-- A packet from its bytes on the wire, `le32(w0) ++ le32(w1) ++ payload` (R70). The channel delivers the payload's
length with it, so the payload is all that follows the two words. -/
def Packet.ofBytes (bs : List Byte) : Option Packet :=
  if bs.length < 8 then none
  else some ⟨BitVec.ofNat 32 (fromLe (bs.take 4)), BitVec.ofNat 32 (fromLe ((bs.drop 4).take 4)), bs.drop 8⟩

/-- Decode the bytes of one packet. -/
def decodeBytes (bs : List Byte) : Except DecodeError Instr :=
  match Packet.ofBytes bs with
  | some p => decode p
  | none => .error .shortPacket

/-- The ARG class `len` of R73: ARG is the length of the payload. -/
def lenClassOpcode (opc : Nat) : Bool := opc = 0x30 || opc = 0x32 || opc = 0x41 || opc = 0x50

/-- The length in bytes of a command, told from OPC and ARG alone (R74). -/
def commandLength (w0 w1 : Word) : Nat :=
  if lenClassOpcode (w0.extractLsb' 0 8).toNat then 8 + w1.toNat else 8

/-! ### Encoding -/

/-- The packet of a command: `w0 = OPC | IMM8 << 8` and `w1 = ARG` (R84), with the reserved bits 0 (R71). -/
def encode (i : Instr) : Packet where
  w0 := i.opcode.zeroExtend 32 ||| (i.operands.imm.zeroExtend 32 <<< 8)
  w1 := i.operands.arg
  payload := i.operands.payload

/-- The bytes of a packet on the wire (R70). -/
def Packet.bytes (p : Packet) : List Byte := leBytes 4 p.w0.toNat ++ leBytes 4 p.w1.toNat ++ p.payload

/-- The bytes of a command on the wire (R70). -/
def encodeBytes (i : Instr) : List Byte := (encode i).bytes

/-- The packet whose bits are `w`, numbered as spec/opcode_table.json numbers them (bit 0 the least significant bit of
w0), of which `nbits` are given: the bits above are 0, and the packet has at least the 8 bytes of its two words. -/
def tablePacketBytes (nbits w : Nat) : List Byte := leBytes (max 8 (nbits / 8)) (w % 2 ^ nbits)

/-- What the decoder reads from an instruction whose bits are `w`. -/
def decodeTableWord (nbits w : Nat) : Option Instr := (decodeBytes (tablePacketBytes nbits w)).toOption

end Sys2Proof
end

