-- ==== Sys2Proof/Machine/Bits.lean ====
section
/-! DEFINITION. Bit sequences and bytes (20_memory.md R54, 41_bitsource.md R111, 42_bitsink.md R143): most significant
bit first, a partial last byte zero-padded on its low bits. -/

namespace Sys2Proof.Machine

/-- The bits of a byte in stream order, bit 7 first (R54). -/
def byteBits (b : Byte) : List Bool :=
  [b.getLsbD 7, b.getLsbD 6, b.getLsbD 5, b.getLsbD 4, b.getLsbD 3, b.getLsbD 2, b.getLsbD 1, b.getLsbD 0]

/-- The value of the first `n` bits of a sequence, the first the most significant; a missing bit counts as 0. -/
def bitsToNat : Nat → List Bool → Nat
  | 0, _ => 0
  | n + 1, bs => (if bs.headD false then 2 ^ n else 0) + bitsToNat n bs.tail

/-- The byte whose bits in stream order are the first 8 of the sequence, zero-padded (R143). -/
def byteOfBits (bs : List Bool) : Byte := BitVec.ofNat 8 (bitsToNat 8 bs)

/-- The first `n` bytes of the packed sequence. -/
def packBytes : Nat → List Bool → List Byte
  | 0, _ => []
  | n + 1, c => byteOfBits (c.take 8) :: packBytes n (c.drop 8)

/-- `pack(c)`: the bits packed MSB-first into `ceil(len(c)/8)` bytes (R143). -/
def pack (c : List Bool) : List Byte := packBytes ((c.length + 7) / 8) c

/-- `unpack(s)`: the bit sequence of a byte sequence (R111). -/
def unpack (s : List Byte) : List Bool := s.flatMap byteBits

/-- Eight ReadBit in a row, first bit most significant; nothing when the bits run out (R111, R169). -/
def readByte (bits : List Bool) : Option (Byte × List Bool) :=
  if bits.length < 8 then none else some (byteOfBits bits, bits.drop 8)

end Sys2Proof.Machine
end

