-- ==== Sys2Proof/Machine/State.lean ====
section
/-! DEFINITION. The state of HUFCORE as plain data (10_state.md), what stands outside the block and is held beside it
(the channel, the endpoints' answers, the record of what was observed), and the state after reset (70_reset_and_hazards.md
R341). -/

namespace Sys2Proof.Machine

/-- A Frequency Tree (00_scope.md R19): `Leaf(sym, w)` or `Composite(w, left, right)`. It is full by its type (R30). -/
inductive FreqTree where
  | leaf (sym : Byte) (w : Weight)
  | composite (w : Weight) (left right : FreqTree)
  deriving DecidableEq, Repr

/-- The bit source BSRC (10_state.md R23). -/
structure Bsrc where
  /-- `open`: a bit source is constructed over port I. -/
  isOpen : Bool
  /-- Bytes a refill tries to hold. -/
  batch : Word
  /-- Bytes of the last refill. -/
  buf : List Byte
  /-- Index of the byte holding the next bit. -/
  rpos : Nat
  /-- Number of bits of `buf[rpos]` already consumed. -/
  bpos : BitVec 3
  deriving DecidableEq, Repr

/-- The bit sink BSNK (10_state.md R25). -/
structure Bsnk where
  /-- `open`: a bit sink is constructed over port O. -/
  isOpen : Bool
  /-- Write threshold in bytes. -/
  thresh : Word
  /-- The pending bits of the partial byte, right-aligned, first bit most significant. -/
  acc : Byte
  /-- Number of pending bits in `acc`. -/
  nbits : BitVec 3
  /-- Completed bytes not yet written to port O. -/
  buf : List Byte
  deriving DecidableEq, Repr

/-- The encoder ENC (10_state.md R27, R39). -/
structure Enc where
  /-- 1 after ENC_ENCODE until ENC_NEW. -/
  consumed : Bool
  /-- All chunks added, concatenated in insertion order. -/
  data : List Byte
  /-- Occurrence count of each byte value. -/
  freq : Vector Count 256
  /-- Total original byte count. -/
  total : Count
  deriving DecidableEq, Repr

/-- Which command a finalizing flush belongs to (42_bitsink.md R138, R140, R141). -/
inductive Finalize where
  | flush
  | reopen (thresh : Word)
  | close
  deriving DecidableEq, Repr

/-- The command a BUSY engine is executing, with its locals, at a place a command can be between steps: accepted and not
answered, or waiting for the answer to a port request (10_state.md R40, R41, 20_memory.md R65). -/
inductive Job where
  /-- Any packet, accepted and not answered yet, whatever it has done to the block's state (70_reset_and_hazards.md R340;
  log entry 5). -/
  | started (p : Packet)
  /-- SRC_NEXT_BIT in its refill (R107). -/
  | srcNextBit
  /-- SRC_NEXT_BYTE in a refill, with `left` bits to read after the one it waits for and the bits `v` read (R108). -/
  | srcNextByte (left : Nat) (v : Byte)
  /-- SNK_WRITE_BIT in its automatic drain (R136). -/
  | snkWriteBit (bit : Byte)
  /-- SNK_WRITE_BYTE in an automatic drain, `done` bits accepted before the one that completed the byte (R137). -/
  | snkWriteByte (byte : Byte) (done : Nat)
  /-- SNK_FLUSH, SNK_OPEN or SNK_CLOSE in the first drain of Flush (R135). -/
  | snkFirstDrain (f : Finalize)
  /-- The same in the second drain of Flush, `written` bytes having been accepted by the first (R135). -/
  | snkSecondDrain (f : Finalize) (written : Nat)
  deriving DecidableEq, Repr

/-- The command engine (10_state.md R40). -/
inductive Engine where
  | idle
  | busy (j : Job)
  deriving DecidableEq, Repr

/-- An answer of the port I endpoint (20_memory.md R51): bytes (none at all: end of data) or an I/O error. An entry may
hold more bytes than a request asks for: the answer is then the first n of them, and the rest stay for later requests. -/
inductive PortIAnswer where
  | bytes (b : List Byte)
  | ioErr
  deriving DecidableEq, Repr

/-- An answer of the port O endpoint (20_memory.md R52). -/
inductive PortOAnswer where
  | ok
  | ioErr
  deriving DecidableEq, Repr

/-- One port transaction, as it is seen at the port (20_memory.md R60): the request with its answer, or a request that
a reset abandoned before its answer was taken (70_reset_and_hazards.md R340). -/
inductive PortEvent where
  | read (n : Nat) (a : PortIAnswer)
  | write (b : List Byte) (a : PortOAnswer)
  | readAbandoned (n : Nat)
  | writeAbandoned (b : List Byte)
  deriving DecidableEq, Repr

/-- A response `(s, res, payload)` (30_encoding.md R75). -/
structure Response where
  status : Word
  res : Word
  payload : List Byte
  deriving DecidableEq, Repr

/-- The machine: the parameters, the block's state record of 10_state.md R22, and what stands outside the block. -/
structure State where
  /-- The implementation parameters (R8 to R14): no step changes them. -/
  cfg : Config
  /-- The command engine (R40). -/
  eng : Engine
  /-- The bit source (R23). -/
  bsrc : Bsrc
  /-- The bit sink (R25). -/
  bsnk : Bsnk
  /-- The encoder (R27). -/
  enc : Enc
  /-- The tree store `TREE.t` (R29); `none` is NONE. -/
  tree : Option FreqTree
  /-- The reset input is asserted (R340). -/
  rst : Bool
  /-- The command channel: packets handed over by the host and not yet accepted, oldest first (R70, R40). -/
  cmds : List Packet
  /-- Responses delivered, oldest first (R75, R363). -/
  resps : List Response
  /-- The answers the port I endpoint gives to the block's requests, oldest first (R51). -/
  portI : List PortIAnswer
  /-- The answers the port O endpoint gives to the block's requests, oldest first (R52). -/
  portO : List PortOAnswer
  /-- How many read requests a reset abandoned that the port I endpoint has not answered (R340; log entry 7). -/
  lateI : Nat
  /-- How many writes a reset abandoned that the port O endpoint has not answered (R340; log entry 7). -/
  lateO : Nat
  /-- The port transactions made, oldest first (R60, R363). -/
  trace : List PortEvent
  /-- The number of TIEBREAK picks made: the argument of the next draw of `Config.tieBreak` (R15, R162). -/
  draws : Nat
  deriving DecidableEq, Repr

/-- Why the machine stops with a fault: never. HUFCORE has no trap and no failure that stops it; an error is a status
code of the response (60_exceptions.md R300, R301, R310), so this type has no constructor and nothing raises one. -/
inductive Fault where
  deriving DecidableEq, Repr

/-- Why a command has no meaning. -/
inductive Refusal where
  /-- Raised by an arm of `exec` whose command has no meaning yet; safe. No arm is of this kind. -/
  | notModelled (mnemonic : String)
  deriving DecidableEq, Repr

/-- A freshly constructed bit source (R341). -/
def Bsrc.fresh (c : Config) : Bsrc where
  isOpen := true
  batch := BitVec.ofNat 32 c.srcBatchReset
  buf := []
  rpos := 0
  bpos := 0

/-- A freshly constructed bit sink (R341). -/
def Bsnk.fresh (c : Config) : Bsnk where
  isOpen := true
  thresh := BitVec.ofNat 32 c.snkThreshReset
  acc := 0
  nbits := 0
  buf := []

/-- A fresh encoder (R341). -/
def Enc.fresh : Enc where
  consumed := false
  data := []
  freq := Vector.replicate 256 0
  total := 0

/-- The machine right after reset (R341), with the reference parameters, an empty command channel and nothing observed
yet. -/
def State.reset : State where
  cfg := Config.reference
  eng := .idle
  bsrc := Bsrc.fresh Config.reference
  bsnk := Bsnk.fresh Config.reference
  enc := Enc.fresh
  tree := none
  rst := false
  cmds := []
  resps := []
  portI := []
  portO := []
  lateI := 0
  lateO := 0
  trace := []
  draws := 0

end Sys2Proof.Machine
end

