-- ==== Sys2Proof/Machine/Flags.lean ====
section
/-! DEFINITION. The status word and the result word of a response (30_encoding.md R76, R77; 60_exceptions.md R302).
HUFCORE has no flag register (10_state.md R32): TRUNC is a bit of the status word and is not kept. -/

namespace Sys2Proof.Machine

/-- The status codes of 60_exceptions.md R302. -/
inductive Status where
  | ok
  | eod
  | eIllegalCmd
  | eIllegalArg
  | eClosed
  | eConsumed
  | eNoTree
  | eEmpty
  | eIo
  | eMalformedTree
  | eFormat
  | eCapacity
  | eTreeCapacity
  deriving DecidableEq, Repr

/-- The CODE of a status (R302). -/
def statusCode : Status → Byte
  | .ok => 0x00
  | .eod => 0x01
  | .eIllegalCmd => 0x10
  | .eIllegalArg => 0x11
  | .eClosed => 0x12
  | .eConsumed => 0x13
  | .eNoTree => 0x14
  | .eEmpty => 0x20
  | .eIo => 0x21
  | .eMalformedTree => 0x22
  | .eFormat => 0x23
  | .eCapacity => 0x24
  | .eTreeCapacity => 0x25

/-- The status word: CODE in bits 7..0, TRUNC in bit 8, the rest 0 (R76). -/
def statusWord (c : Status) (trunc : Bool) : Word :=
  (statusCode c).zeroExtend 32 ||| (if trunc then 0x100 else 0)

/-- The result word of a count (R77). A count of 2^32 or more has no 32-bit value, and the spec states none: a free
value (log entry 4). -/
def resultWord (n : Nat) : Word := if n < 2 ^ 32 then BitVec.ofNat 32 n else Config.bigResult n

/-- The result word of a bit (R107). -/
def bitWord (b : Bool) : Word := if b then 1 else 0

/-- SRC_NEXT_BYTE's result word: the value V in bits 7..0, the number K of bits read in bits 11..8 (R108). -/
def partialByteWord (k : Nat) (v : Byte) : Word := (BitVec.ofNat 32 k <<< 8) ||| v.zeroExtend 32

end Sys2Proof.Machine
end

