-- ==== Sys2Proof/Machine/Ops.lean ====
section
/-! DEFINITION. The named operations over the state: writing a unit, responding and raising an error, the two port
primitives, the running command of a BUSY engine, reset, and the wire form of a response. -/

namespace Sys2Proof.Machine

/-! ### Writing one unit -/

/-- Write BSRC. -/
def State.setBsrc (s : State) (b : Bsrc) : State := { s with bsrc := b }

/-- Write BSNK. -/
def State.setBsnk (s : State) (b : Bsnk) : State := { s with bsnk := b }

/-- Write ENC. -/
def State.setEnc (s : State) (e : Enc) : State := { s with enc := e }

/-- Write the tree store. -/
def State.setTree (s : State) (t : Option FreqTree) : State := { s with tree := t }

/-- The number of TIEBREAK draws made so far becomes `k`. -/
def State.setDraws (s : State) (k : Nat) : State := { s with draws := k }

/-! ### Ending a command, or leaving it waiting -/

/-- Deliver a response and go back to IDLE (30_encoding.md R75, 10_state.md R40). -/
def State.deliver (s : State) (r : Response) : State := { s with eng := .idle, resps := s.resps ++ [r] }

/-- `respond(code, res, payload)` with TRUNC = 0 (00_scope.md R18, 30_encoding.md R75). -/
def State.respond (s : State) (c : Status) (res : Word) (payload : List Byte) : State :=
  s.deliver ⟨statusWord c false, res, payload⟩

/-- `raise E_X(res)`: the one way a command fails (60_exceptions.md R301). It saves nothing, changes no mode and sends
control nowhere (R300, R310): the response names the failure, its payload is empty, the engine is IDLE, and the changes
already made stay. -/
def State.raise (s : State) (c : Status) (res : Word) : State := s.respond c res []

/-- The command `j` waits for the answer to its port request: the engine is BUSY (10_state.md R40, 20_memory.md R65). -/
def State.wait (s : State) (j : Job) : State := { s with eng := .busy j }

/-! ### Port I -/

/-- The answers left after a read of up to `n` bytes was answered from the entry `b`: what the request did not ask for
stays in the endpoint's stream, since an answer carries at most `n` bytes (20_memory.md R51). -/
def answersAfterRead (n : Nat) (b : List Byte) (as : List PortIAnswer) : List PortIAnswer :=
  if b.length ≤ n then as else .bytes (b.drop n) :: as

/-- How a refill stands (41_bitsource.md R102): the batch is filled (or cut short by end of data), no byte came, an
I/O error came, or the endpoint has not answered. -/
inductive FillEnd where
  | filled
  | eod
  | ioErr
  | waiting
  deriving DecidableEq, Repr

/-- What a refill leaves: how it stands, the batch buffer, the answers not yet taken, the transactions made. -/
structure FillResult where
  stop : FillEnd
  buf : List Byte
  answers : List PortIAnswer
  events : List PortEvent
  deriving DecidableEq, Repr

/-- The loop of Refill (41_bitsource.md R102, R104): ask for exactly the bytes still missing from the batch, until the
batch is full, the endpoint answers zero bytes, or it answers IoErr. -/
def fill (batch : Nat) : List Byte → List PortIAnswer → FillResult
  | buf, [] => ⟨.waiting, buf, [], []⟩
  | buf, .ioErr :: as => ⟨.ioErr, buf, as, [.read (batch - buf.length) .ioErr]⟩
  | buf, .bytes b :: as =>
    let n := batch - buf.length
    let got := b.take n
    let ev := PortEvent.read n (.bytes got)
    if b.isEmpty then ⟨if buf.isEmpty then .eod else .filled, buf, as, [ev]⟩
    else if batch ≤ (buf ++ got).length then ⟨.filled, buf ++ got, answersAfterRead n b as, [ev]⟩
    else
      let r := fill batch (buf ++ got) as
      { r with events := ev :: r.events }

/-- Continue a refill of BSRC with the answers at hand. -/
def State.refill (s : State) : FillEnd × State :=
  let r := fill s.bsrc.batch.toNat s.bsrc.buf s.portI
  (r.stop, { s with bsrc := { s.bsrc with buf := r.buf }, portI := r.answers, trace := s.trace ++ r.events })

/-! ### Port O -/

/-- How a port O write stands: taken, failed, or not answered yet. -/
inductive WriteEnd where
  | ok
  | ioErr
  | waiting
  deriving DecidableEq, Repr

/-- `PortWrite(BSNK.buf)` (20_memory.md R52, 42_bitsink.md R134): on Ok the buffer is emptied, on IoErr it is kept
whole; the number is the bytes port O accepted. -/
def State.portWrite (s : State) : WriteEnd × Nat × State :=
  match s.portO with
  | [] => (.waiting, 0, s)
  | .ok :: as =>
    (.ok, s.bsnk.buf.length,
      { s with bsnk := { s.bsnk with buf := [] }, portO := as, trace := s.trace ++ [.write s.bsnk.buf .ok] })
  | .ioErr :: as => (.ioErr, 0, { s with portO := as, trace := s.trace ++ [.write s.bsnk.buf .ioErr] })

/-! ### The running command -/

/-- A request a port has outstanding (20_memory.md R51, R52). -/
inductive PortRequest where
  | read (n : Nat)
  | write (b : List Byte)
  deriving DecidableEq, Repr

/-- The command a finalizing flush belongs to. -/
def finalizeCommand : Finalize → Instr
  | .flush => .snkFlush Operands.none
  | .reopen t => .snkOpen (Operands.ofArg t)
  | .close => .snkClose Operands.none

/-- The command of a BUSY engine: the `c` of BUSY(c) (10_state.md R40); none for a packet that selects no command. -/
def jobCommand : Job → Option Instr
  | .started p => (decode p).toOption
  | .srcNextBit => some (.srcNextBit Operands.none)
  | .srcNextByte _ _ => some (.srcNextByte Operands.none)
  | .snkWriteBit bit => some (.snkWriteBit (Operands.ofImm bit))
  | .snkWriteByte byte _ => some (.snkWriteByte (Operands.ofImm byte))
  | .snkFirstDrain f => some (finalizeCommand f)
  | .snkSecondDrain f _ => some (finalizeCommand f)

/-- The request the running command waits on (10_state.md R41): the bytes still missing from the batch (R102), or the
whole sink buffer (R134). -/
def State.outstanding (s : State) : Option PortRequest :=
  match s.eng with
  | .idle => none
  | .busy (.started _) => none
  | .busy .srcNextBit => some (.read (s.bsrc.batch.toNat - s.bsrc.buf.length))
  | .busy (.srcNextByte _ _) => some (.read (s.bsrc.batch.toNat - s.bsrc.buf.length))
  | .busy (.snkWriteBit _) => some (.write s.bsnk.buf)
  | .busy (.snkWriteByte _ _) => some (.write s.bsnk.buf)
  | .busy (.snkFirstDrain _) => some (.write s.bsnk.buf)
  | .busy (.snkSecondDrain _ _) => some (.write s.bsnk.buf)

/-! ### Reset -/

/-- The port I answers after reset: an answer already given to the abandoned read is discarded (R340). -/
def State.answersIAfterReset (s : State) : List PortIAnswer :=
  match s.outstanding, s.portI with
  | some (.read n), .bytes b :: as => answersAfterRead n b as
  | some (.read _), .ioErr :: as => as
  | _, as => as

/-- The port O answers after reset: an answer already given to the abandoned write is discarded (R340). -/
def State.answersOAfterReset (s : State) : List PortOAnswer :=
  match s.outstanding, s.portO with
  | some (.write _), _ :: as => as
  | _, as => as

/-- The abandoned reads without an answer after reset: one more when the read abandoned now has none (R340). -/
def State.lateIAfterReset (s : State) : Nat :=
  match s.outstanding, s.portI with
  | some (.read _), [] => s.lateI + 1
  | _, _ => s.lateI

/-- The abandoned writes without an answer after reset: one more when the write abandoned now has none (R340). -/
def State.lateOAfterReset (s : State) : Nat :=
  match s.outstanding, s.portO with
  | some (.write _), [] => s.lateO + 1
  | _, _ => s.lateO

/-- The request a reset abandons, as it is seen at the port (R340, 93_implementation_defined.md I6). -/
def State.abandoned (s : State) : List PortEvent :=
  match s.outstanding with
  | some (.read n) => [.readAbandoned n]
  | some (.write b) => [.writeAbandoned b]
  | none => []

/-- A reset (70_reset_and_hazards.md R340, R341, R342): every state field takes its reset value, the running command
gets no response, its port request is abandoned, and no port transaction is made. What is outside the block (the
channel, the responses delivered, the endpoints) is not changed by it; that an abandoned request has no answer yet is
kept, so that its answer is discarded when it comes (`State.answerI`, `State.answerO`). -/
def State.hardReset (s : State) : State where
  cfg := s.cfg
  eng := .idle
  bsrc := Bsrc.fresh s.cfg
  bsnk := Bsnk.fresh s.cfg
  enc := Enc.fresh
  tree := none
  rst := false
  cmds := s.cmds
  resps := s.resps
  portI := s.answersIAfterReset
  portO := s.answersOAfterReset
  lateI := s.lateIAfterReset
  lateO := s.lateOAfterReset
  trace := s.trace ++ s.abandoned
  draws := s.draws

/-! ### The command channel -/

/-- Accept the next packet from the command channel (30_encoding.md R70, 10_state.md R40). -/
def State.accept (s : State) : Option (Packet × State) :=
  match s.cmds with
  | [] => none
  | p :: ps => some (p, { s with cmds := ps })

/-- Put a packet where the next step accepts it: at the head of the command channel, with the engine IDLE and reset not
asserted. -/
def State.place (s : State) (p : Packet) : State := { s with eng := .idle, rst := false, cmds := p :: s.cmds }

/-- The engine has accepted the next packet and not answered it (10_state.md R40): the moment between the two, which one
step of an IDLE engine passes over, and at which a reset can come (70_reset_and_hazards.md R340; log entry 5). -/
def State.start (s : State) : State :=
  if s.rst then s
  else
    match s.eng, s.accept with
    | .idle, some (p, t) => t.wait (.started p)
    | _, _ => s

/-! ### The wire form of a response (30_encoding.md R75, 20_memory.md R53) -/

/-- The bytes of a response on the wire, `le32(s) ++ le32(res) ++ payload` (R75). -/
def responseBytes (r : Response) : List Byte := leBytes 4 r.status.toNat ++ leBytes 4 r.res.toNat ++ r.payload

/-- A response from its bytes on the wire. The channel delivers the payload's length with it, so the payload is all that
follows the two words (R75). -/
def responseOfBytes (bs : List Byte) : Option Response :=
  if bs.length < 8 then none
  else some ⟨BitVec.ofNat 32 (fromLe (bs.take 4)), BitVec.ofNat 32 (fromLe ((bs.drop 4).take 4)), bs.drop 8⟩

end Sys2Proof.Machine
end

