-- ==== Sys2Proof/Machine/Operands.lean ====
section
/-! DEFINITION. The operand forms of the commands (30_encoding.md R73), the operand checks every command begins with
(R81, R82), and the CSR numbers (10_state.md R34 to R38). -/

namespace Sys2Proof.Machine

/-- The control and status registers (10_state.md R34 to R38). -/
inductive Csr where
  | srcBatch | srcStat | srcAvail
  | snkThresh | snkStat | snkLevel
  | encStat | encTotalLo | encTotalHi | encSyms
  | treeStat | treeNodes | treeLeaves
  | capSrcBuf | capSnkBuf | capMaxNodes | capChunkLo | capChunkHi | capCmdPayload
  | id
  deriving DecidableEq, Repr

/-- The CSR a number names; none for every unlisted number (R33). -/
def csrOfNumber (n : Nat) : Option Csr :=
  match n with
  | 0x00 => some .srcBatch
  | 0x01 => some .srcStat
  | 0x02 => some .srcAvail
  | 0x03 => some .snkThresh
  | 0x04 => some .snkStat
  | 0x05 => some .snkLevel
  | 0x06 => some .encStat
  | 0x07 => some .encTotalLo
  | 0x08 => some .encTotalHi
  | 0x09 => some .encSyms
  | 0x0A => some .treeStat
  | 0x0B => some .treeNodes
  | 0x0C => some .treeLeaves
  | 0x10 => some .capSrcBuf
  | 0x11 => some .capSnkBuf
  | 0x12 => some .capMaxNodes
  | 0x13 => some .capChunkLo
  | 0x14 => some .capChunkHi
  | 0x15 => some .capCmdPayload
  | 0x16 => some .id
  | _ => none

/-- How a command uses IMM8 (R73). -/
inductive ImmClass where
  | unused
  | bit
  | byte
  | csr
  deriving DecidableEq, Repr

/-- How a command uses ARG (R73): not at all, as a batch size, as a threshold, as the length of the frequency table, or
as a payload length. -/
inductive ArgClass where
  | unused
  | batch
  | threshold
  | tableLen
  | len
  deriving DecidableEq, Repr

/-- The operand class of a command. -/
structure OperandClass where
  imm : ImmClass
  arg : ArgClass
  deriving DecidableEq, Repr

/-- The table of R73. -/
def operandClass : Instr → OperandClass
  | .csrRead _ => ⟨.csr, .unused⟩
  | .srcOpen _ => ⟨.unused, .batch⟩
  | .srcNextBit _ => ⟨.unused, .unused⟩
  | .srcNextByte _ => ⟨.unused, .unused⟩
  | .srcTakeUnconsumed _ => ⟨.unused, .unused⟩
  | .snkOpen _ => ⟨.unused, .threshold⟩
  | .snkWriteBit _ => ⟨.bit, .unused⟩
  | .snkWriteByte _ => ⟨.byte, .unused⟩
  | .snkFlush _ => ⟨.unused, .unused⟩
  | .snkSetThreshold _ => ⟨.unused, .threshold⟩
  | .snkClose _ => ⟨.unused, .unused⟩
  | .treeBuild _ => ⟨.unused, .tableLen⟩
  | .treeSerialize _ => ⟨.unused, .unused⟩
  | .treeDeserialize _ => ⟨.unused, .len⟩
  | .treeCodeTable _ => ⟨.unused, .unused⟩
  | .encNew _ => ⟨.unused, .unused⟩
  | .encAddChunk _ => ⟨.unused, .len⟩
  | .encEncode _ => ⟨.unused, .unused⟩
  | .decDecode _ => ⟨.unused, .len⟩

/-- ARG is a payload length (the ARG class `len` of R73). -/
def isLenClass : ArgClass → Bool
  | .tableLen => true
  | .len => true
  | _ => false

/-- IMM8 is in the range R73 gives its class. -/
def immInRange : ImmClass → Byte → Bool
  | .unused, _ => true
  | .bit, v => v.toNat ≤ 1
  | .byte, _ => true
  | .csr, v => (csrOfNumber v.toNat).isSome

/-- ARG is in the range R73 gives its class (the payload capacity is a check of its own, R81). -/
def argInRange (c : Config) : ArgClass → Word → Bool
  | .unused, _ => true
  | .batch, v => 1 ≤ v.toNat && v.toNat ≤ c.srcBufCap
  | .threshold, v => v.toNat ≤ c.snkBufCap
  | .tableLen, v => v.toNat = 2048
  | .len, _ => true

/-- The first failing operand check of R81, in the order it lists them, then the payload capacity check (R82 (3), (4)). -/
def operandError (c : Config) (k : OperandClass) (o : Operands) : Option Status :=
  if k.imm = .unused ∧ o.imm ≠ 0 then some .eIllegalArg
  else if k.arg = .unused ∧ o.arg ≠ 0 then some .eIllegalArg
  else if isLenClass k.arg = false ∧ o.payload ≠ [] then some .eIllegalArg
  else if isLenClass k.arg = true ∧ o.payload.length ≠ o.arg.toNat then some .eIllegalArg
  else if immInRange k.imm o.imm = false then some .eIllegalArg
  else if argInRange c k.arg o.arg = false then some .eIllegalArg
  else if isLenClass k.arg = true ∧ c.cmdPayloadMax < o.arg.toNat then some .eCapacity
  else none

/-- Run the body of the command `i` after the operand checks: a failing check ends the command before any change
(R81, R82). -/
def checked (i : Instr) (s : State) (body : State → State) : Host.Outcome State Fault Refusal :=
  match operandError s.cfg (operandClass i) i.operands with
  | some e => .next (s.raise e 0)
  | none => .next (body s)

end Sys2Proof.Machine
end

