-- ==== Sys2Proof/Machine/BitSink.lean ====
section
/-! DEFINITION. The bit sink commands (42_bitsink.md). -/

namespace Sys2Proof.Machine

/-! ### PutBit, AutoDrain, Drain, Flush -/

/-- `Drain()` (R134): nothing to write makes no port transaction. The number is the bytes port O accepted. -/
def State.drain (s : State) : WriteEnd × Nat × State :=
  if s.bsnk.buf.isEmpty then (.ok, 0, s) else s.portWrite

/-- What PutBit answers (R131), or that its automatic drain waits for the port O endpoint. -/
inductive PutEnd where
  | accepted
  | acceptedIoErr
  | full
  | waiting
  deriving DecidableEq, Repr

/-- What an automatic drain makes of PutBit: the bit is kept even when the write failed (R131, R134). -/
def putAfterWrite : WriteEnd × Nat × State → PutEnd × State
  | (.ok, _, s) => (.accepted, s)
  | (.ioErr, _, s) => (.acceptedIoErr, s)
  | (.waiting, _, s) => (.waiting, s)

/-- `AutoDrain()` as PutBit's last act (R131, R133). -/
def State.autoDrain (s : State) : PutEnd × State :=
  if s.bsnk.thresh.toNat ≤ s.bsnk.buf.length then putAfterWrite s.drain else (.accepted, s)

/-- The pending bits with one more bit (R131). -/
def accWith (acc : Byte) (bit : Bool) : Byte := (acc <<< 1) ||| (if bit then 1 else 0)

/-- The sink after the bit that completes a byte (R131). -/
def withByte (k : Bsnk) (bit : Bool) : Bsnk :=
  { k with buf := k.buf ++ [accWith k.acc bit], acc := 0, nbits := 0 }

/-- `PutBit(bit)` (R131): a bit that would complete a byte while the buffer is full is not accepted (R132). -/
def State.putBit (bit : Bool) (s : State) : PutEnd × State :=
  if s.bsnk.nbits ≠ 7 then
    (.accepted, s.setBsnk { s.bsnk with acc := accWith s.bsnk.acc bit, nbits := s.bsnk.nbits + 1 })
  else if s.cfg.snkBufCap ≤ s.bsnk.buf.length then (.full, s)
  else (s.setBsnk (withByte s.bsnk bit)).autoDrain

/-- The partial byte, zero-padded on its low bits (R135). -/
def paddedByte (k : Bsnk) : Byte := k.acc <<< (8 - k.nbits.toNat)

/-- The sink with its partial byte padded and appended to `buf` (R135). -/
def padded (k : Bsnk) : Bsnk := { k with buf := k.buf ++ [paddedByte k], acc := 0, nbits := 0 }

/-- The first act of Flush: pad a pending partial byte when the buffer has room (R135). -/
def State.padIfRoom (s : State) : State :=
  if s.bsnk.nbits ≠ 0 ∧ s.bsnk.buf.length < s.cfg.snkBufCap then s.setBsnk (padded s.bsnk) else s

/-- The end of a successful Flush: what SNK_FLUSH, SNK_OPEN and SNK_CLOSE do then (R138, R140, R141). -/
def flushDone (f : Finalize) (written : Nat) (s : State) : State :=
  match f with
  | .flush => s.respond .ok (resultWord written) []
  | .reopen t => (s.setBsnk ⟨true, t, 0, 0, []⟩).respond .ok (resultWord written) []
  | .close => (s.setBsnk { s.bsnk with isOpen := false }).respond .ok (resultWord written) []

/-- Flush from the answer to its second drain on, `written` bytes having been accepted by the first (R135). -/
def flushSecondEnd (f : Finalize) (written : Nat) : WriteEnd × Nat × State → State
  | (.ok, n, s) => flushDone f (written + n) s
  | (.ioErr, n, s) => s.respond .eIo (resultWord (written + n)) []
  | (.waiting, _, s) => s.wait (.snkSecondDrain f written)

/-- Flush after its first drain: a partial byte that had no room is padded and written now (R135). -/
def flushSecond (f : Finalize) (written : Nat) (s : State) : State :=
  if s.bsnk.nbits = 0 then flushDone f written s
  else flushSecondEnd f written (s.setBsnk { s.bsnk with buf := [paddedByte s.bsnk], acc := 0, nbits := 0 }).drain

/-- Flush from the answer to its first drain on (R135). -/
def flushFirstEnd (f : Finalize) : WriteEnd × Nat × State → State
  | (.ok, n, s) => flushSecond f n s
  | (.ioErr, n, s) => s.respond .eIo (resultWord n) []
  | (.waiting, _, s) => s.wait (.snkFirstDrain f)

/-- `Flush()` (R135) and what its command does after it. -/
def flushFor (f : Finalize) (s : State) : State := flushFirstEnd f s.padIfRoom.drain

/-! ### The bodies -/

/-- End or suspend SNK_WRITE_BIT with what PutBit answered (R136). -/
def writeBitEnd (imm : Byte) : PutEnd × State → State
  | (.accepted, s) => s.respond .ok 1 []
  | (.acceptedIoErr, s) => s.respond .eIo 1 []
  | (.full, s) => s.respond .eCapacity 0 []
  | (.waiting, s) => s.wait (.snkWriteBit imm)

/-- SNK_WRITE_BYTE from the answer to one PutBit on, with the bits still to write after this one and `done` bits
accepted before it (R137). -/
def writeByteFrom (byte : Byte) : List Bool → Nat → PutEnd × State → State
  | [], done, (.accepted, s) => s.respond .ok (resultWord (done + 1)) []
  | b :: bs, done, (.accepted, s) => writeByteFrom byte bs (done + 1) (s.putBit b)
  | _, done, (.acceptedIoErr, s) => s.respond .eIo (resultWord (done + 1)) []
  | _, done, (.full, s) => s.respond .eCapacity (resultWord done) []
  | _, done, (.waiting, s) => s.wait (.snkWriteByte byte done)

/-- The body of SNK_OPEN (R140): the old sink is finalized first, a closed one is not. -/
def snkOpenBody (t : Word) (s : State) : State :=
  if s.bsnk.isOpen then flushFor (.reopen t) s else flushDone (.reopen t) 0 s

/-- The body of SNK_WRITE_BIT (R136). -/
def snkWriteBitBody (imm : Byte) (s : State) : State :=
  if s.bsnk.isOpen then writeBitEnd imm (s.putBit (imm.getLsbD 0)) else s.raise .eClosed 0

/-- The body of SNK_WRITE_BYTE (R137): most significant bit first. -/
def snkWriteByteBody (byte : Byte) (s : State) : State :=
  if s.bsnk.isOpen then writeByteFrom byte ((byteBits byte).drop 1) 0 (s.putBit (byte.getLsbD 7))
  else s.raise .eClosed 0

/-- The body of SNK_FLUSH (R138). -/
def snkFlushBody (s : State) : State :=
  if s.bsnk.isOpen then flushFor .flush s else s.raise .eClosed 0

/-- The body of SNK_SET_THRESHOLD (R139): no drain now. -/
def snkSetThresholdBody (t : Word) (s : State) : State :=
  if s.bsnk.isOpen then (s.setBsnk { s.bsnk with thresh := t }).respond .ok 0 [] else s.raise .eClosed 0

/-- The body of SNK_CLOSE (R141). -/
def snkCloseBody (s : State) : State :=
  if s.bsnk.isOpen then flushFor .close s else s.raise .eClosed 0

/-! ### The commands -/

/-- SNK_OPEN (R140). -/
def execSnkOpen (o : Operands) (s : State) : Host.Outcome State Fault Refusal :=
  checked (.snkOpen o) s (snkOpenBody o.arg)

/-- SNK_WRITE_BIT (R136). -/
def execSnkWriteBit (o : Operands) (s : State) : Host.Outcome State Fault Refusal :=
  checked (.snkWriteBit o) s (snkWriteBitBody o.imm)

/-- SNK_WRITE_BYTE (R137). -/
def execSnkWriteByte (o : Operands) (s : State) : Host.Outcome State Fault Refusal :=
  checked (.snkWriteByte o) s (snkWriteByteBody o.imm)

/-- SNK_FLUSH (R138). -/
def execSnkFlush (o : Operands) (s : State) : Host.Outcome State Fault Refusal :=
  checked (.snkFlush o) s snkFlushBody

/-- SNK_SET_THRESHOLD (R139). -/
def execSnkSetThreshold (o : Operands) (s : State) : Host.Outcome State Fault Refusal :=
  checked (.snkSetThreshold o) s (snkSetThresholdBody o.arg)

/-- SNK_CLOSE (R141). -/
def execSnkClose (o : Operands) (s : State) : Host.Outcome State Fault Refusal :=
  checked (.snkClose o) s snkCloseBody

end Sys2Proof.Machine
end

