-- ==== Sys2Proof/Machine/BitSource.lean ====
section
/-! DEFINITION. The bit source commands (41_bitsource.md). -/

namespace Sys2Proof.Machine

/-! ### TakeBit and NextBit -/

/-- The next bit of the buffer: bit `7 - bpos` of `buf[rpos]` (R101). -/
def bitAt (b : Bsrc) : Bool := (b.buf.getD b.rpos 0).getLsbD (7 - b.bpos.toNat)

/-- The source after its next bit was taken (R101). -/
def advance (b : Bsrc) : Bsrc :=
  if b.bpos = 7 then { b with bpos := 0, rpos := b.rpos + 1 } else { b with bpos := b.bpos + 1 }

/-- The buffer is exhausted (R24, R102). -/
def exhausted (b : Bsrc) : Bool := b.buf.length ≤ b.rpos

/-- A source with an empty buffer, otherwise unchanged (R102). -/
def emptied (b : Bsrc) : Bsrc := { b with buf := [], rpos := 0, bpos := 0 }

/-- What NextBit answers (R105), or that it waits for the port I endpoint. -/
inductive BitEnd where
  | bit (b : Bool)
  | eod
  | ioErr
  | waiting
  deriving DecidableEq, Repr

/-- `TakeBit()` (R101). -/
def State.takeBit (s : State) : BitEnd × State := (.bit (bitAt s.bsrc), s.setBsrc (advance s.bsrc))

/-- NextBit from inside its refill: with the answers at hand, the refill ends and a bit is taken, or it ends without a
bit, or it waits (R102, R104, R105). -/
def State.refillBit (s : State) : BitEnd × State :=
  match s.refill with
  | (.filled, t) => t.takeBit
  | (.eod, t) => (.eod, t)
  | (.ioErr, t) => (.ioErr, t)
  | (.waiting, t) => (.waiting, t)

/-- `NextBit()` (R105): an exhausted buffer is emptied and refilled first. -/
def State.nextBit (s : State) : BitEnd × State :=
  if exhausted s.bsrc then (s.setBsrc (emptied s.bsrc)).refillBit else s.takeBit

/-! ### The bodies -/

/-- End or suspend SRC_NEXT_BIT with what NextBit answered (R107). -/
def nextBitEnd : BitEnd × State → State
  | (.bit b, s) => s.respond .ok (bitWord b) []
  | (.eod, s) => s.respond .eod 0 []
  | (.ioErr, s) => s.respond .eIo 0 []
  | (.waiting, s) => s.wait .srcNextBit

/-- The value after one more bit, first bit most significant (R108). -/
def shiftIn (v : Byte) (b : Bool) : Byte := (v <<< 1) ||| (if b then 1 else 0)

/-- SRC_NEXT_BYTE from the answer to one NextBit on, with `left` bits to read after this one and `v` the bits read
before it: `7 - left` bits were read (R108). -/
def nextByteFrom : Nat → Byte → BitEnd × State → State
  | 0, v, (.bit b, s) => s.respond .ok (partialByteWord 8 (shiftIn v b)) []
  | left + 1, v, (.bit b, s) => nextByteFrom left (shiftIn v b) s.nextBit
  | left, v, (.eod, s) => s.respond .eod (partialByteWord (7 - left) v) []
  | left, v, (.ioErr, s) => s.respond .eIo (partialByteWord (7 - left) v) []
  | left, v, (.waiting, s) => s.wait (.srcNextByte left v)

/-- The body of SRC_OPEN (R106): a new source, the old buffer dropped. -/
def srcOpenBody (batch : Word) (s : State) : State :=
  (s.setBsrc ⟨true, batch, [], 0, 0⟩).respond .ok 0 []

/-- The body of SRC_NEXT_BIT (R107). -/
def srcNextBitBody (s : State) : State :=
  if s.bsrc.isOpen then nextBitEnd s.nextBit else s.raise .eClosed 0

/-- The body of SRC_NEXT_BYTE (R108). -/
def srcNextByteBody (s : State) : State :=
  if s.bsrc.isOpen then nextByteFrom 7 0 s.nextBit else s.raise .eClosed 0

/-- The whole bytes held and not consumed (R109). -/
def unconsumed (b : Bsrc) : List Byte := b.buf.drop (b.rpos + if b.bpos = 0 then 0 else 1)

/-- The body of SRC_TAKE_UNCONSUMED (R109). -/
def srcTakeUnconsumedBody (s : State) : State :=
  if s.bsrc.isOpen then
    let out := unconsumed s.bsrc
    (s.setBsrc { emptied s.bsrc with isOpen := false }).respond .ok (resultWord out.length) out
  else s.raise .eClosed 0

/-! ### The commands -/

/-- SRC_OPEN (R106). -/
def execSrcOpen (o : Operands) (s : State) : Host.Outcome State Fault Refusal :=
  checked (.srcOpen o) s (srcOpenBody o.arg)

/-- SRC_NEXT_BIT (R107). -/
def execSrcNextBit (o : Operands) (s : State) : Host.Outcome State Fault Refusal :=
  checked (.srcNextBit o) s srcNextBitBody

/-- SRC_NEXT_BYTE (R108). -/
def execSrcNextByte (o : Operands) (s : State) : Host.Outcome State Fault Refusal :=
  checked (.srcNextByte o) s srcNextByteBody

/-- SRC_TAKE_UNCONSUMED (R109). -/
def execSrcTakeUnconsumed (o : Operands) (s : State) : Host.Outcome State Fault Refusal :=
  checked (.srcTakeUnconsumed o) s srcTakeUnconsumedBody

end Sys2Proof.Machine
end

