-- ==== Sys2Proof/Machine/TreeOps.lean ====
section
/-! DEFINITION. The Frequency Tree as functions (43_tree.md): build, serialize, deserialize, code table. They are used
by the TREE commands and by ENC_ENCODE and DEC_DECODE; none reads or writes the state. -/

namespace Sys2Proof.Machine

/-! ### Shape -/

/-- `weight(t)` (R19). -/
def treeWeight : FreqTree → Weight
  | .leaf _ w => w
  | .composite w _ _ => w

/-- The number of nodes. -/
def treeNodes : FreqTree → Nat
  | .leaf _ _ => 1
  | .composite _ l r => 1 + treeNodes l + treeNodes r

/-- The number of Leaves. -/
def treeLeaves : FreqTree → Nat
  | .leaf _ _ => 1
  | .composite _ l r => treeLeaves l + treeLeaves r

/-- The Leaves in pre-order, each with its byte value and weight. -/
def treeLeafList : FreqTree → List (Byte × Weight)
  | .leaf s w => [(s, w)]
  | .composite _ l r => treeLeafList l ++ treeLeafList r

/-- The node a path leads to (R19). -/
def nodeAt : FreqTree → List Bool → Option FreqTree
  | t, [] => some t
  | .leaf _ _, _ :: _ => none
  | .composite _ l r, b :: p => nodeAt (if b then r else l) p

/-! ### Build (R161, R162) -/

/-- The seed: one Leaf per byte value from `b` on with a nonzero count (R161). -/
def seedLeaves : Nat → List Count → List FreqTree
  | _, [] => []
  | b, c :: cs =>
    if c = 0 then seedLeaves (b + 1) cs
    else .leaf (BitVec.ofNat 8 b) (c.zeroExtend 72) :: seedLeaves (b + 1) cs

/-- The least weight of the nodes of a collection. -/
def leastWeight : List FreqTree → Nat
  | [] => 0
  | [t] => (treeWeight t).toNat
  | t :: u :: q => min (treeWeight t).toNat (leastWeight (u :: q))

/-- How many nodes have the weight `w`. -/
def countWeight (w : Nat) (q : List FreqTree) : Nat := q.countP fun t => (treeWeight t).toNat = w

/-- The `j`-th node of weight `w`, and the collection without it. -/
def takeWeight (w : Nat) : Nat → List FreqTree → Option (FreqTree × List FreqTree)
  | _, [] => none
  | j, t :: q =>
    if (treeWeight t).toNat = w then
      match j with
      | 0 => some (t, q)
      | j + 1 => (takeWeight w j q).map fun r => (r.1, t :: r.2)
    else (takeWeight w j q).map fun r => (r.1, t :: r.2)

/-- `Pick(Q)` with the draw `d`: a node of least weight, and the collection without it. Among `n` such nodes the draw
chooses the one numbered `d % n` (R162); the collection is kept in the order of the sequence numbers of R163, so the
draw 0 is the reference tie-break. -/
def pickNode (d : Nat) (q : List FreqTree) : Option (FreqTree × List FreqTree) :=
  let w := leastWeight q
  let n := countWeight w q
  takeWeight w (if n ≤ 1 then 0 else d % n) q

/-- The merge loop (R162), with `draw k` the draw of the k-th pick and at most `fuel` merges; it answers the root and
the number of the next pick. The first node popped is the left child. -/
def mergeLoop (draw : Nat → Nat) : Nat → Nat → List FreqTree → Option FreqTree × Nat
  | _, k, [] => (none, k)
  | _, k, [t] => (some t, k)
  | 0, k, _ => (none, k)
  | fuel + 1, k, q =>
    match pickNode (draw k) q with
    | none => (none, k)
    | some (x, q) =>
      match pickNode (draw (k + 1)) q with
      | none => (none, k)
      | some (y, q) => mergeLoop draw fuel (k + 2) (q ++ [.composite (treeWeight x + treeWeight y) x y])

/-- `Build(F)` (R162, R164): the root, or `none` for EMPTY, and the number of the next pick. `F` lists the counts of
byte values 0, 1, 2, ... in order. -/
def buildTree (draw : Nat → Nat) (k : Nat) (f : List Count) : Option FreqTree × Nat :=
  let q := seedLeaves 0 f
  mergeLoop draw q.length k q

/-- The counts of a frequency-table payload: 256 little-endian 64-bit counts (30_encoding.md R91). -/
def tableCounts : Nat → List Byte → List Count
  | 0, _ => []
  | n + 1, p => BitVec.ofNat 64 (fromLe (p.take 8)) :: tableCounts n (p.drop 8)

/-! ### Serialization (R166, R167, R169) -/

/-- `Ser(t)` (R166). -/
def serialize : FreqTree → List Bool
  | .leaf s _ => true :: byteBits s
  | .composite _ l r => false :: (serialize l ++ serialize r)

/-- What a parse answers (R169): the tree, the bits left and the nodes counted; or the first failure met. -/
inductive ParseEnd where
  | tree (t : FreqTree) (rest : List Bool) (nodes : Nat)
  | malformed
  | treeCapacity
  deriving DecidableEq, Repr

/-- `Parse()` (R169) over the bits not yet read, with `n` nodes counted and at most `maxNodes` allowed. Every call
counts a node before it nests, so `maxNodes` levels are enough. -/
def parseTree (maxNodes : Nat) : Nat → List Bool → Nat → ParseEnd
  | _, [], _ => .malformed
  | 0, _ :: _, _ => .treeCapacity
  | fuel + 1, b :: bits, n =>
    if maxNodes < n + 1 then .treeCapacity
    else if b then
      match readByte bits with
      | none => .malformed
      | some (v, rest) => .tree (.leaf v 0) rest (n + 1)
    else
      match parseTree maxNodes fuel bits (n + 1) with
      | .tree l rest m =>
        match parseTree maxNodes fuel rest m with
        | .tree r rest m => .tree (.composite 0 l r) rest m
        | e => e
      | e => e

/-- `Deser(s)` (R169): bits after the last one the parse reads are ignored. -/
def deserialize (maxNodes : Nat) (s : List Byte) : ParseEnd := parseTree maxNodes maxNodes (unpack s) 0

/-- The tree with every weight replaced by 0 (R175). -/
def zeroWeights : FreqTree → FreqTree
  | .leaf s _ => .leaf s 0
  | .composite _ l r => .composite 0 (zeroWeights l) (zeroWeights r)

/-! ### Code table (R171, R92) -/

/-- The code of a byte value: the path (0 left, 1 right) of the first Leaf in pre-order that holds it (R171). -/
def codeOf : FreqTree → Byte → Option (List Bool)
  | .leaf s _, b => if s = b then some [] else none
  | .composite _ l r, b =>
    match codeOf l b with
    | some p => some (false :: p)
    | none => (codeOf r b).map (true :: ·)

/-- The 16-bit length field of a code (R92). A length of 65536 or more has no `le16`: a free value (log entry 4). -/
def codeLength (n : Nat) : BitVec 16 := if n < 65536 then BitVec.ofNat 16 n else Config.longCodeLen n

/-- The code-table entry of one byte value (R92). -/
def codeEntry (t : FreqTree) (b : Byte) : List Byte :=
  match codeOf t b with
  | none => leBytes 2 0xFFFF
  | some c => leBytes 2 (codeLength c.length).toNat ++ pack c

/-- Every byte value in order, 0 to 255. -/
def allBytes : List Byte := (List.range 256).map (BitVec.ofNat 8)

/-- The code-table payload (R92). -/
def codeTable (t : FreqTree) : List Byte := allBytes.flatMap (codeEntry t)

/-- The number of byte values that have a code (R173). -/
def codedCount (t : FreqTree) : Nat := allBytes.countP fun b => (codeOf t b).isSome

end Sys2Proof.Machine
end

