-- ==== Sys2Proof/Machine/Control.lean ====
section
/-! DEFINITION. The control command (46_control.md) and the values of the CSRs (10_state.md R34 to R38). -/

namespace Sys2Proof.Machine

/-- A bit placed at position `k` of a word. -/
def bitField (b : Bool) (k : Nat) : Word := (if b then 1 else 0) <<< k

/-- SRC_STAT (R34): OPEN in bit 0, BITPOS in bits 3..1. -/
def srcStatWord (b : Bsrc) : Word := bitField b.isOpen 0 ||| (b.bpos.zeroExtend 32 <<< 1)

/-- SNK_STAT (R35): OPEN in bit 0, NBITS in bits 3..1, ACC in bits 15..8. -/
def snkStatWord (k : Bsnk) : Word :=
  bitField k.isOpen 0 ||| (k.nbits.zeroExtend 32 <<< 1) ||| (k.acc.zeroExtend 32 <<< 8)

/-- The tree is a lone Leaf (R37). -/
def isLoneLeaf : FreqTree → Bool
  | .leaf _ _ => true
  | .composite _ _ _ => false

/-- TREE_STAT (R37): VALID in bit 0, DEGENERATE in bit 1. -/
def treeStatWord (t : Option FreqTree) : Word :=
  bitField t.isSome 0 ||| bitField (t.any isLoneLeaf) 1

/-- ENC_SYMS (R36): the number of byte values with a nonzero count. -/
def encSyms (e : Enc) : Nat := e.freq.toList.countP (· ≠ 0)

/-- `csr[n]` built from the current state (R34 to R38, R261). -/
def csrValue (s : State) : Csr → Word
  | .srcBatch => s.bsrc.batch
  | .srcStat => srcStatWord s.bsrc
  | .srcAvail => resultWord (s.bsrc.buf.length - s.bsrc.rpos)
  | .snkThresh => s.bsnk.thresh
  | .snkStat => snkStatWord s.bsnk
  | .snkLevel => resultWord s.bsnk.buf.length
  | .encStat => bitField s.enc.consumed 0
  | .encTotalLo => s.enc.total.extractLsb' 0 32
  | .encTotalHi => s.enc.total.extractLsb' 32 32
  | .encSyms => resultWord (encSyms s.enc)
  | .treeStat => treeStatWord s.tree
  | .treeNodes => resultWord ((s.tree.map treeNodes).getD 0)
  | .treeLeaves => resultWord ((s.tree.map treeLeaves).getD 0)
  | .capSrcBuf => resultWord s.cfg.srcBufCap
  | .capSnkBuf => resultWord s.cfg.snkBufCap
  | .capMaxNodes => resultWord s.cfg.maxNodes
  | .capChunkLo => (BitVec.ofNat 64 s.cfg.chunkCap).extractLsb' 0 32
  | .capChunkHi => (BitVec.ofNat 64 s.cfg.chunkCap).extractLsb' 32 32
  | .capCmdPayload => resultWord s.cfg.cmdPayloadMax
  | .id => 0x31465548

/-- The body of CSR_READ (R261): no state changes. An unlisted number does not pass the operand check; it fails with
E_ILLEGAL_ARG (R33). -/
def csrReadBody (n : Byte) (s : State) : State :=
  match csrOfNumber n.toNat with
  | some c => s.respond .ok (csrValue s c) []
  | none => s.raise .eIllegalArg 0

/-- CSR_READ (R261). -/
def execCsrRead (o : Operands) (s : State) : Host.Outcome State Fault Refusal :=
  checked (.csrRead o) s (csrReadBody o.imm)

end Sys2Proof.Machine
end

