-- ==== Sys2Proof/Machine/Decoder.lean ====
section
/-! DEFINITION. The decoder command (45_decoder.md). -/

namespace Sys2Proof.Machine

/-- One step down: bit 0 descends left, bit 1 descends right (R235). The walk takes it at a Composite only. -/
def childOf : FreqTree → Bool → FreqTree
  | .leaf s w, _ => .leaf s w
  | .composite _ l r, b => if b then r else l

/-- `Walk(t, P, os)` for a Composite root `t` (R235), from the node reached, with `rem` symbols remaining: the bytes
emitted and the symbols still missing. Reaching a Leaf emits at once and goes back to the root. -/
def walkTree (root : FreqTree) : FreqTree → Nat → List Bool → List Byte × Nat
  | _, 0, _ => ([], 0)
  | _, rem + 1, [] => ([], rem + 1)
  | node, rem + 1, b :: bits =>
    match childOf node b with
    | .leaf s _ =>
      let r := walkTree root root rem bits
      (s :: r.1, r.2)
    | .composite w l r => walkTree root (.composite w l r) (rem + 1) bits

/-- `Walk(t, P, os)` for a lone Leaf (R236): each bit read emits its byte, whatever the bit. -/
def walkLeaf (sym : Byte) : Nat → List Bool → List Byte × Nat
  | 0, _ => ([], 0)
  | rem + 1, [] => ([], rem + 1)
  | rem + 1, _ :: bits =>
    let r := walkLeaf sym rem bits
    (sym :: r.1, r.2)

/-- `Walk(t, P, os)` (R235, R236). -/
def walk (t : FreqTree) (bits : List Bool) (size : Nat) : List Byte × Nat :=
  match t with
  | .leaf s _ => walkLeaf s size bits
  | .composite w l r => walkTree (.composite w l r) (.composite w l r) size bits

/-- What decoding a buffer answers: a failure, or the bytes and the symbols still missing (R231). -/
inductive DecodeEnd where
  | failed (c : Status)
  | bytes (out : List Byte) (rem : Nat)
  deriving DecidableEq, Repr

/-- The steps of DEC_DECODE over the buffer `b` (R231 to R237), in order. -/
def decodeBuffer (maxNodes : Nat) (b : List Byte) : DecodeEnd :=
  if b.length < 12 then .failed .eFormat
  else
    let ts := fromLe (b.take 4)
    let os := fromLe ((b.drop 4).take 8)
    if b.length - 12 < ts then .failed .eFormat
    else
      match deserialize maxNodes ((b.drop 12).take ts) with
      | .malformed => .failed .eMalformedTree
      | .treeCapacity => .failed .eTreeCapacity
      | .tree t _ _ =>
        let r := walk t (unpack (b.drop (12 + ts))) os
        .bytes r.1 r.2

/-- The body of DEC_DECODE (R231): TRUNC marks a result short of `original_size` (R237). -/
def decDecodeBody (b : List Byte) (s : State) : State :=
  match decodeBuffer s.cfg.maxNodes b with
  | .failed c => s.raise c 0
  | .bytes out rem => s.deliver ⟨statusWord .ok (0 < rem), 0, out⟩

/-- DEC_DECODE (R231). -/
def execDecDecode (o : Operands) (s : State) : Host.Outcome State Fault Refusal :=
  checked (.decDecode o) s (decDecodeBody o.payload)

end Sys2Proof.Machine
end

