-- ==== Sys2Proof/Machine/Encoder.lean ====
section
/-! DEFINITION. The encoder commands (44_encoder.md). -/

namespace Sys2Proof.Machine

/-- The frequency table with one more occurrence of a byte value (R202). -/
def countByte (f : Vector Count 256) (b : Byte) : Vector Count 256 :=
  f.set b.toNat (f[b.toNat]'b.isLt + 1) b.isLt

/-- The frequency table with every byte of a chunk counted (R202). -/
def countBytes (f : Vector Count 256) (chunk : List Byte) : Vector Count 256 := chunk.foldl countByte f

/-- A consumed encoder: no data, every count 0 (10_state.md R28). -/
def Enc.spent : Enc := { Enc.fresh with consumed := true }

/-- The payload bits of one byte (R205): its code, or one 0 bit when the tree is a lone Leaf. -/
def symBits (t : FreqTree) (x : Byte) : List Bool :=
  match t with
  | .leaf _ _ => [false]
  | .composite _ _ _ => (codeOf t x).getD []

/-- The payload bits of the data (R204). -/
def payloadBits (t : FreqTree) (d : List Byte) : List Bool := d.flatMap (symBits t)

/-- The compressed buffer (30_encoding.md R90): `le32(tree_size) ++ le64(original_size) ++ tree ++ payload`. -/
def compressed (t : FreqTree) (d : List Byte) (total : Count) : List Byte :=
  let tb := pack (serialize t)
  leBytes 4 tb.length ++ leBytes 8 total.toNat ++ tb ++ pack (payloadBits t d)

/-- The body of ENC_NEW (R201). -/
def encNewBody (s : State) : State := (s.setEnc Enc.fresh).respond .ok 0 []

/-- The body of ENC_ADD_CHUNK (R202). -/
def encAddChunkBody (chunk : List Byte) (s : State) : State :=
  if s.enc.consumed then s.raise .eConsumed 0
  else if s.cfg.chunkCap < s.enc.total.toNat + chunk.length then s.raise .eCapacity 0
  else
    (s.setEnc
      { s.enc with
        data := s.enc.data ++ chunk
        freq := countBytes s.enc.freq chunk
        total := s.enc.total + BitVec.ofNat 64 chunk.length }).respond .ok 0 []

/-- The body of ENC_ENCODE (R203): the encoder is consumed whatever follows the E_CONSUMED check (R208). -/
def encEncodeBody (s : State) : State :=
  if s.enc.consumed then s.raise .eConsumed 0
  else
    match buildTree Config.tieBreak s.draws s.enc.freq.toList with
    | (none, k) => ((s.setEnc Enc.spent).setDraws k).raise .eEmpty 0
    | (some t, k) =>
      ((s.setEnc Enc.spent).setDraws k).respond .ok 0 (compressed t s.enc.data s.enc.total)

/-- ENC_NEW (R201). -/
def execEncNew (o : Operands) (s : State) : Host.Outcome State Fault Refusal :=
  checked (.encNew o) s encNewBody

/-- ENC_ADD_CHUNK (R202). -/
def execEncAddChunk (o : Operands) (s : State) : Host.Outcome State Fault Refusal :=
  checked (.encAddChunk o) s (encAddChunkBody o.payload)

/-- ENC_ENCODE (R203). -/
def execEncEncode (o : Operands) (s : State) : Host.Outcome State Fault Refusal :=
  checked (.encEncode o) s encEncodeBody

end Sys2Proof.Machine
end

