-- ==== Sys2Proof/Machine/TreeUnit.lean ====
section
/-! DEFINITION. The tree commands (43_tree.md R165, R168, R170, R173). -/

namespace Sys2Proof.Machine

/-- The body of TREE_BUILD (R165): a failing build leaves the store NONE. -/
def treeBuildBody (payload : List Byte) (s : State) : State :=
  match buildTree Config.tieBreak s.draws (tableCounts 256 payload) with
  | (none, k) => ((s.setTree none).setDraws k).raise .eEmpty 0
  | (some t, k) => ((s.setTree (some t)).setDraws k).respond .ok (resultWord (treeLeaves t)) []

/-- The body of TREE_SERIALIZE (R168). -/
def treeSerializeBody (s : State) : State :=
  match s.tree with
  | none => s.raise .eNoTree 0
  | some t => s.respond .ok (resultWord (serialize t).length) (pack (serialize t))

/-- The body of TREE_DESERIALIZE (R170): a failing parse leaves the store NONE; res is the bits the parse read. -/
def treeDeserializeBody (payload : List Byte) (s : State) : State :=
  match deserialize s.cfg.maxNodes payload with
  | .malformed => (s.setTree none).raise .eMalformedTree 0
  | .treeCapacity => (s.setTree none).raise .eTreeCapacity 0
  | .tree t rest _ => (s.setTree (some t)).respond .ok (resultWord (8 * payload.length - rest.length)) []

/-- The body of TREE_CODE_TABLE (R173). -/
def treeCodeTableBody (s : State) : State :=
  match s.tree with
  | none => s.raise .eNoTree 0
  | some t => s.respond .ok (resultWord (codedCount t)) (codeTable t)

/-- TREE_BUILD (R165). -/
def execTreeBuild (o : Operands) (s : State) : Host.Outcome State Fault Refusal :=
  checked (.treeBuild o) s (treeBuildBody o.payload)

/-- TREE_SERIALIZE (R168). -/
def execTreeSerialize (o : Operands) (s : State) : Host.Outcome State Fault Refusal :=
  checked (.treeSerialize o) s treeSerializeBody

/-- TREE_DESERIALIZE (R170). -/
def execTreeDeserialize (o : Operands) (s : State) : Host.Outcome State Fault Refusal :=
  checked (.treeDeserialize o) s (treeDeserializeBody o.payload)

/-- TREE_CODE_TABLE (R173). -/
def execTreeCodeTable (o : Operands) (s : State) : Host.Outcome State Fault Refusal :=
  checked (.treeCodeTable o) s treeCodeTableBody

end Sys2Proof.Machine
end

