-- ==== Sys2Proof/Machine/Dispatch.lean ====
section
/-! DEFINITION. The meaning of every command: one arm per constructor of Instr. -/

namespace Sys2Proof.Machine

def exec (i : Instr) (s : State) : Host.Outcome State Fault Refusal :=
  match i with
  | .csrRead o => Sys2Proof.Machine.execCsrRead o s
  | .srcOpen o => Sys2Proof.Machine.execSrcOpen o s
  | .srcNextBit o => Sys2Proof.Machine.execSrcNextBit o s
  | .srcNextByte o => Sys2Proof.Machine.execSrcNextByte o s
  | .srcTakeUnconsumed o => Sys2Proof.Machine.execSrcTakeUnconsumed o s
  | .snkOpen o => Sys2Proof.Machine.execSnkOpen o s
  | .snkWriteBit o => Sys2Proof.Machine.execSnkWriteBit o s
  | .snkWriteByte o => Sys2Proof.Machine.execSnkWriteByte o s
  | .snkFlush o => Sys2Proof.Machine.execSnkFlush o s
  | .snkSetThreshold o => Sys2Proof.Machine.execSnkSetThreshold o s
  | .snkClose o => Sys2Proof.Machine.execSnkClose o s
  | .treeBuild o => Sys2Proof.Machine.execTreeBuild o s
  | .treeSerialize o => Sys2Proof.Machine.execTreeSerialize o s
  | .treeDeserialize o => Sys2Proof.Machine.execTreeDeserialize o s
  | .treeCodeTable o => Sys2Proof.Machine.execTreeCodeTable o s
  | .encNew o => Sys2Proof.Machine.execEncNew o s
  | .encAddChunk o => Sys2Proof.Machine.execEncAddChunk o s
  | .encEncode o => Sys2Proof.Machine.execEncEncode o s
  | .decDecode o => Sys2Proof.Machine.execDecDecode o s

end Sys2Proof.Machine
end

