-- ==== Sys2Proof/Machine/Resume.lean ====
section
/-! DEFINITION. What a step does around a command's meaning: it runs an accepted packet, answering one that selects no
command (30_encoding.md R79, R80), and a BUSY engine takes the answer its command waits for and goes on (10_state.md R40,
20_memory.md R65). -/

namespace Sys2Proof.Machine

/-- The status a packet that selects no command ends with: E_ILLEGAL_CMD, whatever the reason (R79, R80). -/
def rejectStatus : DecodeError → Status
  | .reservedBits => .eIllegalCmd
  | .unknownOpcode => .eIllegalCmd
  | .shortPacket => .eIllegalCmd

/-- Answer a packet that selects no command (R79, R80): no state changes. -/
def State.reject (s : State) (e : DecodeError) : State := s.raise (rejectStatus e) 0

/-- Run an accepted packet: the command it selects, or the answer to one that selects none (R70, R79, R80, R82). -/
def State.runPacket (s : State) (p : Packet) : Host.Outcome State Fault Refusal :=
  match decode p with
  | .ok i => exec i s
  | .error e => .next (s.reject e)

/-- Continue the running command: run a packet that was only accepted; otherwise go on with the port answers at hand. With
none, the command goes on waiting and nothing changes (R65, R358). -/
def State.resume (s : State) : Job → Host.Outcome State Fault Refusal
  | .started p => s.runPacket p
  | .srcNextBit => .next (nextBitEnd s.refillBit)
  | .srcNextByte left v => .next (nextByteFrom left v s.refillBit)
  | .snkWriteBit bit => .next (writeBitEnd bit (putAfterWrite s.portWrite))
  | .snkWriteByte byte done =>
    .next (writeByteFrom byte ((byteBits byte).drop (done + 1)) done (putAfterWrite s.portWrite))
  | .snkFirstDrain f => .next (flushFirstEnd f s.portWrite)
  | .snkSecondDrain f written => .next (flushSecondEnd f written s.portWrite)

end Sys2Proof.Machine
end

