-- ==== Sys2Proof/Machine/Step.lean ====
section
/-! DEFINITION. One step of the machine: reset first, then the running command of a BUSY engine, then the next packet
of the command channel. An engine that is IDLE with no packet, or BUSY with no answer, stays as it is. -/

namespace Sys2Proof.Machine

/-- One step (10_state.md R40, 60_exceptions.md R309, 20_memory.md R55). -/
def step (s : State) : Host.Outcome State Fault Refusal :=
  if s.rst then .next s.hardReset
  else
    match s.eng with
    | .busy j => s.resume j
    | .idle =>
      match s.accept with
      | none => .next s
      | some (p, t) => t.runPacket p

/-- `s` with the instruction whose bits are `w` where the next step accepts it: as the next packet of the command
channel (log entry 6 says how a program comes to run). -/
def State.withFetchWord (s : State) (nbits w : Nat) : State :=
  match Packet.ofBytes (tablePacketBytes nbits w) with
  | some p => s.place p
  | none => s

end Sys2Proof.Machine
end

