-- ==== Sys2Proof/Machine/Observe.lean ====
section
/-! DEFINITION. The outside of the block: the moves the host and the endpoints may make between steps
(70_reset_and_hazards.md R364), what is observed of a run (R363), and the bit sequences the two bit stream units hold
(10_state.md R24, R26). -/

namespace Sys2Proof.Machine

/-! ### Moves of the outside (R364) -/

/-- The host hands over a packet (R364, 30_encoding.md R70). While the engine is BUSY the channel holds it back
(R357). -/
def State.send (s : State) (p : Packet) : State := { s with cmds := s.cmds ++ [p] }

/-- The port I endpoint gives its next answer (R352). It answers requests in their order, so an answer it owes to a request
a reset abandoned comes first, and that one is discarded (R340; log entry 7). -/
def State.answerI (s : State) (a : PortIAnswer) : State :=
  if 0 < s.lateI then { s with lateI := s.lateI - 1 } else { s with portI := s.portI ++ [a] }

/-- The port O endpoint gives its next answer (R352); one to a write a reset abandoned is discarded (R340; log entry 7). -/
def State.answerO (s : State) (a : PortOAnswer) : State :=
  if 0 < s.lateO then { s with lateO := s.lateO - 1 } else { s with portO := s.portO ++ [a] }

/-- The port I endpoint will give no answer to the requests a reset abandoned (R340; log entry 7). -/
def State.forgetI (s : State) : State := { s with lateI := 0 }

/-- The port O endpoint will give no answer to the writes a reset abandoned (R340; log entry 7). -/
def State.forgetO (s : State) : State := { s with lateO := 0 }

/-- The endpoints give more answers to requests no reset abandoned, after those at hand (R352). -/
def State.withAnswers (s : State) (as : List PortIAnswer) (bs : List PortOAnswer) : State :=
  { s with portI := s.portI ++ as, portO := s.portO ++ bs }

/-- The host asserts reset (R340). -/
def State.assertReset (s : State) : State := { s with rst := true }

/-! ### Observation (R363) -/

/-- The bytes port O took in one transaction: those of a write answered Ok. Of a write that failed or was abandoned
nothing is claimed (20_memory.md R52, 93_implementation_defined.md I6). -/
def bytesTaken : PortEvent → List Byte
  | .write b .ok => b
  | _ => []

/-- The bytes the port O endpoint has taken, in order (R363). -/
def portOTaken (tr : List PortEvent) : List Byte := tr.flatMap bytesTaken

/-- The bytes the port I endpoint has given to completed reads, in order. -/
def bytesGiven : PortEvent → List Byte
  | .read _ (.bytes b) => b
  | _ => []

/-- The bytes BSRC has taken from the port I endpoint, in order. -/
def portIGiven (tr : List PortEvent) : List Byte := tr.flatMap bytesGiven

/-- The transactions of a refill whose reads are answered by the given byte sequences: each asks for exactly the bytes
still missing (41_bitsource.md R102). -/
def readEvents : Nat → List (List Byte) → List PortEvent
  | _, [] => []
  | missing, c :: cs => .read missing (.bytes c) :: readEvents (missing - c.length) cs

/-- A run of the packets handed over has ended: IDLE, none left, no port request outstanding (R363). DESIGN CHOICE (log
entry 12): R363 speaks of the response to the last command and not of a last command that a reset abandoned; here such a
run has ended too, since no response will come. -/
def State.ended (s : State) : Bool := s.eng == .idle && s.cmds.isEmpty && s.outstanding.isNone

/-! ### What the bit stream units hold -/

/-- The buffered, not yet consumed bits of the source, in stream order (10_state.md R24). -/
def sourceBits (b : Bsrc) : List Bool := (unpack b.buf).drop (8 * b.rpos + b.bpos.toNat)

/-- The `nbits` low bits of `acc`, most significant first (10_state.md R26). -/
def pendingBits (k : Bsnk) : List Bool := (byteBits k.acc).drop (8 - k.nbits.toNat)

/-- The bits the sink holds and has not written (10_state.md R26). -/
def sinkBits (k : Bsnk) : List Bool := unpack k.buf ++ pendingBits k

/-- Every bit written to port O or still held by the sink, in order (42_bitsink.md R145). -/
def State.sinkStream (s : State) : List Bool := unpack (portOTaken s.trace) ++ sinkBits s.bsnk

end Sys2Proof.Machine
end

