-- ==== Sys2Proof/Safety.lean ====
section
/-! DEFINITION. Legal states: the invariants of 10_state.md R24, R26, R28 and R30, the legal values of every field (R23,
R25, R27), and what a waiting command keeps true. Every claim that needs a legal state takes `Inv` as a premise. -/

namespace Sys2Proof.Machine

/-- The legal values and invariants of BSRC (R23, R24). -/
structure BsrcInv (c : Config) (b : Bsrc) : Prop where
  batch_pos : 1 ≤ b.batch.toNat
  batch_le : b.batch.toNat ≤ c.srcBufCap
  buf_le : b.buf.length ≤ b.batch.toNat
  pos : b.rpos < b.buf.length ∨ (b.rpos = b.buf.length ∧ b.bpos = 0)
  closed : b.isOpen = false → b.buf = [] ∧ b.rpos = 0 ∧ b.bpos = 0

/-- The legal values and invariants of BSNK (R25, R26). -/
structure BsnkInv (c : Config) (k : Bsnk) : Prop where
  thresh_le : k.thresh.toNat ≤ c.snkBufCap
  acc_lt : k.acc.toNat < 2 ^ k.nbits.toNat
  buf_le : k.buf.length ≤ c.snkBufCap
  closed : k.isOpen = false → k.acc = 0 ∧ k.nbits = 0 ∧ k.buf = []

/-- The invariants of ENC (R27, R28). -/
structure EncInv (c : Config) (e : Enc) : Prop where
  counts : ∀ b : Byte, (e.freq[b.toNat]'b.isLt).toNat = e.data.count b
  total : e.total.toNat = e.data.length
  cap : e.data.length ≤ c.chunkCap
  spent : e.consumed = true → e.data = []

/-- Every Composite holds the sum of its children's weights (R161). -/
def WeightsSum : FreqTree → Prop
  | .leaf _ _ => True
  | .composite w l r => w.toNat = (treeWeight l).toNat + (treeWeight r).toNat ∧ WeightsSum l ∧ WeightsSum r

/-- A tree a build made (R30, R161): no two Leaves hold the same byte value, no Leaf has weight 0, and every Composite
holds the sum of its children's weights. -/
structure BuiltTree (t : FreqTree) : Prop where
  distinct : ((treeLeafList t).map (·.1)).Nodup
  counted : ∀ e ∈ treeLeafList t, e.2 ≠ 0
  sums : WeightsSum t

/-- From the collection `q` the merge loop can end with the root `t` (43_tree.md R162): while two nodes are left, a node
`x` of least weight and then one `y` of least weight among the rest are popped, in this order the children of a Composite
of the sum of their weights, which is put back. -/
inductive MergesTo : List FreqTree → FreqTree → Prop
  | root (t : FreqTree) : MergesTo [t] t
  | merge {q r : List FreqTree} {x y t : FreqTree} : q.Perm (x :: y :: r) →
      (∀ z ∈ y :: r, (treeWeight x).toNat ≤ (treeWeight z).toNat) →
      (∀ z ∈ r, (treeWeight y).toNat ≤ (treeWeight z).toNat) →
      MergesTo (.composite (treeWeight x + treeWeight y) x y :: r) t → MergesTo q t

/-- The invariants of the tree store (R29, R30): at most MAX_NODES nodes; the tree was built, or parsed with every weight
0. It is full by its type. -/
def TreeInv (c : Config) (t : Option FreqTree) : Prop :=
  ∀ u, t = some u → treeNodes u ≤ c.maxNodes ∧ (BuiltTree u ∨ zeroWeights u = u)

/-- A command that waits for port I (R102): the source is open, inside a refill, and bytes are missing. -/
def RefillWaits (b : Bsrc) : Prop :=
  b.isOpen = true ∧ b.rpos = 0 ∧ b.bpos = 0 ∧ b.buf.length < b.batch.toNat

/-- A command that waits for port O (R134): the sink is open and has bytes to write. -/
def WriteWaits (k : Bsnk) : Prop := k.isOpen = true ∧ k.buf ≠ []

/-- The threshold a finalizing command will set is legal. -/
def FinalizeOk (c : Config) : Finalize → Prop
  | .flush => True
  | .reopen t => t.toNat ≤ c.snkBufCap
  | .close => True

/-- What a BUSY engine's command keeps true while it waits (R40, R41). -/
def EngInv (s : State) : Prop :=
  match s.eng with
  | .idle => True
  | .busy (.started _) => True
  | .busy .srcNextBit => RefillWaits s.bsrc
  | .busy (.srcNextByte left v) => RefillWaits s.bsrc ∧ left ≤ 7 ∧ v.toNat < 2 ^ (7 - left)
  | .busy (.snkWriteBit _) => WriteWaits s.bsnk ∧ s.bsnk.nbits = 0
  | .busy (.snkWriteByte _ done) => WriteWaits s.bsnk ∧ s.bsnk.nbits = 0 ∧ done ≤ 7
  | .busy (.snkFirstDrain f) => WriteWaits s.bsnk ∧ FinalizeOk s.cfg f
  | .busy (.snkSecondDrain f _) => WriteWaits s.bsnk ∧ s.bsnk.nbits = 0 ∧ FinalizeOk s.cfg f

/-- Legal parameters, and every unit in a legal state. -/
structure Units (s : State) : Prop where
  cfg : s.cfg.Legal
  bsrc : BsrcInv s.cfg s.bsrc
  bsnk : BsnkInv s.cfg s.bsnk
  enc : EncInv s.cfg s.enc
  tree : TreeInv s.cfg s.tree

/-- A legal state of the machine. -/
structure Inv (s : State) : Prop where
  units : Units s
  eng : EngInv s

end Sys2Proof.Machine
end

