-- ==== Sys2Proof/Certificates/Slice0/Obligations.lean ====
section
/-! DEFINITION. The statements for the provers, from the numbered rules of spec/. A next state is written out field by
field, with status words as the numbers of 60_exceptions.md R302, so that a statement does not rest on the names of the
model's operations. -/

section Claims

open Sys2Proof Sys2Proof.Machine

namespace Sys2Proof.Claims

/-- The commands whose IMM8 is used (30_encoding.md R73). -/
def usesImm : Instr → Prop
  | .csrRead _ | .snkWriteBit _ | .snkWriteByte _ => True
  | _ => False

/-- The commands whose ARG is a parameter (30_encoding.md R73). -/
def usesParam : Instr → Prop
  | .srcOpen _ | .snkOpen _ | .snkSetThreshold _ => True
  | _ => False

/-- The commands whose ARG is the length of the payload (30_encoding.md R73). -/
def usesLen : Instr → Prop
  | .treeBuild _ | .treeDeserialize _ | .encAddChunk _ | .decDecode _ => True
  | _ => False

/-- IMM8 or ARG is outside the range of 30_encoding.md R73, as R81 lists it. -/
def outOfRange (c : Config) : Instr → Prop
  | .snkWriteBit o => 1 < o.imm.toNat
  | .srcOpen o => o.arg.toNat = 0 ∨ c.srcBufCap < o.arg.toNat
  | .snkOpen o | .snkSetThreshold o => c.snkBufCap < o.arg.toNat
  | .treeBuild o => o.arg.toNat ≠ 2048
  | .csrRead o => (0x0C < o.imm.toNat ∧ o.imm.toNat < 0x10) ∨ 0x16 < o.imm.toNat
  | _ => False

/-- One of the operand checks of 30_encoding.md R81 fails. -/
def badOperand (c : Config) (i : Instr) : Prop :=
  (¬usesImm i ∧ i.operands.imm ≠ 0) ∨ (¬usesParam i ∧ ¬usesLen i ∧ i.operands.arg ≠ 0) ∨
    (¬usesLen i ∧ i.operands.payload ≠ []) ∨ (usesLen i ∧ i.operands.payload.length ≠ i.operands.arg.toNat) ∨
    outOfRange c i

/-- The opcodes of 30_encoding.md R78. -/
def opcodes : List Nat :=
  [0x01, 0x10, 0x11, 0x12, 0x13, 0x20, 0x21, 0x22, 0x23, 0x24, 0x25, 0x30, 0x31, 0x32, 0x33, 0x40, 0x41, 0x42, 0x50]

/-- The status codes of 60_exceptions.md R302. -/
def codes : List Nat := [0x00, 0x01, 0x10, 0x11, 0x12, 0x13, 0x14, 0x20, 0x21, 0x22, 0x23, 0x24, 0x25]

/-- The port a command waits for has no answer. -/
def noAnswer (s : State) : Job → Prop
  | .started _ => False
  | .srcNextBit | .srcNextByte _ _ => s.portI = []
  | .snkWriteBit _ | .snkWriteByte _ _ | .snkFirstDrain _ | .snkSecondDrain _ _ => s.portO = []

/-- The command a step runs, if any: the one of the packet it accepts, or the one of a BUSY engine. -/
def current (s : State) : Option Instr :=
  match s.eng with
  | .idle => s.cmds.head?.bind fun p => (decode p).toOption
  | .busy j => jobCommand j

/-- The command waits for port I. -/
def readsBits : Job → Prop
  | .srcNextBit | .srcNextByte _ _ => True
  | _ => False

/-- The command waits for port O. -/
def writesBits : Job → Prop
  | .snkWriteBit _ | .snkWriteByte _ _ | .snkFirstDrain _ | .snkSecondDrain _ _ => True
  | _ => False

/-- `s` with one more response delivered and the engine IDLE. -/
def answered (s : State) (status res : Word) (payload : List Byte) : State :=
  { s with eng := .idle, resps := s.resps ++ [⟨status, res, payload⟩] }

/-- `out` is what SNK_FLUSH, SNK_OPEN or SNK_CLOSE of an open legal sink makes of `s`, run now, or going on from the first
write of its Flush (42_bitsink.md R135, R138, R140, R141), where it waits with bytes to write. -/
def flushRun (f : Finalize) (s : State) (out : Host.Outcome State Fault Refusal) : Prop :=
  BsnkInv s.cfg s.bsnk ∧ 1 ≤ s.cfg.snkBufCap ∧
    ((out = exec (finalizeCommand f) s ∧ s.bsnk.isOpen = true ∧ ∀ t, f = .reopen t → t.toNat ≤ s.cfg.snkBufCap) ∨
     (out = step s ∧ s.rst = false ∧ s.eng = .busy (.snkFirstDrain f) ∧ s.bsnk.buf ≠ [] ∧
       (s.bsnk.nbits = 0 ∨ s.bsnk.buf.length = s.cfg.snkBufCap)))

/-- A pending partial byte has room in the buffer, so one write takes all (R135). -/
def oneWrite (s : State) : Prop := s.bsnk.nbits = 0 ∨ s.bsnk.buf.length < s.cfg.snkBufCap

/-- A pending partial byte has no room: the buffer is written first, the padded byte after it (R135). -/
def twoWrites (s : State) : Prop := s.bsnk.nbits ≠ 0 ∧ s.bsnk.buf.length = s.cfg.snkBufCap

/-- The sink a finalizing command leaves on success (R138, R140, R141). -/
def finalized (k : Bsnk) : Finalize → Bsnk
  | .flush => { k with acc := 0, nbits := 0, buf := [] }
  | .reopen t => ⟨true, t, 0, 0, []⟩
  | .close => ⟨false, k.thresh, 0, 0, []⟩

/-- `out` is what SRC_NEXT_BIT makes of `s` where it needs a refill, and `had` the bytes the refill holds already: none
where the command is run now with an exhausted buffer, those of the buffer where it goes on from waiting (41_bitsource.md
R102, R107). -/
def bitRun (had : List Byte) (s : State) (out : Host.Outcome State Fault Refusal) : Prop :=
  (out = exec (.srcNextBit Operands.none) s ∧ s.bsrc.isOpen = true ∧ s.bsrc.buf.length ≤ s.bsrc.rpos ∧ had = []) ∨
  (out = step s ∧ s.rst = false ∧ s.eng = .busy .srcNextBit ∧ s.bsrc.rpos = 0 ∧ s.bsrc.bpos = 0 ∧ had = s.bsrc.buf)

/-- The same for the refill of an SRC_NEXT_BYTE that has read the bits `pre` before it (41_bitsource.md R108). -/
def byteRun (pre : List Bool) (had : List Byte) (s : State) (out : Host.Outcome State Fault Refusal) : Prop :=
  (out = exec (.srcNextByte Operands.none) s ∧ s.bsrc.isOpen = true ∧ pre = sourceBits s.bsrc ∧ had = []) ∨
  (out = step s ∧ s.rst = false ∧
    s.eng = .busy (.srcNextByte (7 - pre.length) (BitVec.ofNat 8 (bitsToNat pre.length pre))) ∧
    s.bsrc.rpos = 0 ∧ s.bsrc.bpos = 0 ∧ had = s.bsrc.buf)

/-- The count of byte value `b` in a frequency-table payload (30_encoding.md R91): `from_le64(payload[8b .. 8b+8])`. -/
def tableCount (payload : List Byte) (b : Nat) : Nat := fromLe ((payload.drop (8 * b)).take 8)

/-- The collection a build starts from (43_tree.md R161): one Leaf per byte value with a nonzero count. -/
def leavesOf (count : Nat → Nat) : List FreqTree :=
  (List.range 256).filterMap fun b =>
    if count b = 0 then none else some (.leaf (BitVec.ofNat 8 b) (BitVec.ofNat 72 (count b)))

/-- The bits a node itself takes in the serialized form (43_tree.md R166): the tag of a Composite, or the tag and the byte
of a Leaf. -/
def nodeBits : Option Byte → List Bool
  | none => [false]
  | some b => true :: byteBits b

/-- Nodes in pre-order that make no whole tree yet: no initial part of them has more Leaves than Composites. -/
def unfinished (ns : List (Option Byte)) : Prop := ∀ us, us <+: ns → us.countP (·.isSome) ≤ us.count none

/-- The path `p` comes before `q` in pre-order: at the first place they differ, `p` goes left. -/
def before (p q : List Bool) : Prop := ∃ r p' q', p = r ++ false :: p' ∧ q = r ++ true :: q'

/-- The bits the encoder writes for one byte (44_encoder.md R205). -/
def symbolBits : FreqTree → Byte → List Bool
  | .leaf _ _, _ => [false]
  | t, x => (codeOf t x).getD []

/-- The compressed buffer of 30_encoding.md R90. -/
def buffer (t : FreqTree) (d : List Byte) : List Byte :=
  leBytes 4 (pack (serialize t)).length ++ leBytes 8 d.length ++ pack (serialize t) ++ pack (d.flatMap (symbolBits t))

/-- `tree_size`, `original_size`, the tree slice and the payload of a buffer (45_decoder.md R232 to R234). -/
def treeSize (b : List Byte) : Nat := fromLe (b.take 4)
def originalSize (b : List Byte) : Nat := fromLe ((b.drop 4).take 8)
def treeSlice (b : List Byte) : List Byte := (b.drop 12).take (treeSize b)
def payloadOf (b : List Byte) : List Byte := b.drop (12 + treeSize b)

/-- The number 0 or 1 of a bit. -/
def num (b : Bool) : Nat := if b then 1 else 0

end Sys2Proof.Claims

open Sys2Proof.Claims

/-! ### Encoding and decoding (30_encoding.md) -/

/-- Decoding the bytes of an encoded command gives the command back, with every operand at every value (R70 to R72, R78,
R84). -/
def Obligations.DecodeOfEncodeIsIdentity : Prop :=
  ∀ i : Instr, decodeBytes (encodeBytes i) = .ok i

/-- A packet that decodes is the encoding of the command it decodes to: no bit of a packet is dropped (R71, R72, R78). -/
def Obligations.EncodeOfDecodedPacket : Prop :=
  ∀ (p : Packet) (i : Instr), decode p = .ok i → encode i = p

/-- Packets written out byte by byte from R70, R71, R78 and 95_test_vectors.md decode to what they stand for. -/
def Obligations.SpecWordsDecode : Prop :=
  decodeBytes [0x01, 0x16, 0x00, 0x00, 0x00, 0x00, 0x00, 0x00] = .ok (.csrRead ⟨0x16, 0, []⟩) ∧
  decodeBytes [0x10, 0x00, 0x00, 0x00, 0x04, 0x00, 0x00, 0x00] = .ok (.srcOpen ⟨0, 4, []⟩) ∧
  decodeBytes [0x22, 0xFF, 0x00, 0x00, 0x00, 0x00, 0x00, 0x00] = .ok (.snkWriteByte ⟨0xFF, 0, []⟩) ∧
  decodeBytes [0x32, 0x00, 0x00, 0x00, 0x03, 0x00, 0x00, 0x00, 0x58, 0x6C, 0x40] =
    .ok (.treeDeserialize ⟨0, 3, [0x58, 0x6C, 0x40]⟩) ∧
  decodeBytes [0x41, 0x00, 0x00, 0x00, 0x01, 0x00, 0x00, 0x00, 0x7A] = .ok (.encAddChunk ⟨0, 1, [0x7A]⟩) ∧
  decodeBytes [0x50, 0x00, 0x00, 0x00, 0x16, 0x00, 0x00, 0x00] = .ok (.decDecode ⟨0, 0x16, []⟩) ∧
  decodeBytes [0x40, 0x00, 0x01, 0x00, 0x00, 0x00, 0x00, 0x00] = .error .reservedBits ∧
  decodeBytes [0x60, 0x00, 0x00, 0x00, 0x00, 0x00, 0x00, 0x00] = .error .unknownOpcode

/-- R80: a packet with a nonzero reserved bit ends with E_ILLEGAL_CMD and changes no state, whatever its OPC. -/
def Obligations.ReservedBitsAreIllegal : Prop :=
  ∀ (s : State) (p : Packet) (ps : List Packet), s.rst = false → s.eng = .idle → s.cmds = p :: ps →
    p.w0.extractLsb' 16 16 ≠ 0 →
    step s = .next { s with cmds := ps, resps := s.resps ++ [⟨0x10, 0, []⟩] }

/-- R79: a packet whose OPC is not in the map ends with E_ILLEGAL_CMD and changes no state. -/
def Obligations.UnknownOpcodesAreIllegal : Prop :=
  ∀ (s : State) (p : Packet) (ps : List Packet), s.rst = false → s.eng = .idle → s.cmds = p :: ps →
    (p.w0.extractLsb' 0 8).toNat ∉ opcodes →
    step s = .next { s with cmds := ps, resps := s.resps ++ [⟨0x10, 0, []⟩] }

/-- R74: the length of a command is told from OPC and ARG alone: `8 + ARG` bytes for a command of ARG class `len`, 8 for
every other. -/
def Obligations.LengthFromOpcodeAndArg : Prop :=
  ∀ (c : Config) (i : Instr), WellFormed c i = true →
    (encodeBytes i).length = commandLength (encode i).w0 (encode i).w1 ∧
    (usesLen i → (encodeBytes i).length = 8 + (encode i).w1.toNat) ∧
    (¬usesLen i → (encodeBytes i).length = 8)

/-- A step of an IDLE engine runs the decoded command at the state without the packet it accepted (R70, R82; 10_state.md
R40), and so does a step of an engine that has only accepted it (log entry 5). How a packet comes to the channel is log
entry 6. -/
def Obligations.StepRunsDecodedCommand : Prop :=
  (∀ (s : State) (p : Packet) (ps : List Packet) (i : Instr), s.rst = false → s.eng = .idle → s.cmds = p :: ps →
    decode p = .ok i → step s = exec i { s with cmds := ps } ∧ step s.start = step s) ∧
  (∀ (s : State) (p : Packet) (i : Instr), s.rst = false → s.eng = .busy (.started p) → decode p = .ok i →
    step s = exec i s)

/-- The machine's operand check, written from the list of R81, passes exactly the commands the table of R73 allows. -/
def Obligations.OperandCheckIsWellFormed : Prop :=
  ∀ (c : Config) (i : Instr), operandError c (operandClass i) i.operands = none ↔ WellFormed c i = true

/-- R81: a failing operand check ends the command with E_ILLEGAL_ARG; one of ARG class `len` that passes them with ARG
above CMD_PAYLOAD_MAX ends with E_CAPACITY; neither changes any state. -/
def Obligations.OperandErrorsEndTheCommand : Prop :=
  ∀ (i : Instr) (s : State),
    (badOperand s.cfg i → exec i s = .next (answered s 0x11 0 [])) ∧
    (¬badOperand s.cfg i → usesLen i → s.cfg.cmdPayloadMax < i.operands.arg.toNat →
      exec i s = .next (answered s 0x24 0 []))

/-- 30_encoding.md R75, 20_memory.md R53: a response on the wire is its status word and its result word, each with the
least significant byte first, and then its payload; the first byte is CODE (R76), and the bytes give the response back. -/
def Obligations.ResponseWireForm : Prop :=
  ∀ r : Response,
    responseBytes r =
      [r.status.extractLsb' 0 8, r.status.extractLsb' 8 8, r.status.extractLsb' 16 8, r.status.extractLsb' 24 8,
       r.res.extractLsb' 0 8, r.res.extractLsb' 8 8, r.res.extractLsb' 16 8, r.res.extractLsb' 24 8] ++ r.payload ∧
    responseOfBytes (responseBytes r) = some r

/-! ### The engine, reset, and the whole machine -/

/-- 20_memory.md R65: a command whose port request is not answered has no move: the block stays as it is, BUSY and not
faulted; an answer makes it go on, and it then does what it would have done had the answers been at hand from the start, so
every statement of a command's outcome is one of its outcome after waiting. (The answers are a list of the state, and
waiting is a step that changes nothing: log entries 2 and 5.) -/
def Obligations.WaitingCommandHasNoMove : Prop :=
  (∀ (s : State) (j : Job), s.rst = false → s.eng = .busy j →
    (noAnswer s j → step s = .next s) ∧
    (readsBits j ∨ writesBits j → ¬noAnswer s j → ∃ t e es, step s = .next t ∧ t.trace = s.trace ++ e :: es)) ∧
  (∀ (i : Instr) (s t : State) (j : Job) (as : List PortIAnswer) (bs : List PortOAnswer), s.rst = false →
    exec i s = .next t → t.eng = .busy j → step (t.withAnswers as bs) = exec i (s.withAnswers as bs)) ∧
  (∀ (s t : State) (j : Job) (as : List PortIAnswer) (bs : List PortOAnswer), s.rst = false →
    step s = .next t → t.eng = .busy j → step (t.withAnswers as bs) = step (s.withAnswers as bs))

/-- 10_state.md R40, 30_encoding.md R75: a command that is run ends with exactly one response and the engine IDLE, or
leaves the engine BUSY with that command and delivers nothing yet (a step ends only there: log entry 5). -/
def Obligations.CommandAnswersOnceOrWaits : Prop :=
  ∀ (i : Instr) (s t : State), exec i s = .next t →
    (t.eng = .idle ∧ ∃ r, t.resps = s.resps ++ [r]) ∨
    (∃ j, t.eng = .busy j ∧ (readsBits j ∨ writesBits j) ∧ jobCommand j = some i ∧ t.resps = s.resps)

/-- 10_state.md R40, 30_encoding.md R75: a BUSY engine accepts no packet and returns to IDLE only by delivering the one
response of the command it was executing. Its frame is that of the command (41_bitsource.md R100, 42_bitsink.md R130): one
that waits for port I touches only BSRC and port I, one that waits for port O only BSNK and port O. -/
def Obligations.BusyEngineFinishesItsCommand : Prop :=
  ∀ (s t : State) (j : Job), s.rst = false → s.eng = .busy j → step s = .next t →
    t.cmds = s.cmds ∧
    ((t.eng = .idle ∧ ∃ r, t.resps = s.resps ++ [r]) ∨
     (∃ k, t.eng = .busy k ∧ jobCommand k = jobCommand j ∧ t.resps = s.resps)) ∧
    (readsBits j →
      t.cfg = s.cfg ∧ t.bsnk = s.bsnk ∧ t.enc = s.enc ∧ t.tree = s.tree ∧ t.rst = s.rst ∧ t.portO = s.portO ∧
      t.lateI = s.lateI ∧ t.lateO = s.lateO ∧ t.draws = s.draws ∧ portOTaken t.trace = portOTaken s.trace ∧
      t.bsrc.isOpen = s.bsrc.isOpen ∧ t.bsrc.batch = s.bsrc.batch) ∧
    (writesBits j →
      t.cfg = s.cfg ∧ t.bsrc = s.bsrc ∧ t.enc = s.enc ∧ t.tree = s.tree ∧ t.rst = s.rst ∧ t.portI = s.portI ∧
      t.lateI = s.lateI ∧ t.lateO = s.lateO ∧ t.draws = s.draws ∧ portIGiven t.trace = portIGiven s.trace ∧
      ((∀ o, jobCommand j ≠ some (.snkOpen o)) → t.bsnk.thresh = s.bsnk.thresh) ∧
      ((∀ o, jobCommand j ≠ some (.snkOpen o) ∧ jobCommand j ≠ some (.snkClose o)) → t.bsnk.isOpen = s.bsnk.isOpen))

/-- The fields of a status word (30_encoding.md R76, R75; 60_exceptions.md R302), in every response a step delivers, to a
packet it accepts, selecting a command or not, or for the command of a BUSY engine: CODE is one of the table, bits 31..9 are
0, TRUNC is 1 only for a DEC_DECODE that ends OK, and an error has an empty payload. -/
def Obligations.StatusWordFields : Prop :=
  let fields := fun (i : Option Instr) (r : Response) =>
    (r.status.extractLsb' 0 8).toNat ∈ codes ∧ r.status.extractLsb' 9 23 = 0 ∧
    (r.status.getLsbD 8 = true → r.status.extractLsb' 0 8 = 0 ∧ ∃ o, i = some (.decDecode o)) ∧
    (0x10 ≤ (r.status.extractLsb' 0 8).toNat → r.payload = [])
  (∀ (i : Instr) (s t : State) (r : Response), exec i s = .next t → t.resps = s.resps ++ [r] → fields (some i) r) ∧
  (∀ (s t : State) (r : Response), step s = .next t → t.resps = s.resps ++ [r] → fields (current s) r)

/-- 70_reset_and_hazards.md R341: every state field has its reset value, and the CSRs then read as listed; the
parameters are the reference ones (log entry 1). -/
def Obligations.ResetValues : Prop :=
  State.reset.eng = .idle ∧ State.reset.bsrc = ⟨true, 128, [], 0, 0⟩ ∧ State.reset.bsnk = ⟨true, 128, 0, 0, []⟩ ∧
  State.reset.enc.consumed = false ∧ State.reset.enc.data = [] ∧ State.reset.enc.total = 0 ∧
  (∀ b : Byte, State.reset.enc.freq[b.toNat]'b.isLt = 0) ∧ State.reset.tree = none ∧
  csrValue State.reset .srcBatch = 128 ∧ csrValue State.reset .srcStat = 1 ∧ csrValue State.reset .srcAvail = 0 ∧
  csrValue State.reset .snkThresh = 128 ∧ csrValue State.reset .snkStat = 1 ∧ csrValue State.reset .snkLevel = 0 ∧
  csrValue State.reset .encStat = 0 ∧ csrValue State.reset .encTotalLo = 0 ∧ csrValue State.reset .encTotalHi = 0 ∧
  csrValue State.reset .encSyms = 0 ∧ csrValue State.reset .treeStat = 0 ∧ csrValue State.reset .treeNodes = 0 ∧
  csrValue State.reset .treeLeaves = 0

/-- 70_reset_and_hazards.md R340, R342, 42_bitsink.md R146: reset takes priority, gives every field its reset value,
abandons the running command without a response, and makes no port transaction. (Three things are the model's choice and
no rule's: what reset does with the channel and with an answer already given, log entry 7; that it is one pulse, so that the
input is not asserted after it, log entry 6; and that it keeps the draw counter, log entry 3.) -/
def Obligations.ResetAbandonsEverything : Prop :=
  ∀ s : State, s.rst = true →
    ∃ t, step s = .next t ∧ t.eng = .idle ∧
      t.bsrc = ⟨true, BitVec.ofNat 32 s.cfg.srcBatchReset, [], 0, 0⟩ ∧
      t.bsnk = ⟨true, BitVec.ofNat 32 s.cfg.snkThreshReset, 0, 0, []⟩ ∧
      t.enc.consumed = false ∧ t.enc.data = [] ∧ t.enc.total = 0 ∧ (∀ b : Byte, t.enc.freq[b.toNat]'b.isLt = 0) ∧
      t.tree = none ∧ t.rst = false ∧ t.resps = s.resps ∧ t.cmds = s.cmds ∧ t.cfg = s.cfg ∧ t.draws = s.draws ∧
      portOTaken t.trace = portOTaken s.trace ∧ portIGiven t.trace = portIGiven s.trace ∧
      (s.eng = .idle → t.trace = s.trace ∧ t.portI = s.portI ∧ t.portO = s.portO)

/-- 70_reset_and_hazards.md R340: the command a reset abandons gets no response, at whatever place it was: accepted and not
answered (log entry 5), or waiting for a port. The answer to its request is discarded, whether it was given already or
comes later, and no other answer is; nothing but a reset abandons a request. (That an endpoint answers in the order it was
asked is log entry 7.) -/
def Obligations.ResetAbandonsTheRequest : Prop :=
  (∀ (s : State) (p : Packet) (ps : List Packet), s.rst = false → s.eng = .idle → s.cmds = p :: ps →
    ∃ t, step s.start.assertReset = .next t ∧ t.eng = .idle ∧ t.resps = s.resps ∧ t.cmds = ps ∧ t.trace = s.trace ∧
      t.portI = s.portI ∧ t.portO = s.portO ∧ t.lateI = s.lateI ∧ t.lateO = s.lateO) ∧
  (∀ (s t : State) (j : Job) (a b : PortIAnswer) (as : List PortIAnswer), s.rst = true → s.eng = .busy j → readsBits j →
    step s = .next t →
    (s.portI = [] → t.portI = [] ∧ t.lateI = s.lateI + 1 ∧
      (s.lateI = 0 → ((t.answerI a).portI = [] ∧ ((t.answerI a).answerI b).portI = [b]))) ∧
    (s.portI = a :: as → (∀ c, a = .bytes c → c.length ≤ s.bsrc.batch.toNat - s.bsrc.buf.length) →
      t.portI = as ∧ t.lateI = s.lateI) ∧
    t.portO = s.portO ∧ t.lateO = s.lateO) ∧
  (∀ (s t : State) (j : Job) (a b : PortOAnswer) (as : List PortOAnswer), s.rst = true → s.eng = .busy j → writesBits j →
    step s = .next t →
    (s.portO = [] → t.portO = [] ∧ t.lateO = s.lateO + 1 ∧
      (s.lateO = 0 → ((t.answerO a).portO = [] ∧ ((t.answerO a).answerO b).portO = [b]))) ∧
    (s.portO = a :: as → t.portO = as ∧ t.lateO = s.lateO) ∧
    t.portI = s.portI ∧ t.lateI = s.lateI) ∧
  (∀ s t : State, s.rst = false → step s = .next t → t.lateI = s.lateI ∧ t.lateO = s.lateO)

/-- The state after reset is legal. -/
def Obligations.ResetIsLegal : Prop := Inv State.reset

/-- 10_state.md R24, R26, R28, R30: from every legal state a step gives a legal state: the invariants of the bit source,
the bit sink, the encoder and the tree store (R24, R26 and R28 are marked [derived] in the spec), and what a waiting
command keeps true (log entry 5). -/
def Obligations.StepKeepsLegalStates : Prop :=
  ∀ s t : State, Inv s → step s = .next t → Inv t

/-- Every step of every state gives a next state. That a failure stops nothing is 60_exceptions.md R300: there are no traps.
That a waiting command, to which 20_memory.md R65 gives no step, and an IDLE engine with no packet have a step that changes
nothing is the model's choice (log entry 5), and that nothing else stops the machine its deduction (log entry 9). -/
def Obligations.NoStepStops : Prop := ∀ s : State, ∃ t, step s = .next t

/-- 10_state.md R22, 20_memory.md R60: no step changes the parameters; responses and port transactions form one order
that only grows; reset is deasserted by the step that takes it (log entries 1, 3 and 6). -/
def Obligations.StepExtendsHistory : Prop :=
  ∀ s t : State, step s = .next t →
    t.cfg = s.cfg ∧ s.resps <+: t.resps ∧ s.trace <+: t.trace ∧ s.draws ≤ t.draws ∧ t.rst = false

/-! ### Bit source (41_bitsource.md) -/

/-- R106: SRC_OPEN. -/
def Obligations.SrcOpenOpensAFreshSource : Prop :=
  (∀ (s : State) (n : Word), 1 ≤ n.toNat → n.toNat ≤ s.cfg.srcBufCap →
    exec (.srcOpen (Operands.ofArg n)) s = .next { answered s 0 0 [] with bsrc := ⟨true, n, [], 0, 0⟩ }) ∧
  (∀ (s : State) (n : Word), n.toNat = 0 ∨ s.cfg.srcBufCap < n.toNat →
    exec (.srcOpen (Operands.ofArg n)) s = .next (answered s 0x11 0 [])) ∧
  (∀ n : Word, encode (.srcOpen (Operands.ofArg n)) = ⟨0x10, n, []⟩)

/-- SRC_NEXT_BIT with a bit in the buffer (R101, R105, R107): it answers bit `7 - bpos` of `buf[rpos]`, which is the
first of the buffered bits, leaves the rest, and asks the port for nothing. -/
def Obligations.NextBitFromBuffer : Prop :=
  ∀ s : State, s.bsrc.isOpen = true → s.bsrc.rpos < s.bsrc.buf.length →
    ∃ b rpos bpos,
      b = (s.bsrc.buf.getD s.bsrc.rpos 0).getLsbD (7 - s.bsrc.bpos.toNat) ∧
      exec (.srcNextBit Operands.none) s =
        .next { answered s 0 (BitVec.ofNat 32 (num b)) [] with bsrc := { s.bsrc with rpos := rpos, bpos := bpos } } ∧
      sourceBits s.bsrc = b :: sourceBits { s.bsrc with rpos := rpos, bpos := bpos } ∧
      8 * rpos + bpos.toNat = 8 * s.bsrc.rpos + s.bsrc.bpos.toNat + 1

/-- R102, R104, R105, R107: SRC_NEXT_BIT in a refill, begun now or gone on with. It asks for exactly the bytes missing from
the batch until the batch is full or zero bytes come; it is end of data only when no byte came; an I/O error is E_IO and
keeps the bytes; with no answer the command waits (log entries 2 and 5). -/
def Obligations.RefillEndings : Prop :=
  ∀ (s : State) (out : Host.Outcome State Fault Refusal) (had : List Byte) (chunks : List (List Byte))
    (as : List PortIAnswer) (b : List Byte), bitRun had s out → (∀ c ∈ chunks, c ≠ []) →
    had.length + chunks.flatten.length < s.bsrc.batch.toNat →
    let got := had ++ chunks.flatten
    let missing := s.bsrc.batch.toNat - got.length
    let reads := readEvents (s.bsrc.batch.toNat - had.length) chunks
    let first := fun l : List Byte => BitVec.ofNat 32 (num ((l.getD 0 0).getLsbD 7))
    (s.portI = chunks.map .bytes →
      out = .next { s with eng := .busy .srcNextBit, bsrc := { s.bsrc with buf := got, rpos := 0, bpos := 0 },
                           portI := [], trace := s.trace ++ reads }) ∧
    (s.portI = chunks.map .bytes ++ .bytes [] :: as → got = [] →
      out = .next { answered s 1 0 [] with
        bsrc := { s.bsrc with buf := [], rpos := 0, bpos := 0 }, portI := as,
        trace := s.trace ++ [.read missing (.bytes [])] }) ∧
    (s.portI = chunks.map .bytes ++ .bytes [] :: as → got ≠ [] →
      out = .next { answered s 0 (first got) [] with
        bsrc := { s.bsrc with buf := got, rpos := 0, bpos := 1 }, portI := as,
        trace := s.trace ++ (reads ++ [.read missing (.bytes [])]) }) ∧
    (s.portI = chunks.map .bytes ++ .bytes b :: as → b.length = missing →
      out = .next { answered s 0 (first (got ++ b)) [] with
        bsrc := { s.bsrc with buf := got ++ b, rpos := 0, bpos := 1 }, portI := as,
        trace := s.trace ++ (reads ++ [.read missing (.bytes b)]) }) ∧
    (s.portI = chunks.map .bytes ++ .ioErr :: as →
      out = .next { answered s 0x21 0 [] with
        bsrc := { s.bsrc with buf := got, rpos := 0, bpos := 0 }, portI := as,
        trace := s.trace ++ (reads ++ [.read missing .ioErr]) })

/-- SRC_NEXT_BYTE with at least 8 bits in the buffer (R108): it answers the next 8 bits, first bit most significant,
with K = 8, and leaves the rest. -/
def Obligations.NextByteFromBuffer : Prop :=
  ∀ s : State, s.bsrc.isOpen = true → 8 ≤ (sourceBits s.bsrc).length →
    ∃ rpos bpos,
      exec (.srcNextByte Operands.none) s =
        .next { answered s 0 (BitVec.ofNat 32 (8 * 256 + bitsToNat 8 (sourceBits s.bsrc))) [] with
          bsrc := { s.bsrc with rpos := rpos, bpos := bpos } } ∧
      sourceBits { s.bsrc with rpos := rpos, bpos := bpos } = (sourceBits s.bsrc).drop 8

/-- R108, R102, R104: SRC_NEXT_BYTE with fewer than 8 bits in the buffer takes those, `pre`, and refills, or it goes on in
that refill. One refill that ends with bytes gives it the bits it misses, and the rest stay buffered; end of data, or an I/O
error, ends it with EOD, or E_IO, and `K << 8 | V` for the K bits read, which stay consumed, while bytes an I/O error left
stay buffered; with no answer it waits with the K bits (log entries 2 and 5). -/
def Obligations.NextByteAcrossARefill : Prop :=
  ∀ (s : State) (out : Host.Outcome State Fault Refusal) (pre : List Bool) (had : List Byte) (chunks : List (List Byte))
    (as : List PortIAnswer) (b : List Byte), byteRun pre had s out → pre.length < 8 → (∀ c ∈ chunks, c ≠ []) →
    had.length + chunks.flatten.length < s.bsrc.batch.toNat →
    let got := had ++ chunks.flatten
    let missing := s.bsrc.batch.toNat - got.length
    let reads := readEvents (s.bsrc.batch.toNat - had.length) chunks
    let k := pre.length
    let v := bitsToNat k pre
    let cut := BitVec.ofNat 32 (k * 256 + v)
    let whole := fun l : List Byte => BitVec.ofNat 32 (8 * 256 + bitsToNat 8 (pre ++ unpack l))
    (s.portI = chunks.map .bytes →
      out = .next { s with eng := .busy (.srcNextByte (7 - k) (BitVec.ofNat 8 v)),
                           bsrc := { s.bsrc with buf := got, rpos := 0, bpos := 0 },
                           portI := [], trace := s.trace ++ reads }) ∧
    (s.portI = chunks.map .bytes ++ .bytes [] :: as → got = [] →
      out = .next { answered s 1 cut [] with
        bsrc := { s.bsrc with buf := [], rpos := 0, bpos := 0 }, portI := as,
        trace := s.trace ++ [.read missing (.bytes [])] }) ∧
    (s.portI = chunks.map .bytes ++ .bytes [] :: as → got ≠ [] →
      out = .next { answered s 0 (whole got) [] with
        bsrc := { s.bsrc with buf := got, rpos := (8 - k) / 8, bpos := BitVec.ofNat 3 (8 - k) }, portI := as,
        trace := s.trace ++ (reads ++ [.read missing (.bytes [])]) }) ∧
    (s.portI = chunks.map .bytes ++ .bytes b :: as → b.length = missing →
      out = .next { answered s 0 (whole (got ++ b)) [] with
        bsrc := { s.bsrc with buf := got ++ b, rpos := (8 - k) / 8, bpos := BitVec.ofNat 3 (8 - k) }, portI := as,
        trace := s.trace ++ (reads ++ [.read missing (.bytes b)]) }) ∧
    (s.portI = chunks.map .bytes ++ .ioErr :: as →
      out = .next { answered s 0x21 cut [] with
        bsrc := { s.bsrc with buf := got, rpos := 0, bpos := 0 }, portI := as,
        trace := s.trace ++ (reads ++ [.read missing .ioErr]) })

/-- R109: SRC_TAKE_UNCONSUMED returns the whole bytes held and not consumed, drops a partly consumed one, and closes. -/
def Obligations.TakeUnconsumedReturnsWholeBytes : Prop :=
  (∀ s : State, s.bsrc.isOpen = true → s.bsrc.buf.length < 2 ^ 32 →
    let start := s.bsrc.rpos + if 0 < s.bsrc.bpos.toNat then 1 else 0
    exec (.srcTakeUnconsumed Operands.none) s =
      .next { answered s 0 (BitVec.ofNat 32 (s.bsrc.buf.length - start)) (s.bsrc.buf.drop start) with
        bsrc := ⟨false, s.bsrc.batch, [], 0, 0⟩ }) ∧
  (∀ s : State, s.bsrc.isOpen = false →
    exec (.srcTakeUnconsumed Operands.none) s = .next (answered s 0x12 0 [])) ∧
  encode (.srcTakeUnconsumed Operands.none) = ⟨0x13, 0, []⟩

/-- R110: a closed source; SRC_OPEN is the only command that reopens it, and reset leaves the source open. -/
def Obligations.ClosedSourceAnswersClosed : Prop :=
  (∀ s : State, s.bsrc.isOpen = false →
    exec (.srcNextBit Operands.none) s = .next (answered s 0x12 0 []) ∧
    exec (.srcNextByte Operands.none) s = .next (answered s 0x12 0 []) ∧
    exec (.srcTakeUnconsumed Operands.none) s = .next (answered s 0x12 0 [])) ∧
  (∀ (i : Instr) (s t : State), s.bsrc.isOpen = false → exec i s = .next t → t.bsrc.isOpen = true →
    ∃ o, i = .srcOpen o) ∧
  (∀ (s : State) (n : Word), s.bsrc.isOpen = false → 1 ≤ n.toNat → n.toNat ≤ s.cfg.srcBufCap →
    exec (.srcOpen (Operands.ofArg n)) s = .next { answered s 0 0 [] with bsrc := ⟨true, n, [], 0, 0⟩ }) ∧
  (∀ s : State, s.rst = true → ∃ t, step s = .next t ∧ t.bsrc.isOpen = true)

/-- R100: the frame of the SRC commands, in every form: they touch only BSRC and port I; SRC_NEXT_BIT and
SRC_NEXT_BYTE do not change `open`, and only SRC_OPEN changes `batch`. -/
def Obligations.SrcCommandsFrame : Prop :=
  ∀ (o : Operands) (i : Instr) (s t : State),
    i = .srcOpen o ∨ i = .srcNextBit o ∨ i = .srcNextByte o ∨ i = .srcTakeUnconsumed o → exec i s = .next t →
    t.cfg = s.cfg ∧ t.bsnk = s.bsnk ∧ t.enc = s.enc ∧ t.tree = s.tree ∧ t.rst = s.rst ∧ t.cmds = s.cmds ∧
    t.portO = s.portO ∧ t.lateI = s.lateI ∧ t.lateO = s.lateO ∧ t.draws = s.draws ∧ portOTaken t.trace = portOTaken s.trace ∧
    (i = .srcOpen o ∨ i = .srcTakeUnconsumed o → t.portI = s.portI ∧ t.trace = s.trace) ∧
    (i = .srcNextBit o ∨ i = .srcNextByte o → t.bsrc.isOpen = s.bsrc.isOpen) ∧
    (i ≠ .srcOpen o → t.bsrc.batch = s.bsrc.batch)

/-! ### Bit sink (42_bitsink.md) -/

/-- R131 to R134, R136: SNK_WRITE_BIT, one clause per outcome of PutBit, and the two ways it goes on from waiting for its
drain (log entry 5). -/
def Obligations.WriteBitOutcomes : Prop :=
  (∀ (s : State) (b : Bool) (as : List PortOAnswer), s.bsnk.isOpen = true →
    let imm := BitVec.ofNat 8 (num b)
    let i := Instr.snkWriteBit (Operands.ofImm imm)
    let v := (s.bsnk.acc <<< 1) ||| imm
    let full := s.bsnk.buf ++ [v]
    let kept := { s.bsnk with buf := full, acc := 0, nbits := 0 }
    (s.bsnk.nbits.toNat < 7 →
      exec i s = .next { answered s 0 1 [] with bsnk := { s.bsnk with acc := v, nbits := s.bsnk.nbits + 1 } }) ∧
    (s.bsnk.nbits.toNat = 7 → s.cfg.snkBufCap ≤ s.bsnk.buf.length → exec i s = .next (answered s 0x24 0 [])) ∧
    (s.bsnk.nbits.toNat = 7 → s.bsnk.buf.length < s.cfg.snkBufCap →
      (full.length < s.bsnk.thresh.toNat → exec i s = .next { answered s 0 1 [] with bsnk := kept }) ∧
      (s.bsnk.thresh.toNat ≤ full.length → s.portO = .ok :: as →
        exec i s = .next { answered s 0 1 [] with
          bsnk := { kept with buf := [] }, portO := as, trace := s.trace ++ [.write full .ok] }) ∧
      (s.bsnk.thresh.toNat ≤ full.length → s.portO = .ioErr :: as →
        exec i s = .next { answered s 0x21 1 [] with
          bsnk := kept, portO := as, trace := s.trace ++ [.write full .ioErr] }) ∧
      (s.bsnk.thresh.toNat ≤ full.length → s.portO = [] →
        exec i s = .next { s with eng := .busy (.snkWriteBit imm), bsnk := kept }))) ∧
  (∀ (s : State) (imm : Byte) (as : List PortOAnswer), s.rst = false → s.eng = .busy (.snkWriteBit imm) →
    (s.portO = .ok :: as →
      step s = .next { answered s 0 1 [] with
        bsnk := { s.bsnk with buf := [] }, portO := as, trace := s.trace ++ [.write s.bsnk.buf .ok] }) ∧
    (s.portO = .ioErr :: as →
      step s = .next { answered s 0x21 1 [] with portO := as, trace := s.trace ++ [.write s.bsnk.buf .ioErr] }))

/-- Every accepted bit comes next in the stream of bits written or held, and none is lost or moved (R131, R134, R137, R145;
10_state.md R26): in every outcome of SNK_WRITE_BIT that accepts the bit, in every outcome of SNK_WRITE_BYTE for the number
of bits its result counts, and when either goes on from waiting, for the bits it accepts then. -/
def Obligations.AcceptedBitComesNext : Prop :=
  (∀ (s t : State) (b : Bool) (status : Word),
    exec (.snkWriteBit (Operands.ofImm (BitVec.ofNat 8 (num b)))) s = .next t →
    t.resps = s.resps ++ [⟨status, 1, []⟩] → t.sinkStream = s.sinkStream ++ [b]) ∧
  (∀ (s t : State) (v : Byte) (status res : Word), exec (.snkWriteByte (Operands.ofImm v)) s = .next t →
    t.resps = s.resps ++ [⟨status, res, []⟩] → t.sinkStream = s.sinkStream ++ (byteBits v).take res.toNat) ∧
  (∀ (s t : State) (imm : Byte), s.rst = false → s.eng = .busy (.snkWriteBit imm) → step s = .next t →
    t.sinkStream = s.sinkStream) ∧
  (∀ (s t : State) (v : Byte) (done : Nat) (status res : Word), s.rst = false → s.eng = .busy (.snkWriteByte v done) →
    done ≤ 7 → step s = .next t → t.resps = s.resps ++ [⟨status, res, []⟩] →
    t.sinkStream = s.sinkStream ++ ((byteBits v).take res.toNat).drop (done + 1))

/-- R131 to R134, R137: SNK_WRITE_BYTE writes its 8 bits, most significant first. With n bits pending, the first `8 - n`
complete a byte and the last n are then pending; below the threshold nothing is drained, at it the buffer is, once; a failed
drain stops the command after the bit that completed the byte, a full buffer before it; with no answer it waits there, and
goes on from there (log entries 2 and 5). -/
def Obligations.WriteByteOutcomes : Prop :=
  (∀ (s : State) (v : Byte) (as : List PortOAnswer), s.bsnk.isOpen = true →
    let out := exec (.snkWriteByte (Operands.ofImm v)) s
    let n := s.bsnk.nbits.toNat
    let full := s.bsnk.buf ++ [(s.bsnk.acc <<< (8 - n)) ||| (v >>> n)]
    let low := v &&& BitVec.ofNat 8 (2 ^ n - 1)
    (s.cfg.snkBufCap ≤ s.bsnk.buf.length →
      out = .next { answered s 0x24 (BitVec.ofNat 32 (7 - n)) [] with
        bsnk := { s.bsnk with acc := (s.bsnk.acc <<< (7 - n)) ||| (v >>> (n + 1)), nbits := 7 } }) ∧
    (s.bsnk.buf.length < s.cfg.snkBufCap → full.length < s.bsnk.thresh.toNat →
      out = .next { answered s 0 8 [] with bsnk := { s.bsnk with buf := full, acc := low } }) ∧
    (s.bsnk.buf.length < s.cfg.snkBufCap → s.bsnk.thresh.toNat ≤ full.length → s.portO = .ok :: as →
      out = .next { answered s 0 8 [] with
        bsnk := { s.bsnk with buf := [], acc := low }, portO := as, trace := s.trace ++ [.write full .ok] }) ∧
    (s.bsnk.buf.length < s.cfg.snkBufCap → s.bsnk.thresh.toNat ≤ full.length → s.portO = .ioErr :: as →
      out = .next { answered s 0x21 (BitVec.ofNat 32 (8 - n)) [] with
        bsnk := { s.bsnk with buf := full, acc := 0, nbits := 0 }, portO := as,
        trace := s.trace ++ [.write full .ioErr] }) ∧
    (s.bsnk.buf.length < s.cfg.snkBufCap → s.bsnk.thresh.toNat ≤ full.length → s.portO = [] →
      out = .next { s with eng := .busy (.snkWriteByte v (7 - n)),
                           bsnk := { s.bsnk with buf := full, acc := 0, nbits := 0 } })) ∧
  (∀ (s : State) (v : Byte) (done : Nat) (as : List PortOAnswer), s.rst = false → s.eng = .busy (.snkWriteByte v done) →
    done ≤ 7 → s.bsnk.acc = 0 → s.bsnk.nbits = 0 →
    (s.portO = .ok :: as →
      step s = .next { answered s 0 8 [] with
        bsnk := { s.bsnk with buf := [], acc := v &&& BitVec.ofNat 8 (2 ^ (7 - done) - 1),
                              nbits := BitVec.ofNat 3 (7 - done) },
        portO := as, trace := s.trace ++ [.write s.bsnk.buf .ok] }) ∧
    (s.portO = .ioErr :: as →
      step s = .next { answered s 0x21 (BitVec.ofNat 32 (done + 1)) [] with
        portO := as, trace := s.trace ++ [.write s.bsnk.buf .ioErr] }))

/-- SNK_FLUSH, SNK_OPEN and SNK_CLOSE of an open sink when port O takes what it is given, run now or gone on with (R134,
R135, R138, R140, R141, R143): with nothing pending there is no port transaction; with room for the padded partial byte, or
none pending, one write carries the bits held, packed and zero-padded; with no room the buffer is written and then the
padded byte. No other answer is taken, res counts the bytes, and the sink is left as the command says. The command that
waits for its second write goes on the same way. SNK_OPEN of a closed sink writes nothing. -/
def Obligations.FinalizingDeliversEveryBit : Prop :=
  (∀ (s : State) (out : Host.Outcome State Fault Refusal) (f : Finalize) (as : List PortOAnswer), flushRun f s out →
    let w := pack (sinkBits s.bsnk)
    (sinkBits s.bsnk = [] → out = .next { answered s 0 0 [] with bsnk := finalized s.bsnk f }) ∧
    (sinkBits s.bsnk ≠ [] → oneWrite s → s.portO = .ok :: as → w.length < 2 ^ 32 →
      out = .next { answered s 0 (BitVec.ofNat 32 w.length) [] with
        bsnk := finalized s.bsnk f, portO := as, trace := s.trace ++ [.write w .ok] }) ∧
    (twoWrites s → s.portO = .ok :: .ok :: as → w.length < 2 ^ 32 →
      out = .next { answered s 0 (BitVec.ofNat 32 w.length) [] with
        bsnk := finalized s.bsnk f, portO := as,
        trace := s.trace ++ [.write s.bsnk.buf .ok, .write (pack (pendingBits s.bsnk)) .ok] } ∧
      w = s.bsnk.buf ++ pack (pendingBits s.bsnk))) ∧
  (∀ (s : State) (f : Finalize) (written : Nat) (as : List PortOAnswer), s.rst = false →
    s.eng = .busy (.snkSecondDrain f written) → s.bsnk.acc = 0 → s.bsnk.nbits = 0 → s.portO = .ok :: as →
    written + s.bsnk.buf.length < 2 ^ 32 → s.bsnk.isOpen = true →
    step s = .next { answered s 0 (BitVec.ofNat 32 (written + s.bsnk.buf.length)) [] with
      bsnk := finalized s.bsnk f, portO := as, trace := s.trace ++ [.write s.bsnk.buf .ok] }) ∧
  (∀ (s : State) (n : Word), s.bsnk.isOpen = false → n.toNat ≤ s.cfg.snkBufCap →
    exec (.snkOpen (Operands.ofArg n)) s = .next { answered s 0 0 [] with bsnk := ⟨true, n, 0, 0, []⟩ })

/-- The same commands when port O fails, or does not answer (R134, R135, 20_memory.md R65, D14), run now or gone on with: a
failed write is E_IO with the bytes accepted before it, the sink stays open with its threshold, and every bit not written is
kept for the next attempt, padded if it was; with no answer the command waits at that write (log entries 2 and 5). -/
def Obligations.FailedFinalizingKeepsEveryBit : Prop :=
  (∀ (s : State) (out : Host.Outcome State Fault Refusal) (f : Finalize) (as : List PortOAnswer), flushRun f s out →
    let w := pack (sinkBits s.bsnk)
    let p := pack (pendingBits s.bsnk)
    (sinkBits s.bsnk ≠ [] → oneWrite s →
      (s.portO = .ioErr :: as →
        out = .next { answered s 0x21 0 [] with
          bsnk := { s.bsnk with acc := 0, nbits := 0, buf := w }, portO := as, trace := s.trace ++ [.write w .ioErr] }) ∧
      (s.portO = [] →
        out = .next { s with eng := .busy (.snkFirstDrain f), bsnk := { s.bsnk with acc := 0, nbits := 0, buf := w } })) ∧
    (twoWrites s →
      (s.portO = .ioErr :: as →
        out = .next { answered s 0x21 0 [] with portO := as, trace := s.trace ++ [.write s.bsnk.buf .ioErr] }) ∧
      (s.portO = [] → out = .next { s with eng := .busy (.snkFirstDrain f) }) ∧
      (s.portO = .ok :: .ioErr :: as → s.bsnk.buf.length < 2 ^ 32 →
        out = .next { answered s 0x21 (BitVec.ofNat 32 s.bsnk.buf.length) [] with
          bsnk := { s.bsnk with acc := 0, nbits := 0, buf := p }, portO := as,
          trace := s.trace ++ [.write s.bsnk.buf .ok, .write p .ioErr] }) ∧
      (s.portO = [.ok] →
        out = .next { s with eng := .busy (.snkSecondDrain f s.bsnk.buf.length),
                             bsnk := { s.bsnk with acc := 0, nbits := 0, buf := p }, portO := [],
                             trace := s.trace ++ [.write s.bsnk.buf .ok] }))) ∧
  (∀ (s : State) (f : Finalize) (written : Nat) (as : List PortOAnswer), s.rst = false →
    s.eng = .busy (.snkSecondDrain f written) → written < 2 ^ 32 → s.portO = .ioErr :: as →
    step s = .next { answered s 0x21 (BitVec.ofNat 32 written) [] with
      portO := as, trace := s.trace ++ [.write s.bsnk.buf .ioErr] })

/-- R139: SNK_SET_THRESHOLD writes the threshold and drains nothing, whatever is buffered; the next completed byte
drains. -/
def Obligations.SetThresholdDrainsNothing : Prop :=
  (∀ (s : State) (n : Word), s.bsnk.isOpen = true → n.toNat ≤ s.cfg.snkBufCap →
    exec (.snkSetThreshold (Operands.ofArg n)) s =
      .next { answered s 0 0 [] with bsnk := { s.bsnk with thresh := n } }) ∧
  (∀ (s : State) (n : Word), s.bsnk.isOpen = false → n.toNat ≤ s.cfg.snkBufCap →
    exec (.snkSetThreshold (Operands.ofArg n)) s = .next (answered s 0x12 0 [])) ∧
  (∀ (s : State) (n : Word), s.cfg.snkBufCap < n.toNat →
    exec (.snkSetThreshold (Operands.ofArg n)) s = .next (answered s 0x11 0 [])) ∧
  (∀ n : Word, encode (.snkSetThreshold (Operands.ofArg n)) = ⟨0x24, n, []⟩) ∧
  (∀ (s : State) (n : Word) (b : Bool) (as : List PortOAnswer), s.bsnk.isOpen = true → s.bsnk.nbits.toNat = 7 →
    s.bsnk.buf.length < s.cfg.snkBufCap → n.toNat ≤ s.bsnk.buf.length + 1 → s.portO = .ok :: as →
    let imm := BitVec.ofNat 8 (num b)
    ∃ t u, exec (.snkSetThreshold (Operands.ofArg n)) s = .next t ∧
      exec (.snkWriteBit (Operands.ofImm imm)) t = .next u ∧ u.bsnk = ⟨true, n, 0, 0, []⟩ ∧
      u.trace = s.trace ++ [.write (s.bsnk.buf ++ [(s.bsnk.acc <<< 1) ||| imm]) .ok])

/-- R142: a closed sink; SNK_OPEN is the only command that reopens it. -/
def Obligations.ClosedSinkAnswersClosed : Prop :=
  (∀ (s : State) (b : Bool) (v : Byte) (n : Word), s.bsnk.isOpen = false → n.toNat ≤ s.cfg.snkBufCap →
    exec (.snkWriteBit (Operands.ofImm (BitVec.ofNat 8 (num b)))) s = .next (answered s 0x12 0 []) ∧
    exec (.snkWriteByte (Operands.ofImm v)) s = .next (answered s 0x12 0 []) ∧
    exec (.snkFlush Operands.none) s = .next (answered s 0x12 0 []) ∧
    exec (.snkSetThreshold (Operands.ofArg n)) s = .next (answered s 0x12 0 []) ∧
    exec (.snkClose Operands.none) s = .next (answered s 0x12 0 [])) ∧
  (∀ (i : Instr) (s t : State), s.bsnk.isOpen = false → exec i s = .next t → t.bsnk.isOpen = true →
    ∃ o, i = .snkOpen o) ∧
  (∀ (s : State) (n : Word), s.bsnk.isOpen = false → n.toNat ≤ s.cfg.snkBufCap →
    exec (.snkOpen (Operands.ofArg n)) s = .next { answered s 0 0 [] with bsnk := ⟨true, n, 0, 0, []⟩ })

/-- R130: the frame of the SNK commands, in every form: they touch only BSNK and port O; only SNK_OPEN and
SNK_SET_THRESHOLD change the threshold; only SNK_OPEN and SNK_CLOSE change `open`. -/
def Obligations.SnkCommandsFrame : Prop :=
  ∀ (o : Operands) (i : Instr) (s t : State),
    i = .snkOpen o ∨ i = .snkWriteBit o ∨ i = .snkWriteByte o ∨ i = .snkFlush o ∨ i = .snkSetThreshold o ∨
      i = .snkClose o →
    exec i s = .next t →
    t.cfg = s.cfg ∧ t.bsrc = s.bsrc ∧ t.enc = s.enc ∧ t.tree = s.tree ∧ t.rst = s.rst ∧ t.cmds = s.cmds ∧
    t.portI = s.portI ∧ t.lateI = s.lateI ∧ t.lateO = s.lateO ∧ t.draws = s.draws ∧ portIGiven t.trace = portIGiven s.trace ∧
    (i ≠ .snkOpen o → i ≠ .snkSetThreshold o → t.bsnk.thresh = s.bsnk.thresh) ∧
    (i ≠ .snkOpen o → i ≠ .snkClose o → t.bsnk.isOpen = s.bsnk.isOpen) ∧
    (i = .snkSetThreshold o → t.portO = s.portO ∧ t.trace = s.trace ∧ sinkBits t.bsnk = sinkBits s.bsnk)

/-! ### Tree unit (43_tree.md) -/

/-- R161, R162, R164, R165: TREE_BUILD stores a tree that the merge loop, popping a least node and then a least node of the
rest, makes of the Leaves of the nonzero counts: a tree with exactly one Leaf per nonzero count, that count its weight, every
Composite the sum of its children; a table of zeros is E_EMPTY and leaves NONE. For every draw: the draws are
Config.tieBreak, of which nothing is known (log entry 3). -/
def Obligations.TreeBuildStoresABuiltTree : Prop :=
  (∀ (s : State) (p : List Byte), 2048 ≤ s.cfg.cmdPayloadMax → p.length = 2048 → (∃ b < 256, tableCount p b ≠ 0) →
    ∃ u k, exec (.treeBuild (Operands.ofPayload p)) s =
        .next { answered s 0 (BitVec.ofNat 32 (treeLeaves u)) [] with tree := some u, draws := k } ∧
      MergesTo (leavesOf (tableCount p)) u ∧
      (∀ (b : Byte) (w : Weight), (b, w) ∈ treeLeafList u ↔ w.toNat = tableCount p b.toNat ∧ w ≠ 0) ∧
      ((treeLeafList u).map (·.1)).Nodup ∧ WeightsSum u ∧ treeLeaves u ≤ 256 ∧ treeNodes u + 1 = 2 * treeLeaves u) ∧
  (∀ (s : State) (p : List Byte), 2048 ≤ s.cfg.cmdPayloadMax → p.length = 2048 → (∀ b < 256, tableCount p b = 0) →
    exec (.treeBuild (Operands.ofPayload p)) s = .next { answered s 0x20 0 [] with tree := none }) ∧
  (∀ (s : State) (p : List Byte), p.length ≠ 2048 →
    exec (.treeBuild (Operands.ofPayload p)) s = .next (answered s 0x11 0 [])) ∧
  (∀ p : List Byte, p.length = 2048 → encode (.treeBuild (Operands.ofPayload p)) = ⟨0x30, 0x800, p⟩)

/-- The merge loop's Pick (R162, R15): from a nonempty collection it takes a node of least weight, every such node is
taken by some draw, and one turn of the loop makes the first node popped the left child and the second the right. -/
def Obligations.PickTakesALeastNode : Prop :=
  (∀ (d : Nat) (q : List FreqTree), q ≠ [] →
    ∃ x r, pickNode d q = some (x, r) ∧ q.Perm (x :: r) ∧ ∀ y ∈ q, (treeWeight x).toNat ≤ (treeWeight y).toNat) ∧
  (∀ (q : List FreqTree) (x : FreqTree), x ∈ q → (∀ y ∈ q, (treeWeight x).toNat ≤ (treeWeight y).toNat) →
    ∃ d r, pickNode d q = some (x, r)) ∧
  (∀ (draw : Nat → Nat) (fuel k : Nat) (q : List FreqTree), 2 ≤ q.length →
    ∃ x y r r', pickNode (draw k) q = some (x, r) ∧ pickNode (draw (k + 1)) r = some (y, r') ∧
      mergeLoop draw (fuel + 1) k q =
        mergeLoop draw fuel (k + 2) (r' ++ [.composite (treeWeight x + treeWeight y) x y]))

/-- R168: TREE_SERIALIZE, and the two bytes of a lone Leaf. -/
def Obligations.SerializeReturnsTheTree : Prop :=
  (∀ (s : State) (u : FreqTree), s.tree = some u → (serialize u).length < 2 ^ 32 →
    exec (.treeSerialize Operands.none) s =
      .next (answered s 0 (BitVec.ofNat 32 (serialize u).length) (pack (serialize u)))) ∧
  (∀ s : State, s.tree = none → exec (.treeSerialize Operands.none) s = .next (answered s 0x14 0 [])) ∧
  encode (.treeSerialize Operands.none) = ⟨0x31, 0, []⟩ ∧
  (∀ (b : Byte) (w : Weight), (serialize (.leaf b w)).length = 9 ∧
    pack (serialize (.leaf b w)) = [(0x80 : Byte) ||| (b >>> 1), (b &&& 1) <<< 7])

/-- R167: a tree with L Leaves serializes to `10L - 1` bits and `ceil((10L - 1)/8)` bytes; the bits are the packed form
read back, then zeros. (The sizes are the spec's own inference, marked [derived] in R167.) -/
def Obligations.SerializedSize : Prop :=
  ∀ t : FreqTree,
    (serialize t).length = 10 * treeLeaves t - 1 ∧
    (pack (serialize t)).length = (10 * treeLeaves t - 1 + 7) / 8 ∧
    ∃ z, unpack (pack (serialize t)) = serialize t ++ List.replicate z false ∧ z < 8

/-- R169, R170: a payload whose bits begin with a serialized tree that fits is deserialized to it with every weight 0,
reading exactly its bits, whatever follows; so it is with a serialized tree's bytes and any bytes after them (R175, R238;
R175 is the spec's own inference, marked [derived]). -/
def Obligations.DeserializeOfSerialize : Prop :=
  ∀ (s : State) (u : FreqTree), treeNodes u ≤ s.cfg.maxNodes → s.cfg.cmdPayloadMax < 2 ^ 32 →
    (serialize u).length < 2 ^ 32 →
    let parsed := .next { answered s 0 (BitVec.ofNat 32 (10 * treeLeaves u - 1)) [] with tree := some (zeroWeights u) }
    (∀ p : List Byte, serialize u <+: unpack p → p.length ≤ s.cfg.cmdPayloadMax →
      exec (.treeDeserialize (Operands.ofPayload p)) s = parsed) ∧
    (∀ more : List Byte, (pack (serialize u) ++ more).length ≤ s.cfg.cmdPayloadMax →
      exec (.treeDeserialize (Operands.ofPayload (pack (serialize u) ++ more))) s = parsed)

/-- TREE_DESERIALIZE when the parse fails (R169, R170), which leaves NONE. The bits begin with the nodes `ns` that make no
whole tree yet. If they end there, or inside a Leaf that may be begun, the tree is malformed; if a node more than MAX_NODES
begins, the tree meets the capacity, whatever follows. Every payload either begins with a whole tree that fits or fails in
one of these ways. -/
def Obligations.DeserializeFailures : Prop :=
  (∀ (s : State) (p : List Byte) (ns : List (Option Byte)) (rest : List Bool), s.cfg.cmdPayloadMax < 2 ^ 32 →
    p.length ≤ s.cfg.cmdPayloadMax → unpack p = ns.flatMap nodeBits ++ rest → unfinished ns →
    (ns.length ≤ s.cfg.maxNodes → rest = [] →
      exec (.treeDeserialize (Operands.ofPayload p)) s = .next { answered s 0x22 0 [] with tree := none }) ∧
    (ns.length < s.cfg.maxNodes → rest.head? = some true → rest.length < 9 →
      exec (.treeDeserialize (Operands.ofPayload p)) s = .next { answered s 0x22 0 [] with tree := none }) ∧
    (ns.length = s.cfg.maxNodes → rest ≠ [] →
      exec (.treeDeserialize (Operands.ofPayload p)) s = .next { answered s 0x25 0 [] with tree := none })) ∧
  (∀ (max : Nat) (p : List Byte),
    (∃ u, treeNodes u ≤ max ∧ serialize u <+: unpack p) ∨
    (∃ ns rest, unpack p = ns.flatMap nodeBits ++ rest ∧ unfinished ns ∧
      ((ns.length ≤ max ∧ rest = []) ∨ (ns.length < max ∧ rest.head? = some true ∧ rest.length < 9) ∨
       (ns.length = max ∧ rest ≠ []))))

/-- R171: the code of a byte value is the path of the first Leaf in pre-order that holds it; a byte value no Leaf holds has
none. R172: a lone Leaf's code is empty. A code is shorter than the number of Leaves: this is an inference, in the spec
marked [derived] where it bounds the length of a code (00_scope.md R16, R173). -/
def Obligations.CodesAreLeafPaths : Prop :=
  (∀ (t : FreqTree) (b : Byte), codeOf t b = none ↔ ∀ q w, nodeAt t q ≠ some (.leaf b w)) ∧
  (∀ (t : FreqTree) (b : Byte) (p : List Bool), codeOf t b = some p →
    (∃ w, nodeAt t p = some (.leaf b w)) ∧ p.length < treeLeaves t ∧
    ∀ q w, nodeAt t q = some (.leaf b w) → q = p ∨ before p q) ∧
  (∀ (b : Byte) (w : Weight), codeOf (.leaf b w) b = some [])

/-- Codes are prefix-free (R174, marked [derived] in the spec: Leaves have no children). -/
def Obligations.CodesArePrefixFree : Prop :=
  ∀ (t : FreqTree) (a b : Byte) (p q : List Bool), codeOf t a = some p → codeOf t b = some q → a ≠ b → ¬p <+: q

/-- TREE_CODE_TABLE (R173, 30_encoding.md R92): one entry per byte value in order, `FF FF` without a code, its 16-bit
little-endian length and packed bits with one; res counts the codes. -/
def Obligations.CodeTableEntries : Prop :=
  (∀ (s : State) (u : FreqTree), s.tree = some u → (∀ b c, codeOf u b = some c → c.length < 65536) →
    exec (.treeCodeTable Operands.none) s =
      .next (answered s 0
        (BitVec.ofNat 32 ((List.range 256).filter fun n => BitVec.ofNat 8 n ∈ (treeLeafList u).map (·.1)).length)
        ((List.range 256).flatMap fun n =>
          match codeOf u (BitVec.ofNat 8 n) with
          | none => [0xFF, 0xFF]
          | some c => [BitVec.ofNat 8 (c.length % 256), BitVec.ofNat 8 (c.length / 256)] ++ pack c))) ∧
  (∀ s : State, s.tree = none → exec (.treeCodeTable Operands.none) s = .next (answered s 0x14 0 [])) ∧
  encode (.treeCodeTable Operands.none) = ⟨0x33, 0, []⟩

/-- R160: the frame of the TREE commands, in every form: they touch only the tree store and issue no port transaction;
TREE_SERIALIZE and TREE_CODE_TABLE do not change it; one that passes the decode checks and then fails leaves NONE. -/
def Obligations.TreeCommandsFrame : Prop :=
  ∀ (o : Operands) (i : Instr) (s t : State),
    i = .treeBuild o ∨ i = .treeSerialize o ∨ i = .treeDeserialize o ∨ i = .treeCodeTable o → exec i s = .next t →
    (∃ k r, t = { s with eng := .idle, tree := t.tree, draws := k, resps := s.resps ++ [r] } ∧
      (i ≠ .treeBuild o → k = s.draws) ∧
      (WellFormed s.cfg i = true → i = .treeBuild o ∨ i = .treeDeserialize o → r.status ≠ 0 → t.tree = none)) ∧
    (i = .treeSerialize o ∨ i = .treeCodeTable o → t.tree = s.tree)

/-! ### Encoder (44_encoder.md) -/

/-- R201: ENC_NEW. -/
def Obligations.EncNewStartsFresh : Prop :=
  (∀ s : State, ∃ e, exec (.encNew Operands.none) s = .next { answered s 0 0 [] with enc := e } ∧
    e.consumed = false ∧ e.data = [] ∧ e.total = 0 ∧ ∀ b : Byte, e.freq[b.toNat]'b.isLt = 0) ∧
  encode (.encNew Operands.none) = ⟨0x40, 0, []⟩

/-- R202: ENC_ADD_CHUNK, each of its failures, and a zero-length chunk, which changes nothing. -/
def Obligations.AddChunkCountsEveryByte : Prop :=
  (∀ (s : State) (c : List Byte), c.length < 2 ^ 32 → c.length ≤ s.cfg.cmdPayloadMax →
    (s.enc.consumed = false → s.enc.total.toNat + c.length ≤ s.cfg.chunkCap →
      ∃ f, exec (.encAddChunk (Operands.ofPayload c)) s = .next { answered s 0 0 [] with
          enc := ⟨false, s.enc.data ++ c, f, s.enc.total + BitVec.ofNat 64 c.length⟩ } ∧
        ∀ b : Byte, f[b.toNat]'b.isLt = s.enc.freq[b.toNat]'b.isLt + BitVec.ofNat 64 (c.count b)) ∧
    (s.enc.consumed = true → exec (.encAddChunk (Operands.ofPayload c)) s = .next (answered s 0x13 0 [])) ∧
    (s.enc.consumed = false → s.cfg.chunkCap < s.enc.total.toNat + c.length →
      exec (.encAddChunk (Operands.ofPayload c)) s = .next (answered s 0x24 0 [])) ∧
    (s.enc.consumed = false → c = [] → s.enc.total.toNat ≤ s.cfg.chunkCap →
      exec (.encAddChunk (Operands.ofPayload c)) s = .next (answered s 0 0 []))) ∧
  (∀ (s : State) (c : List Byte), c.length < 2 ^ 32 → s.cfg.cmdPayloadMax < c.length →
    exec (.encAddChunk (Operands.ofPayload c)) s = .next (answered s 0x24 0 [])) ∧
  (∀ c : List Byte, encode (.encAddChunk (Operands.ofPayload c)) = ⟨0x41, BitVec.ofNat 32 c.length, c⟩)

/-- R203, R205, R206: ENC_ENCODE of a legal live encoder with data returns the compressed buffer of a tree that the merge
loop makes of the Leaves of the data's counts (R161, R162), for every draw, and leaves the encoder consumed and empty;
without data it is E_EMPTY and consumed too; a consumed encoder is E_CONSUMED and unchanged. (The draws are log entry
3.) -/
def Obligations.EncodeReturnsTheBuffer : Prop :=
  (∀ s : State, Inv s → s.enc.consumed = false → s.enc.data ≠ [] →
    ∃ u k e, exec (.encEncode Operands.none) s =
        .next { answered s 0 0 (buffer u s.enc.data) with enc := e, draws := k } ∧
      MergesTo (leavesOf fun b => s.enc.data.count (BitVec.ofNat 8 b)) u ∧
      BuiltTree u ∧ (∀ (b : Byte) (w : Weight), (b, w) ∈ treeLeafList u ↔ w.toNat = s.enc.data.count b ∧ w ≠ 0) ∧
      2 ≤ (pack (serialize u)).length ∧ (pack (serialize u)).length ≤ 320 ∧
      e.consumed = true ∧ e.data = [] ∧ e.total = 0 ∧ ∀ b : Byte, e.freq[b.toNat]'b.isLt = 0) ∧
  (∀ s : State, Inv s → s.enc.consumed = false → s.enc.data = [] →
    ∃ k e, exec (.encEncode Operands.none) s = .next { answered s 0x20 0 [] with enc := e, draws := k } ∧
      e.consumed = true ∧ e.data = [] ∧ e.total = 0 ∧ ∀ b : Byte, e.freq[b.toNat]'b.isLt = 0) ∧
  (∀ s : State, s.enc.consumed = true → exec (.encEncode Operands.none) s = .next (answered s 0x13 0 [])) ∧
  encode (.encEncode Operands.none) = ⟨0x42, 0, []⟩

/-- Two chunks leave the encoder as their concatenation does, so ENC_ENCODE then returns the same buffer for the same
draws (R207, marked [derived] in the spec; the draws are log entry 3). -/
def Obligations.ChunksConcatenate : Prop :=
  ∀ (s : State) (c d : List Byte), s.enc.consumed = false → (c ++ d).length < 2 ^ 32 →
    (c ++ d).length ≤ s.cfg.cmdPayloadMax → s.enc.total.toNat + (c ++ d).length ≤ s.cfg.chunkCap →
    s.cfg.chunkCap < 2 ^ 64 →
    ∃ t1 t2 t, exec (.encAddChunk (Operands.ofPayload c)) s = .next t1 ∧
      exec (.encAddChunk (Operands.ofPayload d)) t1 = .next t2 ∧
      exec (.encAddChunk (Operands.ofPayload (c ++ d))) s = .next t ∧
      t2.enc = t.enc ∧ t2.draws = t.draws ∧ t2.tree = t.tree ∧ t2.bsrc = t.bsrc ∧ t2.bsnk = t.bsnk

/-- R208: after an ENC_ENCODE that ends with any status, the encoder is consumed, and ENC_ADD_CHUNK and ENC_ENCODE fail
with E_CONSUMED; only ENC_NEW of the ENC commands makes it live again. -/
def Obligations.EncoderIsSingleUse : Prop :=
  (∀ s : State, ∃ t, exec (.encEncode Operands.none) s = .next t ∧ t.enc.consumed = true) ∧
  (∀ (s : State) (c : List Byte), s.enc.consumed = true → c.length < 2 ^ 32 → c.length ≤ s.cfg.cmdPayloadMax →
    exec (.encAddChunk (Operands.ofPayload c)) s = .next (answered s 0x13 0 []) ∧
    exec (.encEncode Operands.none) s = .next (answered s 0x13 0 [])) ∧
  (∀ (i : Instr) (s t : State), s.enc.consumed = true → exec i s = .next t → t.enc.consumed = false → ∃ o, i = .encNew o)

/-- R200: the frame of the ENC commands, in every form: they touch only ENC and issue no port transaction. -/
def Obligations.EncCommandsFrame : Prop :=
  ∀ (o : Operands) (i : Instr) (s t : State), i = .encNew o ∨ i = .encAddChunk o ∨ i = .encEncode o →
    exec i s = .next t →
    ∃ k r, t = { s with eng := .idle, enc := t.enc, draws := k, resps := s.resps ++ [r] } ∧ s.draws ≤ k ∧
      (i ≠ .encEncode o → k = s.draws)

/-! ### Decoder (45_decoder.md) -/

/-- A buffer shorter than its header, or than header and tree slice, is E_FORMAT (R232, R233). -/
def Obligations.ShortBuffersAreMalformed : Prop :=
  ∀ (s : State) (b : List Byte), b.length < 2 ^ 32 → b.length ≤ s.cfg.cmdPayloadMax →
    b.length < 12 ∨ b.length < 12 + treeSize b →
    exec (.decDecode (Operands.ofPayload b)) s = .next (answered s 0x23 0 [])

/-- DEC_DECODE of a buffer with its header and tree slice (R231, R233 to R238, R242, R243): the tree is parsed from the
slice alone; its failures are E_MALFORMED_TREE and E_TREE_CAPACITY; otherwise the walk over the payload is returned with
TRUNC exactly when symbols are missing. For a lone Leaf the walk is its byte, once per payload bit, whatever the bit, and at
most `original_size` times. For a Composite root it is the bytes of the Leaves that successive paths of payload bits lead
to, from the root each, until `original_size` bytes have come or the bits left lead to no Leaf. -/
def Obligations.DecodeFollowsItsSteps : Prop :=
  ∀ (s : State) (b : List Byte), b.length < 2 ^ 32 → b.length ≤ s.cfg.cmdPayloadMax → 12 ≤ b.length →
    12 + treeSize b ≤ b.length →
    (deserialize s.cfg.maxNodes (treeSlice b) = .malformed →
      exec (.decDecode (Operands.ofPayload b)) s = .next (answered s 0x22 0 [])) ∧
    (deserialize s.cfg.maxNodes (treeSlice b) = .treeCapacity →
      exec (.decDecode (Operands.ofPayload b)) s = .next (answered s 0x25 0 [])) ∧
    (∀ t rest n, deserialize s.cfg.maxNodes (treeSlice b) = .tree t rest n →
      let bits := unpack (payloadOf b)
      let out := (walk t bits (originalSize b)).1
      exec (.decDecode (Operands.ofPayload b)) s =
        .next (answered s (if out.length < originalSize b then 0x100 else 0) 0 out) ∧
      (∀ x w, t = .leaf x w → out = List.replicate (min (originalSize b) bits.length) x) ∧
      (∀ w l r, t = .composite w l r →
        ∃ (paths : List (List Bool)) (left : List Bool), bits = paths.flatten ++ left ∧
          List.Forall₂ (fun p x => ∃ w, nodeAt t p = some (.leaf x w)) paths out ∧ out.length ≤ originalSize b ∧
          (out.length < originalSize b → ∀ p, p <+: left → ∀ x w, nodeAt t p ≠ some (.leaf x w))))

/-- R240: for every non-empty data a legal encoder holds and every draw, ENC_ENCODE returns a buffer that DEC_DECODE, on
any machine whose parameters are legal and whose payload capacity it fits, turns back into the data with TRUNC = 0. (R240
is the spec's own inference, marked [derived]; the draws are log entry 3.) -/
def Obligations.DecodeOfEncodeIsTheData : Prop :=
  ∀ s u : State, Inv s → u.cfg.Legal → s.enc.consumed = false → s.enc.data ≠ [] →
    ∃ t b, exec (.encEncode Operands.none) s = .next t ∧ t.resps = s.resps ++ [⟨0, 0, b⟩] ∧
      (b.length ≤ u.cfg.cmdPayloadMax →
        exec (.decDecode (Operands.ofPayload b)) u = .next (answered u 0 0 s.enc.data))

/-- R241: N copies of one byte value: a lone Leaf in 2 tree bytes, `original_size = N`, `ceil(N/8)` zero payload bytes;
it decodes to the N copies. (R241 is the spec's own inference, marked [derived].) -/
def Obligations.OneSymbolRoundTrip : Prop :=
  ∀ (s u : State) (n : Nat) (x : Byte), Inv s → u.cfg.Legal → s.enc.consumed = false → 1 ≤ n →
    s.enc.data = List.replicate n x →
    let b := ([2, 0, 0, 0] : List Byte) ++ leBytes 8 n ++ [(0x80 : Byte) ||| (x >>> 1), x <<< 7] ++ List.replicate ((n + 7) / 8) 0
    (∃ t, exec (.encEncode Operands.none) s = .next t ∧ t.resps = s.resps ++ [⟨0, 0, b⟩]) ∧
    (b.length ≤ u.cfg.cmdPayloadMax →
      exec (.decDecode (Operands.ofPayload b)) u = .next (answered u 0 0 (List.replicate n x)))

/-- R239: a DEC_DECODE that ends with CODE OK returns at most `original_size` bytes and at most one byte per payload bit,
and TRUNC is 1 exactly when it returns fewer than `original_size` (R237). (R239 is the spec's own inference, marked
[derived].) -/
def Obligations.DecodedLengthIsBounded : Prop :=
  ∀ (s t : State) (b : List Byte) (r : Response), b.length < 2 ^ 32 → b.length ≤ s.cfg.cmdPayloadMax →
    exec (.decDecode (Operands.ofPayload b)) s = .next t → t.resps = s.resps ++ [r] →
    r.status.extractLsb' 0 8 = 0 →
    r.payload.length ≤ originalSize b ∧ r.payload.length ≤ 8 * (payloadOf b).length ∧
    (r.status.getLsbD 8 = true ↔ r.payload.length < originalSize b)

/-! ### Control (46_control.md, 10_state.md R34 to R38) -/

/-- CSR_READ returns the value of each CSR in every legal state (R261; 10_state.md R34 to R38). -/
def Obligations.CsrReadReturnsTheField : Prop :=
  ∀ s : State, Inv s →
    let read := fun (n : Byte) (v : Nat) =>
      exec (.csrRead (Operands.ofImm n)) s = .next (answered s 0 (BitVec.ofNat 32 v) [])
    read 0x00 s.bsrc.batch.toNat ∧ read 0x01 (num s.bsrc.isOpen + 2 * s.bsrc.bpos.toNat) ∧
    read 0x02 (s.bsrc.buf.length - s.bsrc.rpos) ∧ read 0x03 s.bsnk.thresh.toNat ∧
    read 0x04 (num s.bsnk.isOpen + 2 * s.bsnk.nbits.toNat + 256 * s.bsnk.acc.toNat) ∧
    read 0x05 s.bsnk.buf.length ∧ read 0x06 (num s.enc.consumed) ∧ read 0x07 (s.enc.total.toNat % 2 ^ 32) ∧
    read 0x08 (s.enc.total.toNat / 2 ^ 32) ∧
    read 0x09 ((List.range 256).filter fun n => BitVec.ofNat 8 n ∈ s.enc.data).length ∧
    read 0x0A (num s.tree.isSome + match s.tree with | some (.leaf _ _) => 2 | _ => 0) ∧
    read 0x0B (match s.tree with | some t => treeNodes t | none => 0) ∧
    read 0x0C (match s.tree with | some t => treeLeaves t | none => 0) ∧
    read 0x10 s.cfg.srcBufCap ∧ read 0x11 s.cfg.snkBufCap ∧ read 0x12 s.cfg.maxNodes ∧
    read 0x13 (s.cfg.chunkCap % 2 ^ 32) ∧ read 0x14 (s.cfg.chunkCap / 2 ^ 32) ∧ read 0x15 s.cfg.cmdPayloadMax ∧
    read 0x16 0x31465548

/-- R230, R260: the frame of CSR_READ and DEC_DECODE, in every form: nothing but the response. -/
def Obligations.CsrReadAndDecodeFrame : Prop :=
  ∀ (o : Operands) (i : Instr) (s t : State), i = .csrRead o ∨ i = .decDecode o → exec i s = .next t →
    ∃ r, t = { s with eng := .idle, resps := s.resps ++ [r] }

end Claims
end

