-- ==== Sys2Proof/Laws/Bits.lean ====
section
/-! SUPPORT. Lemmas of bit sequences: a byte and its bits, pack and unpack, little-endian integers. -/

namespace Sys2Proof.Machine

@[simp] theorem byteBits_length (b : Byte) : (byteBits b).length = 8 := rfl

theorem byteOfBits_byteBits (b : Byte) : byteOfBits (byteBits b) = b := by
  revert b; decide +kernel

/-- Bits past the end count as 0. -/
theorem bitsToNat_append_false (n k : Nat) (bs : List Bool) :
    bitsToNat n (bs ++ List.replicate k false) = bitsToNat n bs := by
  induction n generalizing bs k with
  | zero => rfl
  | succ n ih =>
    cases bs with
    | nil =>
      cases k with
      | zero => simp
      | succ k => simpa [bitsToNat, List.replicate_succ] using ih k []
    | cons b bs => simpa [bitsToNat] using ih k bs

/-- Only the first `n` bits count. -/
theorem bitsToNat_append_of_le (n : Nat) (bs rest : List Bool) (h : n ≤ bs.length) :
    bitsToNat n (bs ++ rest) = bitsToNat n bs := by
  induction n generalizing bs with
  | zero => rfl
  | succ n ih =>
    cases bs with
    | nil => simp at h
    | cons b bs => simp only [List.length_cons, Nat.add_le_add_iff_right] at h; simp [bitsToNat, ih bs h]

/-- Bits after the eighth do not count. -/
theorem byteOfBits_append (bs rest : List Bool) (h : 8 ≤ bs.length) : byteOfBits (bs ++ rest) = byteOfBits bs := by
  rw [byteOfBits, bitsToNat_append_of_le 8 bs rest h, byteOfBits]

theorem byteBits_byteOfBits_full (bs : List Bool) (h : bs.length = 8) : byteBits (byteOfBits bs) = bs := by
  obtain ⟨a, b, c, d, e, f, g, i, rfl⟩ : ∃ a b c d e f g i, bs = [a, b, c, d, e, f, g, i] := by
    match bs, h with
    | [a, b, c, d, e, f, g, i], _ => exact ⟨a, b, c, d, e, f, g, i, rfl⟩
  clear h
  revert a b c d e f g i
  decide +kernel

/-- The bits of a packed byte: the bits packed, then zeros. -/
theorem byteBits_byteOfBits (bs : List Bool) (h : bs.length ≤ 8) :
    byteBits (byteOfBits bs) = bs ++ List.replicate (8 - bs.length) false := by
  have e : byteOfBits bs = byteOfBits (bs ++ List.replicate (8 - bs.length) false) := by
    rw [byteOfBits, byteOfBits, bitsToNat_append_false]
  rw [e, byteBits_byteOfBits_full]
  simp; omega

@[simp] theorem packBytes_length (n : Nat) (c : List Bool) : (packBytes n c).length = n := by
  induction n generalizing c with
  | zero => rfl
  | succ n ih => simp [packBytes, ih]

@[simp] theorem pack_length (c : List Bool) : (pack c).length = (c.length + 7) / 8 := by simp [pack]

@[simp] theorem pack_nil : pack [] = [] := rfl

/-- `pack` byte by byte. -/
theorem pack_cons (c : List Bool) (h : c ≠ []) : pack c = byteOfBits (c.take 8) :: pack (c.drop 8) := by
  have hl : 0 < c.length := List.length_pos_iff.2 h
  have e : (c.length + 7) / 8 = ((c.drop 8).length + 7) / 8 + 1 := by
    rw [List.length_drop]; omega
  rw [pack, e, packBytes, pack]

@[simp] theorem unpack_nil : unpack [] = [] := rfl

@[simp] theorem unpack_cons (b : Byte) (s : List Byte) : unpack (b :: s) = byteBits b ++ unpack s := by
  simp [unpack]

@[simp] theorem unpack_append (s u : List Byte) : unpack (s ++ u) = unpack s ++ unpack u := by
  simp [unpack]

@[simp] theorem unpack_length (s : List Byte) : (unpack s).length = 8 * s.length := by
  induction s with
  | nil => rfl
  | cons b s ih => simp [ih]; omega

/-- Unpacking drops whole bytes. -/
theorem unpack_drop (s : List Byte) (n : Nat) : (unpack s).drop (8 * n) = unpack (s.drop n) := by
  induction n generalizing s with
  | zero => rfl
  | succ n ih =>
    cases s with
    | nil => simp
    | cons b s =>
      rw [unpack_cons, List.drop_succ_cons, ← ih, List.drop_append]
      have e : 8 * (n + 1) - (byteBits b).length = 8 * n := by simp; omega
      rw [e, List.drop_of_length_le (by simp), List.nil_append]

/-- `unpack(pack(c))` is `c` and then zero bits up to a byte boundary (42_bitsink.md R143). -/
theorem unpack_pack (c : List Bool) :
    unpack (pack c) = c ++ List.replicate (8 * ((c.length + 7) / 8) - c.length) false := by
  induction hn : c.length using Nat.strong_induction_on generalizing c with
  | _ n ih =>
    subst hn
    by_cases h : c = []
    · subst h; rfl
    · have hl : 0 < c.length := List.length_pos_iff.2 h
      rw [pack_cons c h, unpack_cons, ih (c.drop 8).length (by simp; omega) (c.drop 8) rfl,
        byteBits_byteOfBits _ (by simp)]
      by_cases h8 : 8 ≤ c.length
      · have e0 : 8 - (c.take 8).length = 0 := by simp; omega
        rw [e0, List.replicate_zero, List.append_nil, ← List.append_assoc, List.take_append_drop]
        congr 2
        rw [List.length_drop]; omega
      · have e1 : c.take 8 = c := List.take_of_length_le (by omega)
        have e2 : c.drop 8 = [] := List.drop_of_length_le (by omega)
        rw [e1, e2]
        have e3 : 8 * ((c.length + 7) / 8) - c.length = 8 - c.length := by omega
        simp [e3]

/-- Packing whole bytes gives them back. -/
theorem pack_unpack (s : List Byte) : pack (unpack s) = s := by
  induction s with
  | nil => rfl
  | cons b s ih =>
    rw [pack_cons _ (by simp [byteBits]), unpack_cons, List.take_append_of_le_length (by simp),
      List.take_of_length_le (by simp), byteOfBits_byteBits, List.drop_append_of_le_length (by simp),
      List.drop_of_length_le (by simp), List.nil_append, ih]

/-- Whole bytes before the bits to pack are packed as they stand. -/
theorem pack_unpack_append (s : List Byte) (c : List Bool) : pack (unpack s ++ c) = s ++ pack c := by
  induction s with
  | nil => rfl
  | cons b s ih =>
    rw [pack_cons _ (by simp [byteBits]), unpack_cons, List.append_assoc, List.take_append_of_le_length (by simp),
      List.take_of_length_le (by simp), byteOfBits_byteBits, List.drop_append_of_le_length (by simp),
      List.drop_of_length_le (by simp), List.nil_append, ih, List.cons_append]

/-- Reading a byte's bits back. -/
theorem readByte_byteBits (b : Byte) (rest : List Bool) : readByte (byteBits b ++ rest) = some (b, rest) := by
  rw [readByte, if_neg (by simp), byteOfBits_append _ _ (by simp), byteOfBits_byteBits,
    List.drop_append_of_le_length (by simp), List.drop_of_length_le (by simp), List.nil_append]

/-- What reading a byte answers: its bits are the first eight. -/
theorem readByte_eq_some {bits rest : List Bool} {v : Byte} (h : readByte bits = some (v, rest)) :
    bits = byteBits v ++ rest := by
  unfold readByte at h
  split at h
  · cases h
  · cases h
    have hl : (bits.take 8).length = 8 := by simp; omega
    have e : byteOfBits bits = byteOfBits (bits.take 8) := by
      conv_lhs => rw [← List.take_append_drop 8 bits]
      exact byteOfBits_append _ _ (by omega)
    rw [e, byteBits_byteOfBits_full _ hl, List.take_append_drop]

/-! ### Little-endian integers -/

@[simp] theorem leBytes_length (n v : Nat) : (leBytes n v).length = n := by
  induction n generalizing v with
  | zero => rfl
  | succ n ih => simp [leBytes, ih]

/-- The little-endian bytes of a value that fits give it back (00_scope.md R17). -/
theorem fromLe_leBytes (n v : Nat) (h : v < 256 ^ n) : fromLe (leBytes n v) = v := by
  induction n generalizing v with
  | zero => simp [leBytes, fromLe] at *; omega
  | succ n ih =>
    rw [leBytes, fromLe, ih (v / 256) (by rw [Nat.div_lt_iff_lt_mul (by decide)]; rw [pow_succ] at h; exact h)]
    simp only [BitVec.toNat_ofNat]
    omega

/-- A little-endian byte sequence is below its bound. -/
theorem fromLe_lt (s : List Byte) : fromLe s < 256 ^ s.length := by
  induction s with
  | nil => simp [fromLe]
  | cons b s ih =>
    have := b.isLt
    simp only [fromLe, List.length_cons, pow_succ]
    omega

end Sys2Proof.Machine
end

