-- ==== Sys2Proof/Laws/Tree.lean ====
section
/-! SUPPORT. Lemmas of the tree operations: shape, picking and building, serializing and parsing, codes. -/

namespace Sys2Proof.Machine

/-! ### Shape -/

@[simp] theorem treeWeight_leaf (s : Byte) (w : Weight) : treeWeight (.leaf s w) = w := rfl
@[simp] theorem treeWeight_composite (w : Weight) (l r : FreqTree) : treeWeight (.composite w l r) = w := rfl

theorem treeLeaves_pos (t : FreqTree) : 0 < treeLeaves t := by
  induction t with
  | leaf => exact Nat.one_pos
  | composite w l r ihl ihr => simp [treeLeaves]; omega

/-- A full tree with L Leaves has `2L - 1` nodes (10_state.md R30). -/
theorem treeNodes_eq (t : FreqTree) : treeNodes t + 1 = 2 * treeLeaves t := by
  induction t with
  | leaf => rfl
  | composite w l r ihl ihr => simp [treeNodes, treeLeaves]; omega

theorem treeLeafList_length (t : FreqTree) : (treeLeafList t).length = treeLeaves t := by
  induction t with
  | leaf => rfl
  | composite w l r ihl ihr => simp [treeLeafList, treeLeaves, ihl, ihr]

@[simp] theorem treeNodes_zeroWeights (t : FreqTree) : treeNodes (zeroWeights t) = treeNodes t := by
  induction t with
  | leaf => rfl
  | composite w l r ihl ihr => simp [zeroWeights, treeNodes, ihl, ihr]

@[simp] theorem treeLeaves_zeroWeights (t : FreqTree) : treeLeaves (zeroWeights t) = treeLeaves t := by
  induction t with
  | leaf => rfl
  | composite w l r ihl ihr => simp [zeroWeights, treeLeaves, ihl, ihr]

@[simp] theorem zeroWeights_zeroWeights (t : FreqTree) : zeroWeights (zeroWeights t) = zeroWeights t := by
  induction t with
  | leaf => rfl
  | composite w l r ihl ihr => simp [zeroWeights, ihl, ihr]

@[simp] theorem codeOf_zeroWeights (t : FreqTree) (b : Byte) : codeOf (zeroWeights t) b = codeOf t b := by
  induction t with
  | leaf => rfl
  | composite w l r ihl ihr => simp [zeroWeights, codeOf, ihl, ihr]

@[simp] theorem serialize_zeroWeights (t : FreqTree) : serialize (zeroWeights t) = serialize t := by
  induction t with
  | leaf => rfl
  | composite w l r ihl ihr => simp [zeroWeights, serialize, ihl, ihr]

/-! ### Picking (43_tree.md R162) -/

theorem leastWeight_le {q : List FreqTree} {t : FreqTree} (h : t ∈ q) : leastWeight q ≤ (treeWeight t).toNat := by
  induction q with
  | nil => cases h
  | cons u q ih =>
    cases q with
    | nil => simp at h; subst h; simp [leastWeight]
    | cons v q =>
      simp only [leastWeight]
      rcases List.mem_cons.1 h with rfl | h
      · exact Nat.min_le_left _ _
      · exact (Nat.min_le_right _ _).trans (ih h)

theorem leastWeight_mem {q : List FreqTree} (h : q ≠ []) : ∃ t ∈ q, (treeWeight t).toNat = leastWeight q := by
  induction q with
  | nil => exact absurd rfl h
  | cons u q ih =>
    cases q with
    | nil => exact ⟨u, by simp, rfl⟩
    | cons v q =>
      obtain ⟨t, ht, e⟩ := ih (by simp)
      by_cases hle : (treeWeight u).toNat ≤ leastWeight (v :: q)
      · exact ⟨u, by simp, by simp [leastWeight, Nat.min_eq_left hle]⟩
      · exact ⟨t, List.mem_cons_of_mem _ ht, by simp only [leastWeight]; omega⟩

/-- What taking a node of a weight answers. -/
theorem takeWeight_spec {w j : Nat} {q q' : List FreqTree} {x : FreqTree} (h : takeWeight w j q = some (x, q')) :
    (treeWeight x).toNat = w ∧ q.Perm (x :: q') := by
  induction q generalizing j q' with
  | nil => simp [takeWeight] at h
  | cons t q ih =>
    have rest : ∀ {j' : Nat}, (takeWeight w j' q).map (fun r => (r.1, t :: r.2)) = some (x, q') →
        (treeWeight x).toNat = w ∧ (t :: q).Perm (x :: q') := by
      intro j' h
      simp only [Option.map_eq_some_iff] at h
      obtain ⟨⟨y, p⟩, hy, e⟩ := h
      cases e
      obtain ⟨hw, hp⟩ := ih hy
      exact ⟨hw, (hp.cons t).trans (List.Perm.swap _ _ _)⟩
    unfold takeWeight at h
    split at h
    · split at h
      · cases h; exact ⟨‹_›, List.Perm.refl _⟩
      · exact rest h
    · exact rest h

/-- Every node of the weight can be taken, by its number among them. -/
theorem takeWeight_some {w j : Nat} {q : List FreqTree} (h : j < countWeight w q) : (takeWeight w j q).isSome := by
  induction q generalizing j with
  | nil => simp [countWeight] at h
  | cons t q ih =>
    unfold takeWeight
    split
    · next e =>
      split
      · rfl
      · simp only [Option.isSome_map]
        apply ih
        simp only [countWeight, List.countP_cons, e, decide_true, if_true] at h ⊢
        omega
    · next e =>
      simp only [Option.isSome_map]
      apply ih
      simpa [countWeight, List.countP_cons, e] using h

theorem takeWeight_reach {w : Nat} {q : List FreqTree} {x : FreqTree} (hx : x ∈ q) (hw : (treeWeight x).toNat = w) :
    ∃ j q', j < countWeight w q ∧ takeWeight w j q = some (x, q') := by
  induction q with
  | nil => cases hx
  | cons t q ih =>
    by_cases e : (treeWeight t).toNat = w
    · rcases List.mem_cons.1 hx with rfl | hx
      · exact ⟨0, q, by simp [countWeight, e], by simp [takeWeight, e]⟩
      · obtain ⟨j, q', hj, h⟩ := ih hx
        exact ⟨j + 1, t :: q', by simpa [countWeight, List.countP_cons, e] using hj, by simp [takeWeight, e, h]⟩
    · rcases List.mem_cons.1 hx with rfl | hx
      · exact absurd hw e
      · obtain ⟨j, q', hj, h⟩ := ih hx
        refine ⟨j, t :: q', by simpa [countWeight, List.countP_cons, e] using hj, ?_⟩
        unfold takeWeight
        rw [if_neg e, h]; rfl

theorem countWeight_least_pos {q : List FreqTree} (h : q ≠ []) : 0 < countWeight (leastWeight q) q := by
  obtain ⟨t, ht, e⟩ := leastWeight_mem h
  exact List.countP_pos_iff.2 ⟨t, ht, by simpa using e⟩

/-- A Pick from a nonempty collection answers a node of least weight and the rest of the collection. -/
theorem pickNode_spec (d : Nat) {q : List FreqTree} (h : q ≠ []) :
    ∃ x q', pickNode d q = some (x, q') ∧ q.Perm (x :: q') ∧ ∀ y ∈ q, (treeWeight x).toNat ≤ (treeWeight y).toNat := by
  have hp := countWeight_least_pos h
  have hs : (pickNode d q).isSome := by
    unfold pickNode
    apply takeWeight_some
    split
    · exact hp
    · exact Nat.mod_lt _ hp
  obtain ⟨⟨x, q'⟩, e⟩ := Option.isSome_iff_exists.1 hs
  obtain ⟨hw, hq⟩ := takeWeight_spec e
  exact ⟨x, q', e, hq, fun y hy => hw ▸ leastWeight_le hy⟩

/-! ### Building (43_tree.md R161, R162, R164) -/

/-- The sum of the weights of a collection. -/
def totalWeight (q : List FreqTree) : Nat := (q.map fun t => (treeWeight t).toNat).sum

/-- The Leaves of a collection. -/
def allLeaves (q : List FreqTree) : List (Byte × Weight) := q.flatMap treeLeafList

theorem totalWeight_perm {p q : List FreqTree} (h : p.Perm q) : totalWeight p = totalWeight q :=
  (h.map _).sum_eq

theorem allLeaves_perm {p q : List FreqTree} (h : p.Perm q) : (allLeaves p).Perm (allLeaves q) :=
  h.flatMap_right _

/-- The merge loop from a nonempty collection: it ends with a root that has exactly the Leaves of the collection; its
weights are sums, and no sum overflows, when those of the collection are and their total fits. -/
theorem mergeLoop_spec (draw : Nat → Nat) (fuel k : Nat) (q : List FreqTree) (h : q ≠ []) (hf : q.length ≤ fuel + 1) :
    ∃ t, (mergeLoop draw fuel k q).1 = some t ∧ (treeLeafList t).Perm (allLeaves q) ∧
      (totalWeight q < 2 ^ 72 → (∀ u ∈ q, WeightsSum u) → WeightsSum t ∧ (treeWeight t).toNat = totalWeight q) := by
  induction fuel generalizing k q with
  | zero =>
    match q, h, hf with
    | [t], _, _ => exact ⟨t, rfl, by simp [allLeaves], fun _ hs => ⟨hs t (by simp), by simp [totalWeight]⟩⟩
  | succ fuel ih =>
    match q, h, hf with
    | [t], _, _ => exact ⟨t, rfl, by simp [allLeaves], fun _ hs => ⟨hs t (by simp), by simp [totalWeight]⟩⟩
    | a :: b :: q, _, hf =>
      obtain ⟨x, q1, e1, p1, -⟩ := pickNode_spec (draw k) (q := a :: b :: q) (by simp)
      have hq1 : q1 ≠ [] := by rintro rfl; have := p1.length_eq; simp at this
      obtain ⟨y, q2, e2, p2, -⟩ := pickNode_spec (draw (k + 1)) hq1
      have l1 := p1.length_eq
      have l2 := p2.length_eq
      simp only [List.length_cons] at l1 l2 hf
      obtain ⟨t, ht, hl, hw⟩ := ih (k + 2) (q2 ++ [.composite (treeWeight x + treeWeight y) x y]) (by simp)
        (by simp; omega)
      have pp : (a :: b :: q).Perm (x :: y :: q2) := p1.trans (p2.cons x)
      refine ⟨t, ?_, ?_, ?_⟩
      · simp only [mergeLoop, e1, e2, ht]
      · refine hl.trans ?_
        refine List.Perm.trans ?_ (allLeaves_perm pp).symm
        simp only [allLeaves, List.flatMap_append, List.flatMap_cons, List.flatMap_nil, List.append_nil, treeLeafList]
        rw [← List.append_assoc (treeLeafList x)]
        exact List.perm_append_comm
      · intro hb hs
        have ht : totalWeight (a :: b :: q) = (treeWeight x).toNat + (treeWeight y).toNat + totalWeight q2 := by
          rw [totalWeight_perm pp]; simp [totalWeight]; omega
        have hx : WeightsSum x := hs x (pp.mem_iff.2 (by simp))
        have hy : WeightsSum y := hs y (pp.mem_iff.2 (by simp))
        have hc : (treeWeight x + treeWeight y).toNat = (treeWeight x).toNat + (treeWeight y).toNat := by
          rw [BitVec.toNat_add, Nat.mod_eq_of_lt (by omega)]
        have e : totalWeight (q2 ++ [.composite (treeWeight x + treeWeight y) x y]) = totalWeight (a :: b :: q) := by
          rw [ht]; simp only [totalWeight, List.map_append, List.sum_append, List.map_cons, List.map_nil,
            List.sum_cons, List.sum_nil, treeWeight_composite, hc]; omega
        rw [← e]
        apply hw (by omega)
        intro u hu
        rcases List.mem_append.1 hu with hu | hu
        · exact hs u (pp.mem_iff.2 (by simp [hu]))
        · simp at hu; subst hu; exact ⟨hc, hx, hy⟩

/-- The Leaves of the seed: one per nonzero count, in order. -/
theorem mem_seedLeaves {b : Nat} {f : List Count} {t : FreqTree} :
    t ∈ seedLeaves b f ↔ ∃ i c, f[i]? = some c ∧ c ≠ 0 ∧ t = .leaf (BitVec.ofNat 8 (b + i)) (c.zeroExtend 72) := by
  induction f generalizing b with
  | nil => simp [seedLeaves]
  | cons c f ih =>
    have key : t ∈ seedLeaves (b + 1) f ↔
        ∃ i c', (c :: f)[i + 1]? = some c' ∧ c' ≠ 0 ∧ t = .leaf (BitVec.ofNat 8 (b + (i + 1))) (c'.zeroExtend 72) := by
      rw [ih]
      simp only [List.getElem?_cons_succ, Nat.add_assoc, Nat.add_comm 1]
    unfold seedLeaves
    constructor
    · intro h
      split at h
      · obtain ⟨i, c', h⟩ := key.1 h; exact ⟨i + 1, c', h⟩
      · rcases List.mem_cons.1 h with rfl | h
        · exact ⟨0, c, rfl, ‹_›, rfl⟩
        · obtain ⟨i, c', h⟩ := key.1 h; exact ⟨i + 1, c', h⟩
    · rintro ⟨i, c', h0, h1, h2⟩
      cases i with
      | zero =>
        simp at h0; subst h0
        rw [if_neg h1]; simp [h2]
      | succ i =>
        have := key.2 ⟨i, c', h0, h1, h2⟩
        split
        · exact this
        · exact List.mem_cons_of_mem _ this

theorem allLeaves_seed (b : Nat) (f : List Count) :
    allLeaves (seedLeaves b f) = (seedLeaves b f).flatMap treeLeafList := rfl

/-- The byte values of the seed's Leaves are distinct when they fit a byte. -/
theorem seed_nodup (b : Nat) (f : List Count) (h : b + f.length ≤ 256) :
    ((allLeaves (seedLeaves b f)).map (·.1)).Nodup := by
  induction f generalizing b with
  | nil => simp [seedLeaves, allLeaves]
  | cons c f ih =>
    simp only [List.length_cons] at h
    have := ih (b + 1) (by omega)
    unfold seedLeaves
    split
    · exact this
    · simp only [allLeaves, List.flatMap_cons, treeLeafList, List.cons_append, List.nil_append, List.map_cons,
        List.nodup_cons]
      refine ⟨?_, this⟩
      intro hm
      simp only [List.mem_map, List.mem_flatMap] at hm
      obtain ⟨e, ⟨u, hu, he⟩, e1⟩ := hm
      obtain ⟨i, c', h0, -, rfl⟩ := mem_seedLeaves.1 hu
      have hi : i < f.length := by
        by_contra hc; rw [List.getElem?_eq_none (by omega)] at h0; cases h0
      simp [treeLeafList] at he
      subst he
      have := congrArg BitVec.toNat e1
      simp only [BitVec.toNat_ofNat] at this
      omega

theorem seed_weights (b : Nat) (f : List Count) : ∀ u ∈ seedLeaves b f, WeightsSum u := by
  intro u hu
  obtain ⟨i, c, -, -, rfl⟩ := mem_seedLeaves.1 hu
  trivial

theorem seed_total (b : Nat) (f : List Count) : totalWeight (seedLeaves b f) ≤ f.length * (2 ^ 64 - 1) := by
  induction f generalizing b with
  | nil => simp [seedLeaves, totalWeight]
  | cons c f ih =>
    have := ih (b + 1)
    unfold seedLeaves
    split
    · rw [List.length_cons, Nat.succ_mul]; exact this.trans (Nat.le_add_right _ _)
    · simp only [totalWeight, List.map_cons, List.sum_cons, treeWeight_leaf, List.length_cons]
      have hc : (c.zeroExtend 72 : Weight).toNat < 2 ^ 64 := by
        simp only [BitVec.truncate_eq_setWidth, BitVec.toNat_setWidth]
        have := c.isLt
        omega
      simp only [totalWeight] at this
      omega

theorem seed_length (b : Nat) (f : List Count) : (seedLeaves b f).length = f.countP (· ≠ 0) := by
  induction f generalizing b with
  | nil => rfl
  | cons c f ih =>
    unfold seedLeaves
    split
    · next h => rw [ih, List.countP_cons]; simp [h]
    · next h => rw [List.length_cons, ih, List.countP_cons]; simpa using h

/-- EMPTY exactly when every count is 0 (R164). -/
theorem buildTree_none_iff (draw : Nat → Nat) (k : Nat) (f : List Count) :
    (buildTree draw k f).1 = none ↔ ∀ c ∈ f, c = 0 := by
  have hl := seed_length 0 f
  by_cases h : seedLeaves 0 f = []
  · have hz : f.countP (· ≠ 0) = 0 := by rw [← hl, h]; rfl
    rw [List.countP_eq_zero] at hz
    constructor
    · intro _ c hc; simpa using hz c hc
    · intro _; simp [buildTree, h, mergeLoop]
  · obtain ⟨t, ht, -⟩ := mergeLoop_spec draw (seedLeaves 0 f).length k _ h (by omega)
    constructor
    · intro hn; rw [buildTree] at hn; simp only [ht] at hn; cases hn
    · intro hz
      exfalso
      apply h
      apply List.length_eq_zero_iff.1
      rw [hl, List.countP_eq_zero]
      intro c hc; simp [hz c hc]

/-- A built tree has exactly one Leaf per nonzero count, with that count as its weight, and its weights are sums
(R161). -/
theorem buildTree_some {draw : Nat → Nat} {k : Nat} {f : List Count} {t : FreqTree} (hf : f.length ≤ 256)
    (h : (buildTree draw k f).1 = some t) :
    BuiltTree t ∧ treeLeaves t = f.countP (· ≠ 0) ∧
      ∀ e : Byte × Weight, e ∈ treeLeafList t ↔ ∃ c, f[e.1.toNat]? = some c ∧ c ≠ 0 ∧ e.2 = c.zeroExtend 72 := by
  have hq : seedLeaves 0 f ≠ [] := by
    intro e
    simp [buildTree, e, mergeLoop] at h
  obtain ⟨u, hu, hl, hw⟩ := mergeLoop_spec draw (seedLeaves 0 f).length k _ hq (by omega)
  have e : u = t := by
    rw [buildTree] at h; simp only [hu] at h; exact Option.some.inj h
  subst e
  have hmem : ∀ e : Byte × Weight, e ∈ treeLeafList u ↔
      ∃ c, f[e.1.toNat]? = some c ∧ c ≠ 0 ∧ e.2 = c.zeroExtend 72 := by
    intro e
    rw [hl.mem_iff]
    simp only [allLeaves, List.mem_flatMap]
    constructor
    · rintro ⟨v, hv, he⟩
      obtain ⟨i, c, h0, h1, rfl⟩ := mem_seedLeaves.1 hv
      have hi : i < f.length := by
        by_contra hc; rw [List.getElem?_eq_none (by omega)] at h0; cases h0
      simp [treeLeafList] at he
      subst he
      refine ⟨c, ?_, h1, rfl⟩
      simp only [BitVec.toNat_ofNat]
      rw [Nat.mod_eq_of_lt (by omega)]; exact h0
    · rintro ⟨c, h0, h1, h2⟩
      refine ⟨_, mem_seedLeaves.2 ⟨e.1.toNat, c, h0, h1, rfl⟩, ?_⟩
      simp only [treeLeafList, Nat.zero_add, BitVec.ofNat_toNat, BitVec.setWidth_eq, ← h2, List.mem_singleton]
  refine ⟨⟨?_, ?_, ?_⟩, ?_, hmem⟩
  · exact (hl.map _).nodup_iff.2 (seed_nodup 0 f (by omega))
  · intro e he
    obtain ⟨c, -, h1, h2⟩ := (hmem e).1 he
    rw [h2]
    intro hc
    apply h1
    apply BitVec.eq_of_toNat_eq
    have h0 := congrArg BitVec.toNat hc
    simp only [BitVec.truncate_eq_setWidth, BitVec.toNat_setWidth] at h0
    have hlt := c.isLt
    rw [Nat.mod_eq_of_lt (by omega)] at h0
    exact h0
  · refine (hw ?_ (seed_weights 0 f)).1
    have := seed_total 0 f
    omega
  · rw [← treeLeafList_length, hl.length_eq, ← seed_length 0 f]
    have : ∀ q : List FreqTree, (∀ v ∈ q, (treeLeafList v).length = 1) → (allLeaves q).length = q.length := by
      intro q hq
      induction q with
      | nil => rfl
      | cons v q ih =>
        have h1 := hq v (by simp)
        have h2 := ih fun x hx => hq x (List.mem_cons_of_mem _ hx)
        simp only [allLeaves, List.flatMap_cons, List.length_append, List.length_cons] at h2 ⊢
        omega
    apply this
    intro v hv
    obtain ⟨i, c, -, -, rfl⟩ := mem_seedLeaves.1 hv
    rfl

/-! ### Serializing and parsing (43_tree.md R166, R169, R175) -/

theorem serialize_length (t : FreqTree) : (serialize t).length + 1 = 10 * treeLeaves t := by
  induction t with
  | leaf => rfl
  | composite w l r ihl ihr => simp [serialize, treeLeaves]; omega

/-- Parsing the serialized bits of a tree that fits gives its shape back and leaves what follows (R175). -/
theorem parseTree_serialize (max : Nat) (t : FreqTree) (fuel n : Nat) (rest : List Bool) (hf : treeNodes t ≤ fuel)
    (hn : n + treeNodes t ≤ max) :
    parseTree max fuel (serialize t ++ rest) n = .tree (zeroWeights t) rest (n + treeNodes t) := by
  induction t generalizing fuel n rest with
  | leaf s w =>
    obtain ⟨fuel, rfl⟩ : ∃ f, fuel = f + 1 := ⟨fuel - 1, by simp [treeNodes] at hf; omega⟩
    simp only [treeNodes] at hn
    simp only [serialize, List.cons_append, parseTree, if_neg (Nat.not_lt.2 hn), if_true, readByte_byteBits]
    rfl
  | composite w l r ihl ihr =>
    obtain ⟨fuel, rfl⟩ : ∃ f, fuel = f + 1 := ⟨fuel - 1, by simp [treeNodes] at hf; omega⟩
    simp only [treeNodes] at hf hn
    simp only [serialize, List.cons_append, List.append_assoc, parseTree, if_neg (Nat.not_lt.2 (by omega : n + 1 ≤ max)),
      Bool.false_eq_true, if_false]
    rw [ihl fuel (n + 1) _ (by omega) (by omega)]
    simp only []
    rw [ihr fuel _ rest (by omega) (by omega)]
    simp only [zeroWeights, treeNodes, ParseEnd.tree.injEq, true_and]
    omega

/-- What a successful parse answers: the bits before the rest are the tree's serialized form, its weights are 0, and
every node was counted and allowed. -/
theorem parseTree_tree {max fuel n m : Nat} {bits rest : List Bool} {t : FreqTree}
    (h : parseTree max fuel bits n = .tree t rest m) :
    bits = serialize t ++ rest ∧ zeroWeights t = t ∧ m = n + treeNodes t ∧ m ≤ max := by
  induction fuel generalizing bits n m t rest with
  | zero => cases bits <;> simp [parseTree] at h
  | succ fuel ih =>
    cases bits with
    | nil => simp [parseTree] at h
    | cons b bits =>
      unfold parseTree at h
      split at h
      · cases h
      · split at h
        · split at h
          · cases h
          · next v r hr =>
            cases h
            subst_vars
            simp only [serialize, List.cons_append, zeroWeights, treeNodes, true_and, ← readByte_eq_some hr]
            omega
        · split at h
          · next l r m1 hl =>
            split at h
            · next rt r2 m2 hr =>
              cases h
              obtain ⟨a1, a2, a3, a4⟩ := ih hl
              obtain ⟨b1, b2, b3, b4⟩ := ih hr
              have hb : b = false := by simpa using ‹¬b = true›
              subst hb a1 b1
              refine ⟨by simp [serialize], by simp [zeroWeights, a2, b2], ?_, b4⟩
              simp only [treeNodes]; omega
            · next e => exact absurd h (e _ _ _)
          · next e => exact absurd h (e _ _ _)

/-- `Deser(pack(Ser(t)))` reads exactly `len(Ser(t))` bits and returns `t` with every weight 0, whatever bytes follow
(R175, R169). -/
theorem deserialize_pack (max : Nat) (t : FreqTree) (more : List Byte) (h : treeNodes t ≤ max) :
    ∃ rest, deserialize max (pack (serialize t) ++ more) = .tree (zeroWeights t) rest (treeNodes t) ∧
      rest.length + (serialize t).length = 8 * ((pack (serialize t)).length + more.length) := by
  have key := parseTree_serialize max t max 0
    (List.replicate (8 * (((serialize t).length + 7) / 8) - (serialize t).length) false ++ unpack more) h (by omega)
  rw [← List.append_assoc, ← unpack_pack, ← unpack_append, Nat.zero_add] at key
  refine ⟨_, key, ?_⟩
  simp only [List.length_append, List.length_replicate, unpack_length, pack_length]
  omega

/-! ### Codes (43_tree.md R171, R174) -/

/-- The code of a byte value leads to a Leaf that holds it (R171). -/
theorem codeOf_leads {t : FreqTree} {b : Byte} {p : List Bool} (h : codeOf t b = some p) :
    ∃ w, nodeAt t p = some (.leaf b w) := by
  induction t generalizing p with
  | leaf s w =>
    simp only [codeOf] at h
    split at h
    · cases h; subst_vars; exact ⟨w, rfl⟩
    · cases h
  | composite w l r ihl ihr =>
    simp only [codeOf] at h
    split at h
    · next q hq => cases h; exact ihl hq
    · simp only [Option.map_eq_some_iff] at h
      obtain ⟨q, hq, rfl⟩ := h
      exact ihr hq

/-- A byte value has a code exactly when some Leaf holds it (R171). -/
theorem codeOf_isSome (t : FreqTree) (b : Byte) : (codeOf t b).isSome ↔ b ∈ (treeLeafList t).map (·.1) := by
  induction t with
  | leaf s w => simp only [codeOf, treeLeafList]; split <;> simp_all [eq_comm]
  | composite w l r ihl ihr =>
    simp only [codeOf, treeLeafList, List.map_append, List.mem_append, ← ihl, ← ihr]
    split <;> simp_all

/-- No path to a Leaf is a prefix of another (R174). -/
theorem nodeAt_leaf_prefix {t : FreqTree} {p q : List Bool} {s s' : Byte} {w w' : Weight}
    (hp : nodeAt t p = some (.leaf s w)) (hq : nodeAt t q = some (.leaf s' w')) (h : p <+: q) : p = q := by
  induction p generalizing t q with
  | nil =>
    cases q with
    | nil => rfl
    | cons c q => simp only [nodeAt] at hp; cases hp; simp [nodeAt] at hq
  | cons b p ih =>
    cases q with
    | nil => simp at h
    | cons c q =>
      obtain ⟨e, h'⟩ := List.cons_prefix_cons.1 h
      subst e
      cases t with
      | leaf => simp [nodeAt] at hp
      | composite w l r => rw [ih hp hq h']

theorem codeOf_composite_ne_nil {w : Weight} {l r : FreqTree} {b : Byte} {p : List Bool}
    (h : codeOf (.composite w l r) b = some p) : p ≠ [] := by
  simp only [codeOf] at h
  split at h
  · cases h; simp
  · simp only [Option.map_eq_some_iff] at h
    obtain ⟨q, -, rfl⟩ := h; simp

/-- The order of the collection does not matter to the merges (43_tree.md R162). -/
theorem MergesTo.perm {q q' : List FreqTree} {t : FreqTree} (h : MergesTo q t) (hp : q'.Perm q) : MergesTo q' t := by
  cases h with
  | root => rw [List.perm_singleton.1 hp]; exact .root t
  | merge h1 h2 h3 h4 => exact .merge (hp.trans h1) h2 h3 h4

/-- The root the merge loop answers is one that R162's merges make of the collection, whatever the draws. -/
theorem mergeLoop_merges (draw : Nat → Nat) (fuel k : Nat) (q : List FreqTree) {t : FreqTree}
    (h : (mergeLoop draw fuel k q).1 = some t) : MergesTo q t := by
  induction fuel generalizing k q with
  | zero =>
    match q, h with
    | [_], h => cases h; exact .root _
  | succ fuel ih =>
    match q, h with
    | [_], h => cases h; exact .root _
    | a :: b :: q, h =>
      obtain ⟨x, q1, e1, p1, l1⟩ := pickNode_spec (draw k) (q := a :: b :: q) (by simp)
      have hq1 : q1 ≠ [] := by rintro rfl; have := p1.length_eq; simp at this
      obtain ⟨y, q2, e2, p2, l2⟩ := pickNode_spec (draw (k + 1)) hq1
      simp only [mergeLoop, e1, e2] at h
      exact .merge (p1.trans (p2.cons x)) (fun z hz => l1 z (p1.mem_iff.2 (List.mem_cons_of_mem _ (p2.mem_iff.2 hz))))
        (fun z hz => l2 z (p2.mem_iff.2 (List.mem_cons_of_mem _ hz)))
        ((ih _ _ h).perm (List.perm_append_singleton _ _).symm)

/-- The draw counter never goes back. -/
theorem mergeLoop_draws (draw : Nat → Nat) (f k : Nat) (q : List FreqTree) : k ≤ (mergeLoop draw f k q).2 := by
  induction f generalizing k q with
  | zero => unfold mergeLoop; split <;> simp_all
  | succ f ih =>
    match q with
    | [] => simp [mergeLoop]
    | [t] => simp [mergeLoop]
    | a :: b :: q =>
      simp only [mergeLoop]
      split
      · simp
      · split
        · simp
        · exact le_trans (Nat.le_add_right _ 2) (ih _ _)

theorem buildTree_draws (draw : Nat → Nat) (k : Nat) (f : List Count) : k ≤ (buildTree draw k f).2 := mergeLoop_draws _ _ _ _

/-- Parsing a proper initial part of a serialized tree runs out of bits (43_tree.md R169). -/
theorem parseTree_cut (max : Nat) (t : FreqTree) (fuel n : Nat) (bits : List Bool) (hf : treeNodes t ≤ fuel) (hn : n + treeNodes t ≤ max)
    (hp : bits <+: serialize t) (hl : bits.length < (serialize t).length) : parseTree max fuel bits n = .malformed := by
  induction t generalizing fuel n bits with
  | leaf s w =>
    obtain ⟨fuel, rfl⟩ : ∃ f, fuel = f + 1 := ⟨fuel - 1, by simp [treeNodes] at hf; omega⟩
    cases bits with
    | nil => rfl
    | cons b bits =>
      simp only [serialize, List.cons_prefix_cons] at hp
      obtain ⟨rfl, hp⟩ := hp
      simp [serialize] at hl
      simp only [treeNodes] at hn
      simp only [parseTree, if_neg (Nat.not_lt.2 hn), if_true, readByte, if_pos (show bits.length < 8 by omega)]
  | composite w l r ihl ihr =>
    obtain ⟨fuel, rfl⟩ : ∃ f, fuel = f + 1 := ⟨fuel - 1, by simp [treeNodes] at hf; omega⟩
    cases bits with
    | nil => rfl
    | cons b bits =>
      simp only [serialize, List.cons_prefix_cons] at hp
      obtain ⟨rfl, hp⟩ := hp
      simp only [serialize, List.length_cons, List.length_append] at hl
      simp only [treeNodes] at hn hf
      simp only [parseTree, if_neg (show ¬ max < n + 1 by omega), Bool.false_eq_true, if_false]
      by_cases hb : bits.length < (serialize l).length
      · rw [ihl fuel (n+1) bits (by omega) (by omega) ?_ hb]
        exact List.prefix_of_prefix_length_le hp (List.prefix_append _ _) (by omega)
      · obtain ⟨rest, hr⟩ := List.prefix_of_prefix_length_le (List.prefix_append (serialize l) (serialize r)) hp (by omega)
        subst hr
        rw [parseTree_serialize max l fuel (n+1) rest (by omega) (by omega)]
        simp only
        rw [ihr fuel _ rest (by omega) (by omega) (by simpa using hp) (by simp at hl; omega)]

/-- Parsing a tree of more than `max` nodes meets the capacity (43_tree.md R169). -/
theorem parseTree_capacity (max : Nat) (t : FreqTree) (fuel n : Nat) (bits : List Bool) (hf : max ≤ n + fuel) (hnm : n ≤ max) (hn : max < n + treeNodes t)
    (hp : serialize t <+: bits) : parseTree max fuel bits n = .treeCapacity := by
  induction t generalizing fuel n bits with
  | leaf s w =>
    simp only [treeNodes] at hn
    obtain ⟨z, rfl⟩ := hp
    simp only [serialize, List.cons_append]
    cases fuel with
    | zero => rfl
    | succ fuel => simp only [parseTree, if_pos hn]
  | composite w l r ihl ihr =>
    obtain ⟨z, rfl⟩ := hp
    simp only [serialize, List.cons_append]
    cases fuel with
    | zero => rfl
    | succ fuel =>
      simp only [treeNodes] at hn
      simp only [parseTree]
      split
      · rfl
      · simp only [Bool.false_eq_true, if_false]
        by_cases hb : max < n + 1 + treeNodes l
        · rw [ihl fuel (n+1) _ (by omega) (by omega) hb (by simp [List.append_assoc])]
        · have := parseTree_serialize max l fuel (n+1) (serialize r ++ z) (by omega) (by omega)
          simp only [List.append_assoc] at this ⊢
          rw [this]
          simp only
          rw [ihr fuel _ _ (by omega) (by omega) (by omega) (List.prefix_append _ _)]

/-- A code is shorter than the number of Leaves. -/
theorem codeOf_length {t : FreqTree} {b : Byte} {p : List Bool} (h : codeOf t b = some p) : p.length < treeLeaves t := by
  induction t generalizing p with
  | leaf s w => simp only [codeOf] at h; split at h <;> cases h; simp [treeLeaves]
  | composite w l r ihl ihr =>
    have h1 := treeLeaves_pos l; have h2 := treeLeaves_pos r
    simp only [codeOf] at h
    simp only [treeLeaves]
    split at h
    · next q hq => cases h; have := ihl hq; simp; omega
    · simp only [Option.map_eq_some_iff] at h
      obtain ⟨q, hq, rfl⟩ := h; have := ihr hq; simp; omega

end Sys2Proof.Machine
end

