-- ==== Sys2Proof/Laws/Codec.lean ====
section
/-! SUPPORT. Lemmas of the decode walk (45_decoder.md R235 to R239) and of what it makes of an encoder's payload. -/

namespace Sys2Proof.Machine

/-- Walking along a code from inside the tree emits its byte and goes back to the root (R174, R235). -/
theorem walkTree_code (root : FreqTree) {node : FreqTree} {b : Byte} {p : List Bool} (h : codeOf node b = some p)
    (hp : p ≠ []) (rem : Nat) (rest : List Bool) :
    walkTree root node (rem + 1) (p ++ rest) =
      (b :: (walkTree root root rem rest).1, (walkTree root root rem rest).2) := by
  induction node generalizing p with
  | leaf s w =>
    simp only [codeOf] at h
    split at h
    · cases h; exact absurd rfl hp
    · cases h
  | composite w l r ihl ihr =>
    have step : ∀ (c : Bool) (q : List Bool) (n : FreqTree), (if c then r else l) = n → codeOf n b = some q →
        (q ≠ [] → walkTree root n (rem + 1) (q ++ rest) =
          (b :: (walkTree root root rem rest).1, (walkTree root root rem rest).2)) →
        walkTree root (.composite w l r) (rem + 1) (c :: q ++ rest) =
          (b :: (walkTree root root rem rest).1, (walkTree root root rem rest).2) := by
      intro c q n hn hq hi
      cases n with
      | leaf s v =>
        simp only [codeOf] at hq
        split at hq
        · cases hq; subst_vars
          simp only [List.cons_append, List.nil_append, walkTree, childOf, hn]
        · cases hq
      | composite v l' r' =>
        have := hi (codeOf_composite_ne_nil hq)
        simpa only [List.cons_append, walkTree, childOf, hn] using this
    simp only [codeOf] at h
    split at h
    · next q hq => cases h; exact step false q l rfl hq (ihl hq)
    · simp only [Option.map_eq_some_iff] at h
      obtain ⟨q, hq, rfl⟩ := h
      exact step true q r rfl hq (ihr hq)

@[simp] theorem walkTree_zero (root node : FreqTree) (bits : List Bool) : walkTree root node 0 bits = ([], 0) := by
  cases bits <;> rfl

/-- The walk over a lone Leaf emits its byte once per bit (R236). -/
theorem walkLeaf_eq (s : Byte) (n : Nat) (bits : List Bool) :
    walkLeaf s n bits = (List.replicate (min n bits.length) s, n - bits.length) := by
  induction n generalizing bits with
  | zero => cases bits <;> simp [walkLeaf]
  | succ n ih =>
    cases bits with
    | nil => simp [walkLeaf]
    | cons b bits => simp [walkLeaf, ih, Nat.succ_min_succ, List.replicate_succ]

/-- The walk emits at most one byte per bit, and counts each (R239). -/
theorem walkTree_bound (root node : FreqTree) (n : Nat) (bits : List Bool) :
    (walkTree root node n bits).1.length ≤ bits.length ∧
      (walkTree root node n bits).1.length + (walkTree root node n bits).2 = n := by
  induction bits generalizing node n with
  | nil => cases n <;> simp [walkTree]
  | cons b bits ih =>
    cases n with
    | zero => simp
    | succ n =>
      simp only [walkTree]
      split
      · have := ih root n
        simp only [List.length_cons]
        omega
      · next w l r _ =>
        have := ih (.composite w l r) (n + 1)
        simp only [List.length_cons]
        omega

theorem walk_bound (t : FreqTree) (bits : List Bool) (n : Nat) :
    (walk t bits n).1.length ≤ bits.length ∧ (walk t bits n).1.length + (walk t bits n).2 = n := by
  cases t with
  | leaf s w => simp [walk, walkLeaf_eq]; omega
  | composite w l r => exact walkTree_bound _ _ n bits

/-- A path that goes on from a Composite has no Leaf on its way there (R19). -/
theorem nodeAt_composite_prefix {t : FreqTree} {p q : List Bool} {w : Weight} {l r : FreqTree}
    (hq : nodeAt t q = some (.composite w l r)) (hp : p <+: q) (x : Byte) (v : Weight) :
    nodeAt t p ≠ some (.leaf x v) := by
  induction p generalizing t q with
  | nil =>
    rintro h
    simp only [nodeAt, Option.some.injEq] at h
    subst h
    cases q <;> simp [nodeAt] at hq
  | cons b p ih =>
    cases q with
    | nil => simp at hp
    | cons c q =>
      obtain ⟨e, h'⟩ := List.cons_prefix_cons.1 hp
      subst e
      cases t with
      | leaf => simp [nodeAt] at hq
      | composite v l r => exact ih hq h'

theorem nodeAt_append {t u : FreqTree} {p : List Bool} (h : nodeAt t p = some u) (q : List Bool) :
    nodeAt t (p ++ q) = nodeAt u q := by
  induction p generalizing t with
  | nil => simp only [nodeAt, Option.some.injEq] at h; rw [h]; rfl
  | cons b p ih =>
    cases t with
    | leaf => simp [nodeAt] at h
    | composite v l r => exact ih h

/-- The walk below a Composite root, from the Composite that the bits `pre` lead to: it emits the bytes of the Leaves that
successive paths of bits lead to, until enough have come or the bits left lead to no Leaf (R235). -/
theorem walkTree_paths {root : FreqTree} {w : Weight} {l r : FreqTree} (hroot : root = .composite w l r)
    (bits : List Bool) : ∀ (pre : List Bool) (v : Weight) (a b : FreqTree) (n : Nat),
    nodeAt root pre = some (.composite v a b) →
    ∃ (paths : List (List Bool)) (left : List Bool), pre ++ bits = paths.flatten ++ left ∧
      List.Forall₂ (fun p x => ∃ w, nodeAt root p = some (.leaf x w)) paths
        (walkTree root (.composite v a b) n bits).1 ∧
      (walkTree root (.composite v a b) n bits).1.length ≤ n ∧
      ((walkTree root (.composite v a b) n bits).1.length < n →
        ∀ p, p <+: left → ∀ x w, nodeAt root p ≠ some (.leaf x w)) := by
  induction bits with
  | nil =>
    intro pre v a b n h
    refine ⟨[], pre, by simp, ?_⟩
    cases n with
    | zero => simp
    | succ n => simpa [walkTree] using fun p hp => nodeAt_composite_prefix h hp
  | cons c bits ih =>
    intro pre v a b n h
    cases n with
    | zero => exact ⟨[], pre ++ c :: bits, by simp⟩
    | succ n =>
      have hc : nodeAt root (pre ++ [c]) = some (childOf (.composite v a b) c) := by
        rw [nodeAt_append h]; rfl
      simp only [walkTree]
      split
      · next s u e =>
        rw [e] at hc
        obtain ⟨ps, left, h1, h2, h3, h4⟩ := ih [] w l r n (by rw [hroot]; rfl)
        rw [← hroot] at h2 h3 h4
        rw [List.nil_append] at h1
        exact ⟨(pre ++ [c]) :: ps, left, by simp [h1], .cons ⟨u, hc⟩ h2, by simpa using h3,
          fun hl => h4 (by simpa using hl)⟩
      · next v' a' b' e =>
        rw [e] at hc
        obtain ⟨ps, left, h1, h2⟩ := ih (pre ++ [c]) v' a' b' (n + 1) hc
        exact ⟨ps, left, by simpa using h1, h2⟩

/-- The walk over the payload of an encoder gives the data back, whatever bits follow (R240). -/
theorem walk_payload (t : FreqTree) (d : List Byte) (pad : List Bool) (h : ∀ x ∈ d, x ∈ (treeLeafList t).map (·.1)) :
    walk (zeroWeights t) (payloadBits t d ++ pad) d.length = (d, 0) := by
  cases t with
  | leaf s w =>
    have hb : payloadBits (.leaf s w) d = List.replicate d.length false := by
      induction d with
      | nil => rfl
      | cons x d ih =>
        have hi := ih fun y hy => h y (List.mem_cons_of_mem _ hy)
        simp only [payloadBits] at hi
        simp [payloadBits, symBits, List.replicate_succ, hi]
    have hd : d = List.replicate d.length s := by
      rw [List.eq_replicate_iff]
      exact ⟨rfl, fun x hx => by simpa [treeLeafList] using h x hx⟩
    simp only [zeroWeights, walk, walkLeaf_eq, hb, List.length_append, List.length_replicate]
    rw [Nat.min_eq_left (by omega), ← hd]
    simp
  | composite w l r =>
    simp only [zeroWeights, walk]
    induction d with
    | nil => simp [payloadBits]
    | cons x d ih =>
      obtain ⟨p, hp⟩ := Option.isSome_iff_exists.1 ((codeOf_isSome _ x).2 (h x (by simp)))
      have hz : codeOf (.composite 0 (zeroWeights l) (zeroWeights r)) x = some p := by
        have := codeOf_zeroWeights (.composite w l r) x
        simp only [zeroWeights] at this
        rw [this, hp]
      have hb : payloadBits (.composite w l r) (x :: d) = p ++ payloadBits (.composite w l r) d := by
        simp [payloadBits, symBits, hp]
      rw [hb, List.append_assoc, List.length_cons, walkTree_code _ hz (codeOf_composite_ne_nil hp),
        ih fun y hy => h y (List.mem_cons_of_mem _ hy)]

/-- The header of a compressed buffer is read back (R232). -/
theorem decodeBuffer_header (max ts os : Nat) (tb p : List Byte) (hts : ts = tb.length) (h4 : ts < 2 ^ 32)
    (h8 : os < 2 ^ 64) :
    decodeBuffer max (leBytes 4 ts ++ leBytes 8 os ++ tb ++ p) =
      match deserialize max tb with
      | .malformed => .failed .eMalformedTree
      | .treeCapacity => .failed .eTreeCapacity
      | .tree t _ _ => .bytes (walk t (unpack p) os).1 (walk t (unpack p) os).2 := by
  have e4 : (leBytes 4 ts ++ leBytes 8 os ++ tb ++ p).take 4 = leBytes 4 ts := by
    simp
  have e8 : ((leBytes 4 ts ++ leBytes 8 os ++ tb ++ p).drop 4).take 8 = leBytes 8 os := by
    simp
  have et : (leBytes 4 ts ++ leBytes 8 os ++ tb ++ p).drop 12 = tb ++ p := by
    simp [List.drop_append]
  have ep : (leBytes 4 ts ++ leBytes 8 os ++ tb ++ p).drop (12 + ts) = p := by
    rw [← List.drop_drop, et, hts]; simp
  unfold decodeBuffer
  rw [if_neg (by simp; omega)]
  simp only [e4, e8, et, fromLe_leBytes 4 ts (by omega), fromLe_leBytes 8 os (by omega), ep]
  rw [if_neg (by simp; omega)]
  have : (tb ++ p).take ts = tb := by rw [hts]; simp
  rw [this]
  all_goals (cases deserialize max tb <;> rfl)

/-- Decoding the compressed buffer of the data `d` gives `d` back (R240). -/
theorem decodeBuffer_compressed (max : Nat) (t : FreqTree) (d : List Byte) (total : Count) (hn : treeNodes t ≤ max)
    (hl : (pack (serialize t)).length < 2 ^ 32) (ht : total.toNat = d.length)
    (hd : ∀ x ∈ d, x ∈ (treeLeafList t).map (·.1)) :
    decodeBuffer max (compressed t d total) = .bytes d 0 := by
  unfold compressed
  rw [decodeBuffer_header max _ _ _ _ rfl hl total.isLt]
  obtain ⟨rest, e, -⟩ := deserialize_pack max t [] hn
  rw [List.append_nil] at e
  rw [e, unpack_pack, ht]
  simp only []
  rw [walk_payload t d _ hd]

end Sys2Proof.Machine
end

