-- ==== Sys2Proof/Laws/Encoding.lean ====
section
/-! SUPPORT. The fields of an encoded command word, and a packet's bytes read back (30_encoding.md R70, R71, R84). -/

namespace Sys2Proof

/-- Bit `i` of an encoded command word. -/
theorem headWord_bit (a b : Byte) (i : Nat) :
    (a.zeroExtend 32 ||| (b.zeroExtend 32 <<< 8) : Word).getLsbD i =
      (a.getLsbD i || (decide (8 ≤ i ∧ i < 32) && b.getLsbD (i - 8))) := by
  have h : 32 ≤ i → a.getLsbD i = false := fun h => BitVec.getLsbD_of_ge _ _ (by omega)
  by_cases h1 : i < 32
  · have h2 : (!decide (i < 8)) = decide (8 ≤ i) := by rw [← decide_not, decide_eq_decide]; omega
    simp [h1, h2]
  · rw [h (by omega), BitVec.getLsbD_of_ge _ _ (by omega)]
    simp [h1]

theorem headWord_opcode (a b : Byte) : (a.zeroExtend 32 ||| (b.zeroExtend 32 <<< 8) : Word).extractLsb' 0 8 = a := by
  apply BitVec.eq_of_getLsbD_eq
  intro i hi
  rw [BitVec.getLsbD_extractLsb', headWord_bit]
  simp [hi]

theorem headWord_imm (a b : Byte) : (a.zeroExtend 32 ||| (b.zeroExtend 32 <<< 8) : Word).extractLsb' 8 8 = b := by
  apply BitVec.eq_of_getLsbD_eq
  intro i hi
  have h : 8 + i < 32 := by omega
  rw [BitVec.getLsbD_extractLsb', headWord_bit, BitVec.getLsbD_of_ge a _ (by omega)]
  simp [hi, h]

theorem headWord_reserved (a b : Byte) : (a.zeroExtend 32 ||| (b.zeroExtend 32 <<< 8) : Word).extractLsb' 16 16 = 0 := by
  apply BitVec.eq_of_getLsbD_eq
  intro i hi
  rw [BitVec.getLsbD_extractLsb', headWord_bit, BitVec.getLsbD_of_ge a _ (by omega), BitVec.getLsbD_of_ge b _ (by omega)]
  simp

/-- A command word with its reserved bits 0 is its opcode and its IMM8. -/
theorem headWord_split (w : Word) (h : w.extractLsb' 16 16 = 0) :
    (w.extractLsb' 0 8).zeroExtend 32 ||| ((w.extractLsb' 8 8).zeroExtend 32 <<< 8) = w := by
  apply BitVec.eq_of_getLsbD_eq
  intro i hi
  rw [headWord_bit, BitVec.getLsbD_extractLsb', BitVec.getLsbD_extractLsb']
  by_cases h1 : i < 8
  · simp [h1]
  · by_cases h2 : i < 16
    · have h3 : 8 + (i - 8) = i := by omega
      have h4 : i - 8 < 8 := by omega
      have h5 : 8 ≤ i := by omega
      simp [h1, hi, h3, h4, h5]
    · have h4 := congrArg (fun v : BitVec 16 => v.getLsbD (i - 16)) h
      have h5 : 16 + (i - 16) = i := by omega
      simp [BitVec.getLsbD_extractLsb', h5] at h4
      have h6 : ¬i - 8 < 8 := by omega
      simp [h1, h6]
      exact h4 (by omega)

/-- The four little-endian bytes of a word are read back. -/
theorem word_leBytes (w : Word) : BitVec.ofNat 32 (fromLe (leBytes 4 w.toNat)) = w := by
  rw [Machine.fromLe_leBytes 4 _ (by have := w.isLt; omega)]
  simp

/-- A packet's bytes are read back as the packet (R70). -/
theorem ofBytes_bytes (p : Packet) : Packet.ofBytes p.bytes = some p := by
  unfold Packet.ofBytes Packet.bytes
  have e1 : (leBytes 4 p.w0.toNat ++ leBytes 4 p.w1.toNat ++ p.payload).take 4 = leBytes 4 p.w0.toNat := by simp
  have e2 : ((leBytes 4 p.w0.toNat ++ leBytes 4 p.w1.toNat ++ p.payload).drop 4).take 4 = leBytes 4 p.w1.toNat := by
    simp
  have e3 : (leBytes 4 p.w0.toNat ++ leBytes 4 p.w1.toNat ++ p.payload).drop 8 = p.payload := by
    simp [List.drop_append]
  rw [if_neg (by simp; omega), e1, e2, e3, word_leBytes, word_leBytes]

/-- An opcode selects the command whose opcode it is (R78). -/
theorem selectCommand_some {opc : Byte} {o : Operands} {i : Instr} (h : selectCommand opc.toNat o = some i) :
    i.opcode = opc ∧ i.operands = o := by
  unfold selectCommand at h
  split at h <;> first | (cases h; done) | skip
  all_goals
    next e =>
    cases h
    exact ⟨BitVec.eq_of_toNat_eq e.symm, rfl⟩

/-- The opcode and the operands of a command select it. -/
theorem selectCommand_opcode (i : Instr) : selectCommand i.opcode.toNat i.operands = some i := by
  cases i <;> rfl

end Sys2Proof
end

