-- ==== Sys2Proof/Laws/State.lean ====
section
/-! SUPPORT. One lemma per field per named update of State, each true by rfl, so that no proof unfolds a record update. -/

namespace Sys2Proof.Machine

@[simp] theorem State.setBsrc_cfg (s : State) (b : Bsrc) : (s.setBsrc b).cfg = s.cfg := rfl
@[simp] theorem State.setBsrc_eng (s : State) (b : Bsrc) : (s.setBsrc b).eng = s.eng := rfl
@[simp] theorem State.setBsrc_bsrc (s : State) (b : Bsrc) : (s.setBsrc b).bsrc = b := rfl
@[simp] theorem State.setBsrc_bsnk (s : State) (b : Bsrc) : (s.setBsrc b).bsnk = s.bsnk := rfl
@[simp] theorem State.setBsrc_enc (s : State) (b : Bsrc) : (s.setBsrc b).enc = s.enc := rfl
@[simp] theorem State.setBsrc_tree (s : State) (b : Bsrc) : (s.setBsrc b).tree = s.tree := rfl
@[simp] theorem State.setBsrc_rst (s : State) (b : Bsrc) : (s.setBsrc b).rst = s.rst := rfl
@[simp] theorem State.setBsrc_cmds (s : State) (b : Bsrc) : (s.setBsrc b).cmds = s.cmds := rfl
@[simp] theorem State.setBsrc_resps (s : State) (b : Bsrc) : (s.setBsrc b).resps = s.resps := rfl
@[simp] theorem State.setBsrc_portI (s : State) (b : Bsrc) : (s.setBsrc b).portI = s.portI := rfl
@[simp] theorem State.setBsrc_portO (s : State) (b : Bsrc) : (s.setBsrc b).portO = s.portO := rfl
@[simp] theorem State.setBsrc_lateI (s : State) (b : Bsrc) : (s.setBsrc b).lateI = s.lateI := rfl
@[simp] theorem State.setBsrc_lateO (s : State) (b : Bsrc) : (s.setBsrc b).lateO = s.lateO := rfl
@[simp] theorem State.setBsrc_trace (s : State) (b : Bsrc) : (s.setBsrc b).trace = s.trace := rfl
@[simp] theorem State.setBsrc_draws (s : State) (b : Bsrc) : (s.setBsrc b).draws = s.draws := rfl

@[simp] theorem State.setBsnk_cfg (s : State) (k : Bsnk) : (s.setBsnk k).cfg = s.cfg := rfl
@[simp] theorem State.setBsnk_eng (s : State) (k : Bsnk) : (s.setBsnk k).eng = s.eng := rfl
@[simp] theorem State.setBsnk_bsrc (s : State) (k : Bsnk) : (s.setBsnk k).bsrc = s.bsrc := rfl
@[simp] theorem State.setBsnk_bsnk (s : State) (k : Bsnk) : (s.setBsnk k).bsnk = k := rfl
@[simp] theorem State.setBsnk_enc (s : State) (k : Bsnk) : (s.setBsnk k).enc = s.enc := rfl
@[simp] theorem State.setBsnk_tree (s : State) (k : Bsnk) : (s.setBsnk k).tree = s.tree := rfl
@[simp] theorem State.setBsnk_rst (s : State) (k : Bsnk) : (s.setBsnk k).rst = s.rst := rfl
@[simp] theorem State.setBsnk_cmds (s : State) (k : Bsnk) : (s.setBsnk k).cmds = s.cmds := rfl
@[simp] theorem State.setBsnk_resps (s : State) (k : Bsnk) : (s.setBsnk k).resps = s.resps := rfl
@[simp] theorem State.setBsnk_portI (s : State) (k : Bsnk) : (s.setBsnk k).portI = s.portI := rfl
@[simp] theorem State.setBsnk_portO (s : State) (k : Bsnk) : (s.setBsnk k).portO = s.portO := rfl
@[simp] theorem State.setBsnk_lateI (s : State) (k : Bsnk) : (s.setBsnk k).lateI = s.lateI := rfl
@[simp] theorem State.setBsnk_lateO (s : State) (k : Bsnk) : (s.setBsnk k).lateO = s.lateO := rfl
@[simp] theorem State.setBsnk_trace (s : State) (k : Bsnk) : (s.setBsnk k).trace = s.trace := rfl
@[simp] theorem State.setBsnk_draws (s : State) (k : Bsnk) : (s.setBsnk k).draws = s.draws := rfl

@[simp] theorem State.setEnc_cfg (s : State) (e : Enc) : (s.setEnc e).cfg = s.cfg := rfl
@[simp] theorem State.setEnc_eng (s : State) (e : Enc) : (s.setEnc e).eng = s.eng := rfl
@[simp] theorem State.setEnc_bsrc (s : State) (e : Enc) : (s.setEnc e).bsrc = s.bsrc := rfl
@[simp] theorem State.setEnc_bsnk (s : State) (e : Enc) : (s.setEnc e).bsnk = s.bsnk := rfl
@[simp] theorem State.setEnc_enc (s : State) (e : Enc) : (s.setEnc e).enc = e := rfl
@[simp] theorem State.setEnc_tree (s : State) (e : Enc) : (s.setEnc e).tree = s.tree := rfl
@[simp] theorem State.setEnc_rst (s : State) (e : Enc) : (s.setEnc e).rst = s.rst := rfl
@[simp] theorem State.setEnc_cmds (s : State) (e : Enc) : (s.setEnc e).cmds = s.cmds := rfl
@[simp] theorem State.setEnc_resps (s : State) (e : Enc) : (s.setEnc e).resps = s.resps := rfl
@[simp] theorem State.setEnc_portI (s : State) (e : Enc) : (s.setEnc e).portI = s.portI := rfl
@[simp] theorem State.setEnc_portO (s : State) (e : Enc) : (s.setEnc e).portO = s.portO := rfl
@[simp] theorem State.setEnc_lateI (s : State) (e : Enc) : (s.setEnc e).lateI = s.lateI := rfl
@[simp] theorem State.setEnc_lateO (s : State) (e : Enc) : (s.setEnc e).lateO = s.lateO := rfl
@[simp] theorem State.setEnc_trace (s : State) (e : Enc) : (s.setEnc e).trace = s.trace := rfl
@[simp] theorem State.setEnc_draws (s : State) (e : Enc) : (s.setEnc e).draws = s.draws := rfl

@[simp] theorem State.setTree_cfg (s : State) (t : Option FreqTree) : (s.setTree t).cfg = s.cfg := rfl
@[simp] theorem State.setTree_eng (s : State) (t : Option FreqTree) : (s.setTree t).eng = s.eng := rfl
@[simp] theorem State.setTree_bsrc (s : State) (t : Option FreqTree) : (s.setTree t).bsrc = s.bsrc := rfl
@[simp] theorem State.setTree_bsnk (s : State) (t : Option FreqTree) : (s.setTree t).bsnk = s.bsnk := rfl
@[simp] theorem State.setTree_enc (s : State) (t : Option FreqTree) : (s.setTree t).enc = s.enc := rfl
@[simp] theorem State.setTree_tree (s : State) (t : Option FreqTree) : (s.setTree t).tree = t := rfl
@[simp] theorem State.setTree_rst (s : State) (t : Option FreqTree) : (s.setTree t).rst = s.rst := rfl
@[simp] theorem State.setTree_cmds (s : State) (t : Option FreqTree) : (s.setTree t).cmds = s.cmds := rfl
@[simp] theorem State.setTree_resps (s : State) (t : Option FreqTree) : (s.setTree t).resps = s.resps := rfl
@[simp] theorem State.setTree_portI (s : State) (t : Option FreqTree) : (s.setTree t).portI = s.portI := rfl
@[simp] theorem State.setTree_portO (s : State) (t : Option FreqTree) : (s.setTree t).portO = s.portO := rfl
@[simp] theorem State.setTree_lateI (s : State) (t : Option FreqTree) : (s.setTree t).lateI = s.lateI := rfl
@[simp] theorem State.setTree_lateO (s : State) (t : Option FreqTree) : (s.setTree t).lateO = s.lateO := rfl
@[simp] theorem State.setTree_trace (s : State) (t : Option FreqTree) : (s.setTree t).trace = s.trace := rfl
@[simp] theorem State.setTree_draws (s : State) (t : Option FreqTree) : (s.setTree t).draws = s.draws := rfl

@[simp] theorem State.setDraws_cfg (s : State) (n : Nat) : (s.setDraws n).cfg = s.cfg := rfl
@[simp] theorem State.setDraws_eng (s : State) (n : Nat) : (s.setDraws n).eng = s.eng := rfl
@[simp] theorem State.setDraws_bsrc (s : State) (n : Nat) : (s.setDraws n).bsrc = s.bsrc := rfl
@[simp] theorem State.setDraws_bsnk (s : State) (n : Nat) : (s.setDraws n).bsnk = s.bsnk := rfl
@[simp] theorem State.setDraws_enc (s : State) (n : Nat) : (s.setDraws n).enc = s.enc := rfl
@[simp] theorem State.setDraws_tree (s : State) (n : Nat) : (s.setDraws n).tree = s.tree := rfl
@[simp] theorem State.setDraws_rst (s : State) (n : Nat) : (s.setDraws n).rst = s.rst := rfl
@[simp] theorem State.setDraws_cmds (s : State) (n : Nat) : (s.setDraws n).cmds = s.cmds := rfl
@[simp] theorem State.setDraws_resps (s : State) (n : Nat) : (s.setDraws n).resps = s.resps := rfl
@[simp] theorem State.setDraws_portI (s : State) (n : Nat) : (s.setDraws n).portI = s.portI := rfl
@[simp] theorem State.setDraws_portO (s : State) (n : Nat) : (s.setDraws n).portO = s.portO := rfl
@[simp] theorem State.setDraws_lateI (s : State) (n : Nat) : (s.setDraws n).lateI = s.lateI := rfl
@[simp] theorem State.setDraws_lateO (s : State) (n : Nat) : (s.setDraws n).lateO = s.lateO := rfl
@[simp] theorem State.setDraws_trace (s : State) (n : Nat) : (s.setDraws n).trace = s.trace := rfl
@[simp] theorem State.setDraws_draws (s : State) (n : Nat) : (s.setDraws n).draws = n := rfl

@[simp] theorem State.deliver_cfg (s : State) (r : Response) : (s.deliver r).cfg = s.cfg := rfl
@[simp] theorem State.deliver_eng (s : State) (r : Response) : (s.deliver r).eng = .idle := rfl
@[simp] theorem State.deliver_bsrc (s : State) (r : Response) : (s.deliver r).bsrc = s.bsrc := rfl
@[simp] theorem State.deliver_bsnk (s : State) (r : Response) : (s.deliver r).bsnk = s.bsnk := rfl
@[simp] theorem State.deliver_enc (s : State) (r : Response) : (s.deliver r).enc = s.enc := rfl
@[simp] theorem State.deliver_tree (s : State) (r : Response) : (s.deliver r).tree = s.tree := rfl
@[simp] theorem State.deliver_rst (s : State) (r : Response) : (s.deliver r).rst = s.rst := rfl
@[simp] theorem State.deliver_cmds (s : State) (r : Response) : (s.deliver r).cmds = s.cmds := rfl
@[simp] theorem State.deliver_resps (s : State) (r : Response) : (s.deliver r).resps = s.resps ++ [r] := rfl
@[simp] theorem State.deliver_portI (s : State) (r : Response) : (s.deliver r).portI = s.portI := rfl
@[simp] theorem State.deliver_portO (s : State) (r : Response) : (s.deliver r).portO = s.portO := rfl
@[simp] theorem State.deliver_lateI (s : State) (r : Response) : (s.deliver r).lateI = s.lateI := rfl
@[simp] theorem State.deliver_lateO (s : State) (r : Response) : (s.deliver r).lateO = s.lateO := rfl
@[simp] theorem State.deliver_trace (s : State) (r : Response) : (s.deliver r).trace = s.trace := rfl
@[simp] theorem State.deliver_draws (s : State) (r : Response) : (s.deliver r).draws = s.draws := rfl

@[simp] theorem State.wait_cfg (s : State) (j : Job) : (s.wait j).cfg = s.cfg := rfl
@[simp] theorem State.wait_eng (s : State) (j : Job) : (s.wait j).eng = .busy j := rfl
@[simp] theorem State.wait_bsrc (s : State) (j : Job) : (s.wait j).bsrc = s.bsrc := rfl
@[simp] theorem State.wait_bsnk (s : State) (j : Job) : (s.wait j).bsnk = s.bsnk := rfl
@[simp] theorem State.wait_enc (s : State) (j : Job) : (s.wait j).enc = s.enc := rfl
@[simp] theorem State.wait_tree (s : State) (j : Job) : (s.wait j).tree = s.tree := rfl
@[simp] theorem State.wait_rst (s : State) (j : Job) : (s.wait j).rst = s.rst := rfl
@[simp] theorem State.wait_cmds (s : State) (j : Job) : (s.wait j).cmds = s.cmds := rfl
@[simp] theorem State.wait_resps (s : State) (j : Job) : (s.wait j).resps = s.resps := rfl
@[simp] theorem State.wait_portI (s : State) (j : Job) : (s.wait j).portI = s.portI := rfl
@[simp] theorem State.wait_portO (s : State) (j : Job) : (s.wait j).portO = s.portO := rfl
@[simp] theorem State.wait_lateI (s : State) (j : Job) : (s.wait j).lateI = s.lateI := rfl
@[simp] theorem State.wait_lateO (s : State) (j : Job) : (s.wait j).lateO = s.lateO := rfl
@[simp] theorem State.wait_trace (s : State) (j : Job) : (s.wait j).trace = s.trace := rfl
@[simp] theorem State.wait_draws (s : State) (j : Job) : (s.wait j).draws = s.draws := rfl

@[simp] theorem State.respond_cfg (s : State) (c : Status) (w : Word) (p : List Byte) : (s.respond c w p).cfg = s.cfg := rfl
@[simp] theorem State.respond_eng (s : State) (c : Status) (w : Word) (p : List Byte) : (s.respond c w p).eng = .idle := rfl
@[simp] theorem State.respond_bsrc (s : State) (c : Status) (w : Word) (p : List Byte) : (s.respond c w p).bsrc = s.bsrc := rfl
@[simp] theorem State.respond_bsnk (s : State) (c : Status) (w : Word) (p : List Byte) : (s.respond c w p).bsnk = s.bsnk := rfl
@[simp] theorem State.respond_enc (s : State) (c : Status) (w : Word) (p : List Byte) : (s.respond c w p).enc = s.enc := rfl
@[simp] theorem State.respond_tree (s : State) (c : Status) (w : Word) (p : List Byte) : (s.respond c w p).tree = s.tree := rfl
@[simp] theorem State.respond_rst (s : State) (c : Status) (w : Word) (p : List Byte) : (s.respond c w p).rst = s.rst := rfl
@[simp] theorem State.respond_cmds (s : State) (c : Status) (w : Word) (p : List Byte) : (s.respond c w p).cmds = s.cmds := rfl
@[simp] theorem State.respond_resps (s : State) (c : Status) (w : Word) (p : List Byte) : (s.respond c w p).resps = s.resps ++ [⟨statusWord c false, w, p⟩] := rfl
@[simp] theorem State.respond_portI (s : State) (c : Status) (w : Word) (p : List Byte) : (s.respond c w p).portI = s.portI := rfl
@[simp] theorem State.respond_portO (s : State) (c : Status) (w : Word) (p : List Byte) : (s.respond c w p).portO = s.portO := rfl
@[simp] theorem State.respond_lateI (s : State) (c : Status) (w : Word) (p : List Byte) : (s.respond c w p).lateI = s.lateI := rfl
@[simp] theorem State.respond_lateO (s : State) (c : Status) (w : Word) (p : List Byte) : (s.respond c w p).lateO = s.lateO := rfl
@[simp] theorem State.respond_trace (s : State) (c : Status) (w : Word) (p : List Byte) : (s.respond c w p).trace = s.trace := rfl
@[simp] theorem State.respond_draws (s : State) (c : Status) (w : Word) (p : List Byte) : (s.respond c w p).draws = s.draws := rfl

@[simp] theorem State.raise_cfg (s : State) (c : Status) (w : Word) : (s.raise c w).cfg = s.cfg := rfl
@[simp] theorem State.raise_eng (s : State) (c : Status) (w : Word) : (s.raise c w).eng = .idle := rfl
@[simp] theorem State.raise_bsrc (s : State) (c : Status) (w : Word) : (s.raise c w).bsrc = s.bsrc := rfl
@[simp] theorem State.raise_bsnk (s : State) (c : Status) (w : Word) : (s.raise c w).bsnk = s.bsnk := rfl
@[simp] theorem State.raise_enc (s : State) (c : Status) (w : Word) : (s.raise c w).enc = s.enc := rfl
@[simp] theorem State.raise_tree (s : State) (c : Status) (w : Word) : (s.raise c w).tree = s.tree := rfl
@[simp] theorem State.raise_rst (s : State) (c : Status) (w : Word) : (s.raise c w).rst = s.rst := rfl
@[simp] theorem State.raise_cmds (s : State) (c : Status) (w : Word) : (s.raise c w).cmds = s.cmds := rfl
@[simp] theorem State.raise_resps (s : State) (c : Status) (w : Word) : (s.raise c w).resps = s.resps ++ [⟨statusWord c false, w, []⟩] := rfl
@[simp] theorem State.raise_portI (s : State) (c : Status) (w : Word) : (s.raise c w).portI = s.portI := rfl
@[simp] theorem State.raise_portO (s : State) (c : Status) (w : Word) : (s.raise c w).portO = s.portO := rfl
@[simp] theorem State.raise_lateI (s : State) (c : Status) (w : Word) : (s.raise c w).lateI = s.lateI := rfl
@[simp] theorem State.raise_lateO (s : State) (c : Status) (w : Word) : (s.raise c w).lateO = s.lateO := rfl
@[simp] theorem State.raise_trace (s : State) (c : Status) (w : Word) : (s.raise c w).trace = s.trace := rfl
@[simp] theorem State.raise_draws (s : State) (c : Status) (w : Word) : (s.raise c w).draws = s.draws := rfl

end Sys2Proof.Machine
end

