-- ==== Sys2Proof/Laws/Ops.lean ====
section
/-! SUPPORT. What the shared operations can do, said once: the operand checks, the refill, a port write, putting a bit,
flushing. -/

namespace Sys2Proof.Machine

/-! ### Result words -/

/-- A count that fits the result word is it (30_encoding.md R77). -/
theorem resultWord_of_lt {n : Nat} (h : n < 2 ^ 32) : resultWord n = BitVec.ofNat 32 n := if_pos h

@[simp] theorem statusWord_ok : statusWord .ok false = 0 := rfl

theorem bitWord_eq (b : Bool) : bitWord b = BitVec.ofNat 32 (if b then 1 else 0) := by cases b <;> rfl

/-! ### The operand checks -/

theorem checked_ok {i : Instr} {s : State} (body : State → State)
    (h : operandError s.cfg (operandClass i) i.operands = none) : checked i s body = .next (body s) := by
  rw [checked, h]

theorem checked_error {i : Instr} {s : State} (body : State → State) {e : Status}
    (h : operandError s.cfg (operandClass i) i.operands = some e) : checked i s body = .next (s.raise e 0) := by
  rw [checked, h]

/-- A checked command ends with the error of its operand check or runs its body; it never stops. -/
theorem checked_cases (i : Instr) (s : State) (body : State → State) :
    (∃ e, operandError s.cfg (operandClass i) i.operands = some e ∧ checked i s body = .next (s.raise e 0)) ∨
      (operandError s.cfg (operandClass i) i.operands = none ∧ checked i s body = .next (body s)) := by
  cases h : operandError s.cfg (operandClass i) i.operands with
  | none => exact .inr ⟨rfl, checked_ok body h⟩
  | some e => exact .inl ⟨e, rfl, checked_error body h⟩

/-- What a passed operand check says of the operands (30_encoding.md R81). -/
theorem operandError_none {c : Config} {k : OperandClass} {o : Operands} (h : operandError c k o = none) :
    immInRange k.imm o.imm = true ∧ argInRange c k.arg o.arg = true ∧
      (isLenClass k.arg = true → o.payload.length = o.arg.toNat ∧ o.arg.toNat ≤ c.cmdPayloadMax) := by
  unfold operandError at h
  repeat' split at h
  all_goals simp_all

/-- An operand check fails with E_ILLEGAL_ARG or E_CAPACITY only (R81). -/
theorem operandError_some {c : Config} {k : OperandClass} {o : Operands} {e : Status} (h : operandError c k o = some e) :
    e = .eIllegalArg ∨ e = .eCapacity := by
  unfold operandError at h
  repeat' split at h
  all_goals simp_all

/-- The command's body, as `exec` runs it after the operand checks. -/
def commandBody : Instr → State → State
  | .csrRead o => csrReadBody o.imm
  | .srcOpen o => srcOpenBody o.arg
  | .srcNextBit _ => srcNextBitBody
  | .srcNextByte _ => srcNextByteBody
  | .srcTakeUnconsumed _ => srcTakeUnconsumedBody
  | .snkOpen o => snkOpenBody o.arg
  | .snkWriteBit o => snkWriteBitBody o.imm
  | .snkWriteByte o => snkWriteByteBody o.imm
  | .snkFlush _ => snkFlushBody
  | .snkSetThreshold o => snkSetThresholdBody o.arg
  | .snkClose _ => snkCloseBody
  | .treeBuild o => treeBuildBody o.payload
  | .treeSerialize _ => treeSerializeBody
  | .treeDeserialize o => treeDeserializeBody o.payload
  | .treeCodeTable _ => treeCodeTableBody
  | .encNew _ => encNewBody
  | .encAddChunk o => encAddChunkBody o.payload
  | .encEncode _ => encEncodeBody
  | .decDecode o => decDecodeBody o.payload

/-- Every command is its operand checks and then its body. -/
theorem exec_eq_checked (i : Instr) (s : State) : exec i s = checked i s (commandBody i) := by
  cases i <;> rfl

/-- No command stops the machine: it raises the error of its operand check, or its body runs. -/
theorem exec_cases (i : Instr) (s : State) :
    (∃ e, operandError s.cfg (operandClass i) i.operands = some e ∧ exec i s = .next (s.raise e 0)) ∨
      (operandError s.cfg (operandClass i) i.operands = none ∧ exec i s = .next (commandBody i s)) := by
  rw [exec_eq_checked]; exact checked_cases i s _

/-- The numbers of the CSR file are those of 10_state.md R34 to R38, as WellFormed lists them. -/
theorem csrOfNumber_isSome (n : Byte) : (csrOfNumber n.toNat).isSome = WellFormed.csrNumber n := by
  revert n; decide +kernel

/-! ### The refill (41_bitsource.md R102, R104) -/

theorem fill_none (batch : Nat) (buf : List Byte) : fill batch buf [] = ⟨.waiting, buf, [], []⟩ := rfl

theorem fill_ioErr (batch : Nat) (buf : List Byte) (as : List PortIAnswer) :
    fill batch buf (.ioErr :: as) = ⟨.ioErr, buf, as, [.read (batch - buf.length) .ioErr]⟩ := rfl

/-- A zero-byte answer ends the refill: end of data when the buffer is empty, a short batch otherwise. -/
theorem fill_eod (batch : Nat) (buf : List Byte) (as : List PortIAnswer) :
    fill batch buf (.bytes [] :: as) =
      ⟨if buf.isEmpty then .eod else .filled, buf, as, [.read (batch - buf.length) (.bytes [])]⟩ := by
  simp [fill]

/-- An answer with the bytes missing, or more, fills the batch. -/
theorem fill_full {batch : Nat} {buf b : List Byte} (as : List PortIAnswer) (hb : b ≠ []) (h : batch ≤ buf.length + b.length) :
    fill batch buf (.bytes b :: as) =
      ⟨.filled, buf ++ b.take (batch - buf.length), answersAfterRead (batch - buf.length) b as,
        [.read (batch - buf.length) (.bytes (b.take (batch - buf.length)))]⟩ := by
  have h1 : ¬b.isEmpty = true := by simpa using hb
  have h2 : batch ≤ (buf ++ b.take (batch - buf.length)).length := by
    simp only [List.length_append, List.length_take]; omega
  simp only [fill, if_neg h1, if_pos h2]

/-- A short answer leaves the refill asking for the rest. -/
theorem fill_short {batch : Nat} {buf b : List Byte} (as : List PortIAnswer) (hb : b ≠ []) (h : buf.length + b.length < batch) :
    fill batch buf (.bytes b :: as) =
      { fill batch (buf ++ b) as with
        events := .read (batch - buf.length) (.bytes b) :: (fill batch (buf ++ b) as).events } := by
  have h1 : ¬b.isEmpty = true := by simpa using hb
  have ht : b.take (batch - buf.length) = b := List.take_of_length_le (by omega)
  have h2 : ¬batch ≤ (buf ++ b).length := by rw [List.length_append]; omega
  simp only [fill, if_neg h1, ht, if_neg h2]

/-- How a refill can end, from a buffer that misses bytes: every byte given is kept, the batch is never exceeded. -/
theorem fill_spec (batch : Nat) (buf : List Byte) (as : List PortIAnswer) (h : buf.length < batch) :
    (fill batch buf as).buf = buf ++ portIGiven (fill batch buf as).events ∧
      match (fill batch buf as).stop with
      | .filled => 0 < (fill batch buf as).buf.length ∧ (fill batch buf as).buf.length ≤ batch
      | .eod => (fill batch buf as).buf = []
      | .ioErr => (fill batch buf as).buf.length < batch
      | .waiting => (fill batch buf as).buf.length < batch ∧ (fill batch buf as).answers = [] := by
  induction as generalizing buf with
  | nil => simp [fill, portIGiven, h]
  | cons a as ih =>
    cases a with
    | ioErr => simp [fill, portIGiven, bytesGiven, h]
    | bytes b =>
      by_cases hb : b = []
      · subst hb
        rw [fill_eod]
        cases buf with
        | nil => simp [portIGiven, bytesGiven]
        | cons x buf => simp [portIGiven, bytesGiven] at h ⊢; omega
      · have hp : 0 < b.length := List.length_pos_iff.2 hb
        by_cases hn : batch ≤ buf.length + b.length
        · rw [fill_full as hb hn]
          simp only [portIGiven, List.flatMap_cons, List.flatMap_nil, bytesGiven, List.append_nil, true_and,
            List.length_append, List.length_take]
          omega
        · rw [fill_short as hb (by omega)]
          have := ih (buf ++ b) (by rw [List.length_append]; omega)
          refine ⟨?_, this.2⟩
          simp only [portIGiven, List.flatMap_cons, bytesGiven] at this ⊢
          rw [← List.append_assoc]
          exact this.1

/-- A refill whose first reads are answered short: it asks for exactly the bytes still missing and goes on. -/
theorem fill_chunks (batch : Nat) (buf : List Byte) (chunks : List (List Byte)) (as : List PortIAnswer)
    (hne : ∀ c ∈ chunks, c ≠ []) (h : buf.length + chunks.flatten.length < batch) :
    fill batch buf (chunks.map .bytes ++ as) =
      { fill batch (buf ++ chunks.flatten) as with
        events := readEvents (batch - buf.length) chunks ++ (fill batch (buf ++ chunks.flatten) as).events } := by
  induction chunks generalizing buf with
  | nil => simp [readEvents]
  | cons c cs ih =>
    have hc : c ≠ [] := hne c (by simp)
    simp only [List.flatten_cons, List.length_append] at h
    simp only [List.map_cons, List.cons_append]
    rw [fill_short _ hc (by omega)]
    rw [ih (buf ++ c) (fun x hx => hne x (List.mem_cons_of_mem _ hx)) (by simp only [List.length_append]; omega)]
    simp only [List.flatten_cons, List.append_assoc, readEvents, List.length_append, List.cons_append,
      Nat.sub_sub]

/-- With no answer at hand a refill waits and nothing changes (20_memory.md R65). -/
theorem refill_waits {s : State} (h : s.portI = []) : s.refill = (.waiting, s) := by
  cases s; simp only at h; subst h; simp [State.refill, fill]

/-- With no answer at hand a write waits and nothing changes (20_memory.md R65). -/
theorem portWrite_waits {s : State} (h : s.portO = []) : s.portWrite = (.waiting, 0, s) := by
  rw [State.portWrite, h]

end Sys2Proof.Machine
end

