-- ==== Sys2Proof/Laws/Inv.lean ====
section
/-! SUPPORT. The shared operations keep the units legal (10_state.md R24, R26, R28, R30). -/

namespace Sys2Proof.Machine

/-! ### Ending and writing -/

theorem Units.deliver {s : State} (h : Units s) (r : Response) : Inv (s.deliver r) :=
  ⟨⟨h.cfg, h.bsrc, h.bsnk, h.enc, h.tree⟩, trivial⟩

theorem Units.respond {s : State} (h : Units s) (c : Status) (w : Word) (p : List Byte) : Inv (s.respond c w p) :=
  h.deliver _

theorem Units.raise {s : State} (h : Units s) (c : Status) (w : Word) : Inv (s.raise c w) := h.deliver _

theorem Units.wait {s : State} (h : Units s) (j : Job) (he : EngInv (s.wait j)) : Inv (s.wait j) :=
  ⟨⟨h.cfg, h.bsrc, h.bsnk, h.enc, h.tree⟩, he⟩

theorem Units.setBsrc {s : State} (h : Units s) {b : Bsrc} (hb : BsrcInv s.cfg b) : Units (s.setBsrc b) :=
  ⟨h.cfg, hb, h.bsnk, h.enc, h.tree⟩

theorem Units.setBsnk {s : State} (h : Units s) {k : Bsnk} (hk : BsnkInv s.cfg k) : Units (s.setBsnk k) :=
  ⟨h.cfg, h.bsrc, hk, h.enc, h.tree⟩

theorem Units.setEnc {s : State} (h : Units s) {e : Enc} (he : EncInv s.cfg e) : Units (s.setEnc e) :=
  ⟨h.cfg, h.bsrc, h.bsnk, he, h.tree⟩

theorem Units.setTree {s : State} (h : Units s) {t : Option FreqTree} (ht : TreeInv s.cfg t) : Units (s.setTree t) :=
  ⟨h.cfg, h.bsrc, h.bsnk, h.enc, ht⟩

theorem Units.setDraws {s : State} (h : Units s) (n : Nat) : Units (s.setDraws n) :=
  ⟨h.cfg, h.bsrc, h.bsnk, h.enc, h.tree⟩

/-! ### The bit source -/

theorem emptied_inv {c : Config} {b : Bsrc} (h : BsrcInv c b) : BsrcInv c (emptied b) where
  batch_pos := h.batch_pos
  batch_le := h.batch_le
  buf_le := Nat.zero_le _
  pos := .inr ⟨rfl, rfl⟩
  closed _ := ⟨rfl, rfl, rfl⟩

/-- Taking a bit from a buffer that is not exhausted keeps the source legal (R24, R101). -/
theorem advance_inv {c : Config} {b : Bsrc} (h : BsrcInv c b) (ho : b.isOpen = true) (hp : b.rpos < b.buf.length) :
    BsrcInv c (advance b) ∧ (advance b).isOpen = true := by
  unfold advance
  split
  · refine ⟨⟨h.batch_pos, h.batch_le, h.buf_le, ?_, fun hc => by simp [ho] at hc⟩, ho⟩
    rcases Nat.lt_or_ge (b.rpos + 1) b.buf.length with hl | hl
    · exact .inl hl
    · exact .inr ⟨by simp only []; omega, rfl⟩
  · exact ⟨⟨h.batch_pos, h.batch_le, h.buf_le, .inl hp, fun hc => by simp [ho] at hc⟩, ho⟩

/-- What NextBit leaves: a legal open source, and inside a refill when it waits. -/
def NextBitLeaves : BitEnd × State → Prop
  | (.waiting, t) => Units t ∧ RefillWaits t.bsrc
  | (_, t) => Units t ∧ t.bsrc.isOpen = true

theorem takeBit_leaves {s : State} (h : Units s) (ho : s.bsrc.isOpen = true) (hp : s.bsrc.rpos < s.bsrc.buf.length) :
    NextBitLeaves s.takeBit :=
  ⟨h.setBsrc (advance_inv h.bsrc ho hp).1, (advance_inv h.bsrc ho hp).2⟩

theorem refillBit_leaves {s : State} (h : Units s) (hw : RefillWaits s.bsrc) : NextBitLeaves s.refillBit := by
  obtain ⟨ho, hr, hb, hl⟩ := hw
  obtain ⟨-, hs⟩ := fill_spec s.bsrc.batch.toNat s.bsrc.buf s.portI hl
  have units : (fill s.bsrc.batch.toNat s.bsrc.buf s.portI).buf.length ≤ s.bsrc.batch.toNat → Units s.refill.2 := by
    intro hle
    refine ⟨h.cfg, ⟨h.bsrc.batch_pos, h.bsrc.batch_le, hle, ?_, fun hc => ?_⟩, h.bsnk, h.enc, h.tree⟩
    · simp only [State.refill, hr, hb]
      rcases Nat.eq_zero_or_pos (fill s.bsrc.batch.toNat s.bsrc.buf s.portI).buf.length with e | e
      · exact .inr ⟨e.symm, by simp⟩
      · exact .inl e
    · simp [State.refill, ho] at hc
  have e : s.refill = ((fill s.bsrc.batch.toNat s.bsrc.buf s.portI).stop, s.refill.2) := rfl
  unfold State.refillBit
  rw [e]
  cases hst : (fill s.bsrc.batch.toNat s.bsrc.buf s.portI).stop with
  | filled =>
    rw [hst] at hs
    exact takeBit_leaves (units hs.2) ho (by simpa [State.refill, hr] using hs.1)
  | eod => rw [hst] at hs; exact ⟨units (by rw [hs]; exact Nat.zero_le _), ho⟩
  | ioErr => rw [hst] at hs; exact ⟨units (Nat.le_of_lt hs), ho⟩
  | waiting => rw [hst] at hs; exact ⟨units (Nat.le_of_lt hs.1), ho, hr, hb, hs.1⟩

theorem nextBit_leaves {s : State} (h : Units s) (ho : s.bsrc.isOpen = true) : NextBitLeaves s.nextBit := by
  unfold State.nextBit exhausted
  split
  · refine refillBit_leaves (h.setBsrc (emptied_inv h.bsrc)) ⟨ho, rfl, rfl, ?_⟩
    exact h.bsrc.batch_pos
  · next hn => exact takeBit_leaves h ho (by simpa using hn)

theorem nextBitEnd_inv {r : BitEnd × State} (h : NextBitLeaves r) : Inv (nextBitEnd r) := by
  obtain ⟨e, t⟩ := r
  cases e with
  | waiting => exact h.1.wait _ h.2
  | _ => exact h.1.respond _ _ _

theorem shiftIn_lt {v : Byte} {n : Nat} (b : Bool) (h : v.toNat < 2 ^ n) :
    (shiftIn v b).toNat < 2 ^ (n + 1) := by
  have e : (shiftIn v b).toNat ≤ 2 * v.toNat + 1 := by
    clear h; revert v b; decide +kernel
  rw [pow_succ]; omega

theorem nextByteFrom_inv (left : Nat) (v : Byte) {r : BitEnd × State} (h : NextBitLeaves r) (hl : left ≤ 7)
    (hv : v.toNat < 2 ^ (7 - left)) : Inv (nextByteFrom left v r) := by
  induction left generalizing v r with
  | zero =>
    obtain ⟨e, t⟩ := r
    cases e with
    | waiting => exact h.1.wait _ ⟨h.2, hl, hv⟩
    | _ => exact h.1.respond _ _ _
  | succ left ih =>
    obtain ⟨e, t⟩ := r
    cases e with
    | waiting => exact h.1.wait _ ⟨h.2, hl, hv⟩
    | bit b =>
      refine ih _ (nextBit_leaves h.1 h.2) (by omega) ?_
      have := shiftIn_lt b hv
      rwa [show 7 - (left + 1) + 1 = 7 - left by omega] at this
    | eod => exact h.1.respond _ _ _
    | ioErr => exact h.1.respond _ _ _

/-! ### The bit sink -/

/-- What a port write leaves. -/
def WriteLeaves : WriteEnd × Nat × State → Prop
  | (.waiting, _, t) => Units t ∧ WriteWaits t.bsnk
  | (.ok, _, t) => Units t ∧ t.bsnk.isOpen = true ∧ t.bsnk.buf = []
  | (.ioErr, _, t) => Units t ∧ t.bsnk.isOpen = true

theorem portWrite_leaves {s : State} (h : Units s) (hw : WriteWaits s.bsnk) : WriteLeaves s.portWrite := by
  obtain ⟨ho, hb⟩ := hw
  unfold State.portWrite
  split
  · exact ⟨h, ho, hb⟩
  · refine ⟨⟨h.cfg, h.bsrc, ⟨h.bsnk.thresh_le, h.bsnk.acc_lt, Nat.zero_le _, fun hc => ?_⟩, h.enc, h.tree⟩, ho, rfl⟩
    simp [ho] at hc
  · exact ⟨⟨h.cfg, h.bsrc, h.bsnk, h.enc, h.tree⟩, ho⟩

theorem portWrite_nbits (s : State) : s.portWrite.2.2.bsnk.nbits = s.bsnk.nbits := by
  unfold State.portWrite; split <;> rfl

theorem portWrite_cfg (s : State) : s.portWrite.2.2.cfg = s.cfg := by
  unfold State.portWrite; split <;> rfl

theorem drain_leaves {s : State} (h : Units s) (ho : s.bsnk.isOpen = true) : WriteLeaves s.drain := by
  unfold State.drain
  split
  · next hb => exact ⟨h, ho, by simpa using hb⟩
  · next hb => exact portWrite_leaves h ⟨ho, by simpa using hb⟩

theorem drain_nbits (s : State) : s.drain.2.2.bsnk.nbits = s.bsnk.nbits := by
  unfold State.drain; split
  · rfl
  · exact portWrite_nbits s

theorem drain_cfg (s : State) : s.drain.2.2.cfg = s.cfg := by
  unfold State.drain; split
  · rfl
  · exact portWrite_cfg s

theorem accWith_lt {acc : Byte} {n : Nat} (b : Bool) (h : acc.toNat < 2 ^ n) : (accWith acc b).toNat < 2 ^ (n + 1) := by
  have e : (accWith acc b).toNat ≤ 2 * acc.toNat + 1 := by
    clear h; revert acc b; decide +kernel
  rw [pow_succ]; omega

/-- What PutBit leaves: a legal open sink, between bytes when a drain waits. -/
def PutLeaves : PutEnd × State → Prop
  | (.waiting, t) => Units t ∧ WriteWaits t.bsnk ∧ t.bsnk.nbits = 0
  | (_, t) => Units t ∧ t.bsnk.isOpen = true

theorem putAfterWrite_leaves {r : WriteEnd × Nat × State} (h : WriteLeaves r) (hn : r.2.2.bsnk.nbits = 0) :
    PutLeaves (putAfterWrite r) := by
  obtain ⟨e, n, t⟩ := r
  cases e with
  | ok => exact ⟨h.1, h.2.1⟩
  | ioErr => exact h
  | waiting => exact ⟨h.1, h.2, hn⟩

theorem withByte_inv {c : Config} {k : Bsnk} (h : BsnkInv c k) (b : Bool) (ho : k.isOpen = true)
    (hl : k.buf.length < c.snkBufCap) : BsnkInv c (withByte k b) where
  thresh_le := h.thresh_le
  acc_lt := by simp [withByte]
  buf_le := by simp [withByte]; omega
  closed hc := by simp [withByte, ho] at hc

theorem putBit_leaves {s : State} (h : Units s) (ho : s.bsnk.isOpen = true) (b : Bool) : PutLeaves (s.putBit b) := by
  unfold State.putBit
  split
  · next hn =>
    refine ⟨h.setBsnk ⟨h.bsnk.thresh_le, ?_, h.bsnk.buf_le, fun hc => by simp [ho] at hc⟩, ho⟩
    have := accWith_lt b h.bsnk.acc_lt
    have hlt : s.bsnk.nbits.toNat ≠ 7 := fun e => hn (BitVec.eq_of_toNat_eq e)
    have hlt2 := s.bsnk.nbits.isLt
    simp only [BitVec.toNat_add]
    rw [show (s.bsnk.nbits.toNat + (1 : BitVec 3).toNat) % 2 ^ 3 = s.bsnk.nbits.toNat + 1 by
      simp; omega]
    exact this
  · split
    · exact ⟨h, ho⟩
    · next hl =>
      have hu := h.setBsnk (withByte_inv h.bsnk b ho (by omega))
      unfold State.autoDrain
      split
      · exact putAfterWrite_leaves (drain_leaves hu ho) (drain_nbits _)
      · exact ⟨hu, ho⟩

theorem writeBitEnd_inv (imm : Byte) {r : PutEnd × State} (h : PutLeaves r) : Inv (writeBitEnd imm r) := by
  obtain ⟨e, t⟩ := r
  cases e with
  | waiting => exact h.1.wait _ h.2
  | _ => exact h.1.respond _ _ _

theorem writeByteFrom_inv (byte : Byte) (bs : List Bool) (done : Nat) {r : PutEnd × State} (h : PutLeaves r)
    (hd : done + bs.length ≤ 7) : Inv (writeByteFrom byte bs done r) := by
  induction bs generalizing done r with
  | nil =>
    obtain ⟨e, t⟩ := r
    cases e with
    | waiting => exact h.1.wait _ ⟨h.2.1, h.2.2, by simpa using hd⟩
    | _ => exact h.1.respond _ _ _
  | cons b bs ih =>
    simp only [List.length_cons] at hd
    obtain ⟨e, t⟩ := r
    cases e with
    | waiting => exact h.1.wait _ ⟨h.2.1, h.2.2, by omega⟩
    | accepted => exact ih _ (putBit_leaves h.1 h.2 b) (by omega)
    | acceptedIoErr => exact h.1.respond _ _ _
    | full => exact h.1.respond _ _ _

theorem flushDone_inv (f : Finalize) (w : Nat) {s : State} (h : Units s) (hf : FinalizeOk s.cfg f)
    (hn : s.bsnk.nbits = 0 ∧ s.bsnk.buf = []) : Inv (flushDone f w s) := by
  cases f with
  | flush => exact h.respond _ _ _
  | reopen t =>
    have hk : BsnkInv s.cfg ⟨true, t, 0, 0, []⟩ := ⟨hf, by simp, Nat.zero_le _, fun hc => by simp at hc⟩
    exact (h.setBsnk hk).respond _ _ _
  | close =>
    have ha : s.bsnk.acc = 0 := by
      have := h.bsnk.acc_lt
      rw [hn.1] at this
      exact BitVec.eq_of_toNat_eq (by simpa using this)
    have hk : BsnkInv s.cfg { s.bsnk with isOpen := false } :=
      ⟨h.bsnk.thresh_le, h.bsnk.acc_lt, h.bsnk.buf_le, fun _ => ⟨ha, hn.1, hn.2⟩⟩
    exact (h.setBsnk hk).respond _ _ _

theorem flushSecondEnd_inv (f : Finalize) (w : Nat) {r : WriteEnd × Nat × State} (h : WriteLeaves r)
    (hf : FinalizeOk r.2.2.cfg f) (hn : r.2.2.bsnk.nbits = 0) : Inv (flushSecondEnd f w r) := by
  obtain ⟨e, n, t⟩ := r
  cases e with
  | ok => exact flushDone_inv f _ h.1 hf ⟨hn, h.2.2⟩
  | ioErr => exact h.1.respond _ _ _
  | waiting => exact h.1.wait _ ⟨h.2, hn, hf⟩

theorem flushSecond_inv (f : Finalize) (w : Nat) {s : State} (h : Units s) (ho : s.bsnk.isOpen = true)
    (hb : s.bsnk.buf = []) (hf : FinalizeOk s.cfg f) : Inv (flushSecond f w s) := by
  unfold flushSecond
  split
  · next hn => exact flushDone_inv f w h hf ⟨hn, hb⟩
  · have hu : Units (s.setBsnk { s.bsnk with buf := [paddedByte s.bsnk], acc := 0, nbits := 0 }) :=
      h.setBsnk ⟨h.bsnk.thresh_le, by simp, h.cfg.snkBufCap_pos, fun hc => by simp [ho] at hc⟩
    exact flushSecondEnd_inv f w (drain_leaves hu ho) (by rw [drain_cfg]; exact hf) (drain_nbits _)

theorem flushFirstEnd_inv (f : Finalize) {r : WriteEnd × Nat × State} (h : WriteLeaves r)
    (hf : FinalizeOk r.2.2.cfg f) : Inv (flushFirstEnd f r) := by
  obtain ⟨e, n, t⟩ := r
  cases e with
  | ok => exact flushSecond_inv f n h.1 h.2.1 h.2.2 hf
  | ioErr => exact h.1.respond _ _ _
  | waiting => exact h.1.wait _ ⟨h.2, hf⟩

theorem flushFor_inv (f : Finalize) {s : State} (h : Units s) (ho : s.bsnk.isOpen = true) (hf : FinalizeOk s.cfg f) :
    Inv (flushFor f s) := by
  unfold flushFor State.padIfRoom
  split
  · next hp =>
    have hu : Units (s.setBsnk (padded s.bsnk)) :=
      h.setBsnk ⟨h.bsnk.thresh_le, by simp [padded], by simp [padded]; omega, fun hc => by simp [padded, ho] at hc⟩
    exact flushFirstEnd_inv f (drain_leaves hu ho) (by rw [drain_cfg]; exact hf)
  · exact flushFirstEnd_inv f (drain_leaves h ho) (by rw [drain_cfg]; exact hf)

/-! ### The encoder and the tree store -/

theorem countByte_get (f : Vector Count 256) (b x : Byte) :
    (countByte f b)[x.toNat]'x.isLt = (f[x.toNat]'x.isLt) + if x = b then 1 else 0 := by
  unfold countByte
  rw [Vector.getElem_set]
  by_cases e : b.toNat = x.toNat
  · have : x = b := (BitVec.eq_of_toNat_eq e).symm
    subst this; simp
  · have : x ≠ b := fun h => e (by rw [h])
    simp [e, this]

/-- Counting a chunk adds to each count the occurrences of its byte value (44_encoder.md R202). -/
theorem countBytes_get (f : Vector Count 256) (chunk : List Byte) (x : Byte) :
    (countBytes f chunk)[x.toNat]'x.isLt = (f[x.toNat]'x.isLt) + BitVec.ofNat 64 (chunk.count x) := by
  induction chunk generalizing f with
  | nil => simp [countBytes]
  | cons b chunk ih =>
    have e : countBytes f (b :: chunk) = countBytes (countByte f b) chunk := rfl
    rw [e, ih, countByte_get, List.count_cons, BitVec.add_assoc]
    congr 1
    by_cases h : x = b
    · subst h; simp [BitVec.ofNat_add, BitVec.add_comm]
    · have : ¬b = x := fun e => h e.symm
      simp [h, this]

theorem fresh_enc_inv (c : Config) : EncInv c Enc.fresh where
  counts b := by simp [Enc.fresh]
  total := rfl
  cap := Nat.zero_le _
  spent _ := rfl

theorem spent_enc_inv (c : Config) : EncInv c Enc.spent where
  counts b := by simp [Enc.spent, Enc.fresh]
  total := rfl
  cap := Nat.zero_le _
  spent _ := rfl

theorem addChunk_inv {c : Config} {e : Enc} (hc : c.Legal) (h : EncInv c e) (chunk : List Byte)
    (hl : e.consumed = false) (hf : e.total.toNat + chunk.length ≤ c.chunkCap) :
    EncInv c { e with data := e.data ++ chunk, freq := countBytes e.freq chunk,
                      total := e.total + BitVec.ofNat 64 chunk.length } := by
  have hcap := hc.chunkCap_lt
  have ht := h.total
  refine ⟨fun b => ?_, ?_, by simp only [List.length_append]; omega, fun hs => by simp [hl] at hs⟩
  · have h1 := h.counts b
    have h2 : e.data.count b ≤ e.data.length := List.count_le_length
    have h3 : chunk.count b ≤ chunk.length := List.count_le_length
    simp only [countBytes_get, BitVec.toNat_add, BitVec.toNat_ofNat, List.count_append]
    rw [h1, Nat.mod_eq_of_lt (a := chunk.count b) (by omega), Nat.mod_eq_of_lt (by omega)]
  · simp only [BitVec.toNat_add, BitVec.toNat_ofNat, List.length_append]
    rw [Nat.mod_eq_of_lt (a := chunk.length) (by omega), Nat.mod_eq_of_lt (by omega), ht]

theorem tableCounts_length (n : Nat) (p : List Byte) : (tableCounts n p).length = n := by
  induction n generalizing p with
  | zero => rfl
  | succ n ih => simp [tableCounts, ih]

/-- The count of byte value `b` in a frequency-table payload (30_encoding.md R91). -/
theorem tableCounts_get (n : Nat) (p : List Byte) (b : Nat) (h : b < n) :
    (tableCounts n p)[b]? = some (BitVec.ofNat 64 (fromLe ((p.drop (8 * b)).take 8))) := by
  induction n generalizing p b with
  | zero => omega
  | succ n ih =>
    cases b with
    | zero => simp [tableCounts]
    | succ b =>
      rw [tableCounts, List.getElem?_cons_succ, ih _ _ (by omega), List.drop_drop,
        show 8 + 8 * b = 8 * (b + 1) by omega]

/-- A built tree is a legal tree of the store: at most 511 nodes (00_scope.md R14). -/
theorem buildTree_nodes {draw : Nat → Nat} {k : Nat} {f : List Count} {t : FreqTree} (hf : f.length ≤ 256)
    (h : (buildTree draw k f).1 = some t) : treeNodes t ≤ 511 := by
  have h1 := treeNodes_eq t
  have h2 := (buildTree_some hf h).2.1
  have h3 : f.countP (· ≠ 0) ≤ f.length := List.countP_le_length
  omega

theorem treeInv_none (c : Config) : TreeInv c none := fun _ h => by cases h

theorem treeInv_built {c : Config} (hc : c.Legal) {draw : Nat → Nat} {k : Nat} {f : List Count} {t : FreqTree}
    (hf : f.length ≤ 256) (h : (buildTree draw k f).1 = some t) : TreeInv c (some t) := by
  intro u hu
  cases hu
  exact ⟨(buildTree_nodes hf h).trans hc.nodes_ge, .inl (buildTree_some hf h).1⟩

theorem treeInv_parsed {c : Config} {p : List Byte} {t : FreqTree} {rest : List Bool} {n : Nat}
    (h : deserialize c.maxNodes p = .tree t rest n) : TreeInv c (some t) := by
  intro u hu
  cases hu
  obtain ⟨-, hz, hn, hm⟩ := parseTree_tree h
  exact ⟨by omega, .inr hz⟩

/-- The units after reset are legal (70_reset_and_hazards.md R341). -/
theorem hardReset_inv {s : State} (hc : s.cfg.Legal) : Inv s.hardReset := by
  have h1 := hc.batch_le
  have h2 := hc.srcBufCap_lt
  have h3 := hc.thresh_le
  have h4 := hc.snkBufCap_lt
  have hb : (BitVec.ofNat 32 s.cfg.srcBatchReset).toNat = s.cfg.srcBatchReset := by
    rw [BitVec.toNat_ofNat, Nat.mod_eq_of_lt (by omega)]
  have ht : (BitVec.ofNat 32 s.cfg.snkThreshReset).toNat = s.cfg.snkThreshReset := by
    rw [BitVec.toNat_ofNat, Nat.mod_eq_of_lt (by omega)]
  refine ⟨⟨hc, ⟨?_, ?_, Nat.zero_le _, .inr ⟨rfl, rfl⟩, fun h => by cases h⟩,
    ⟨?_, Nat.one_pos, Nat.zero_le _, fun h => by cases h⟩, fresh_enc_inv _, treeInv_none _⟩, trivial⟩
  · simp only [State.hardReset, Bsrc.fresh, hb]; exact hc.batch_pos
  · simp only [State.hardReset, Bsrc.fresh, hb]; exact hc.batch_le
  · simp only [State.hardReset, Bsnk.fresh, ht]; exact hc.thresh_le

end Sys2Proof.Machine
end

