-- ==== Sys2Proof/Laws/Moves.lean ====
section
/-! SUPPORT. What the bit stream operations may change, and how a bit stream command ends: with one response or waiting.
The frame statements and the statements of the engine cite these lemmas. -/

namespace Sys2Proof.Machine

/-! ### Moves of the bit source -/

/-- `t` differs from `s` only in what a bit read may change: the buffer and its position, the answers of port I not yet
taken, and the read transactions made (41_bitsource.md R100). -/
def SrcMoves (s t : State) : Prop :=
  ∃ buf rpos bpos as es,
    t = { s with bsrc := { s.bsrc with buf := buf, rpos := rpos, bpos := bpos }, portI := as, trace := s.trace ++ es } ∧
    ∀ e ∈ es, ∃ n a, e = PortEvent.read n a

theorem SrcMoves.refl (s : State) : SrcMoves s s :=
  ⟨s.bsrc.buf, s.bsrc.rpos, s.bsrc.bpos, s.portI, [], by simp, by simp⟩

theorem SrcMoves.trans {s t u : State} (h : SrcMoves s t) (h' : SrcMoves t u) : SrcMoves s u := by
  obtain ⟨b, r, p, as, es, rfl, he⟩ := h
  obtain ⟨b', r', p', as', es', rfl, he'⟩ := h'
  refine ⟨b', r', p', as', es ++ es', by simp, fun e h => ?_⟩
  rcases List.mem_append.1 h with h | h
  · exact he e h
  · exact he' e h

theorem advance_moves (s : State) : SrcMoves s (s.setBsrc (advance s.bsrc)) := by
  unfold advance
  split
  · exact ⟨s.bsrc.buf, s.bsrc.rpos + 1, 0, s.portI, [], by simp [State.setBsrc], by simp⟩
  · exact ⟨s.bsrc.buf, s.bsrc.rpos, s.bsrc.bpos + 1, s.portI, [], by simp [State.setBsrc], by simp⟩

theorem emptied_moves (s : State) : SrcMoves s (s.setBsrc (emptied s.bsrc)) :=
  ⟨[], 0, 0, s.portI, [], by simp [State.setBsrc, emptied], by simp⟩

/-- A refill makes read transactions only. -/
theorem fill_events (batch : Nat) (buf : List Byte) (as : List PortIAnswer) :
    ∀ e ∈ (fill batch buf as).events, ∃ n a, e = PortEvent.read n a := by
  induction as generalizing buf with
  | nil => simp [fill]
  | cons a as ih =>
    cases a with
    | ioErr => simp [fill]
    | bytes b =>
      simp only [fill]
      split
      · simp
      · split
        · simp
        · intro e he
          rcases List.mem_cons.1 he with rfl | he
          · exact ⟨_, _, rfl⟩
          · exact ih _ e he

theorem refill_moves (s : State) : SrcMoves s s.refill.2 :=
  ⟨(fill s.bsrc.batch.toNat s.bsrc.buf s.portI).buf, s.bsrc.rpos, s.bsrc.bpos,
    (fill s.bsrc.batch.toNat s.bsrc.buf s.portI).answers, (fill s.bsrc.batch.toNat s.bsrc.buf s.portI).events, rfl,
    fill_events _ _ _⟩

theorem refillBit_moves (s : State) : SrcMoves s s.refillBit.2 := by
  have h := refill_moves s
  unfold State.refillBit
  split
  all_goals
    next t e =>
    rw [e] at h
    first
    | exact h
    | exact h.trans (advance_moves t)

theorem nextBit_moves (s : State) : SrcMoves s s.nextBit.2 := by
  unfold State.nextBit
  split
  · exact (emptied_moves s).trans (refillBit_moves _)
  · exact advance_moves s

/-- A refill with an answer at hand makes at least one transaction. -/
theorem refill_trace {s : State} (h : s.portI ≠ []) : ∃ e es, s.refill.2.trace = s.trace ++ e :: es := by
  match hp : s.portI with
  | [] => exact absurd hp h
  | .ioErr :: as =>
    simp only [State.refill, hp, fill]
    exact ⟨_, [], rfl⟩
  | .bytes b :: as =>
    simp only [State.refill, hp, fill]
    split
    · exact ⟨_, [], rfl⟩
    · split
      · exact ⟨_, [], rfl⟩
      · exact ⟨_, _, rfl⟩

theorem SrcMoves.trace {s t : State} (h : SrcMoves s t) : s.trace <+: t.trace := by
  obtain ⟨b, r, p, as, es, rfl, -⟩ := h; exact List.prefix_append _ _

/-- Read transactions take nothing to port O. -/
theorem portOTaken_reads (tr es : List PortEvent) (h : ∀ e ∈ es, ∃ n a, e = PortEvent.read n a) :
    portOTaken (tr ++ es) = portOTaken tr := by
  unfold portOTaken
  rw [List.flatMap_append]
  suffices hs : es.flatMap bytesTaken = [] by rw [hs, List.append_nil]
  rw [List.flatMap_eq_nil_iff]
  intro e he
  obtain ⟨n, a, rfl⟩ := h e he
  rfl

/-! ### Moves of the bit sink -/

/-- `t` differs from `s` only in what writing bits and draining may change: the bits held, the answers of port O not yet
taken, and the write transactions made (42_bitsink.md R130). -/
def SnkMoves (s t : State) : Prop :=
  ∃ acc nbits buf as es,
    t = { s with bsnk := { s.bsnk with acc := acc, nbits := nbits, buf := buf }, portO := as, trace := s.trace ++ es } ∧
    ∀ e ∈ es, ∃ b a, e = PortEvent.write b a

theorem SnkMoves.refl (s : State) : SnkMoves s s :=
  ⟨s.bsnk.acc, s.bsnk.nbits, s.bsnk.buf, s.portO, [], by simp, by simp⟩

theorem SnkMoves.trans {s t u : State} (h : SnkMoves s t) (h' : SnkMoves t u) : SnkMoves s u := by
  obtain ⟨b, r, p, as, es, rfl, he⟩ := h
  obtain ⟨b', r', p', as', es', rfl, he'⟩ := h'
  refine ⟨b', r', p', as', es ++ es', by simp, fun e h => ?_⟩
  rcases List.mem_append.1 h with h | h
  · exact he e h
  · exact he' e h

/-- Writing the pending bits and the buffer, keeping `open` and the threshold. -/
theorem setBsnk_moves (s : State) (acc : Byte) (nbits : BitVec 3) (buf : List Byte) :
    SnkMoves s (s.setBsnk { s.bsnk with acc := acc, nbits := nbits, buf := buf }) :=
  ⟨acc, nbits, buf, s.portO, [], by simp [State.setBsnk], by simp⟩

theorem portWrite_moves (s : State) : SnkMoves s s.portWrite.2.2 := by
  unfold State.portWrite
  split
  · exact SnkMoves.refl s
  · exact ⟨_, _, _, _, [_], rfl, by simp⟩
  · exact ⟨_, _, _, _, [_], rfl, by simp⟩

theorem drain_moves (s : State) : SnkMoves s s.drain.2.2 := by
  unfold State.drain
  split
  · exact SnkMoves.refl s
  · exact portWrite_moves s

theorem putAfterWrite_state (r : WriteEnd × Nat × State) : (putAfterWrite r).2 = r.2.2 := by
  obtain ⟨e, n, t⟩ := r; cases e <;> rfl

theorem putBit_moves (b : Bool) (s : State) : SnkMoves s (s.putBit b).2 := by
  unfold State.putBit
  split
  · exact setBsnk_moves s _ _ _
  · split
    · exact SnkMoves.refl s
    · refine (setBsnk_moves s 0 0 (s.bsnk.buf ++ [accWith s.bsnk.acc b])).trans ?_
      unfold State.autoDrain
      split
      · rw [putAfterWrite_state]; exact drain_moves _
      · exact SnkMoves.refl _

theorem padIfRoom_moves (s : State) : SnkMoves s s.padIfRoom := by
  unfold State.padIfRoom
  split
  · exact setBsnk_moves s _ _ _
  · exact SnkMoves.refl s

theorem SnkMoves.trace {s t : State} (h : SnkMoves s t) : s.trace <+: t.trace := by
  obtain ⟨b, r, p, as, es, rfl, -⟩ := h; exact List.prefix_append _ _

/-- Write transactions give nothing to port I. -/
theorem portIGiven_writes (tr es : List PortEvent) (h : ∀ e ∈ es, ∃ b a, e = PortEvent.write b a) :
    portIGiven (tr ++ es) = portIGiven tr := by
  unfold portIGiven
  rw [List.flatMap_append]
  suffices hs : es.flatMap bytesGiven = [] by rw [hs, List.append_nil]
  rw [List.flatMap_eq_nil_iff]
  intro e he
  obtain ⟨n, a, rfl⟩ := h e he
  rfl

/-! ### How a bit stream command ends (30_encoding.md R75, 10_state.md R40) -/

/-- The command waits for a port; it was not only accepted. -/
def portJob : Job → Bool
  | .started _ => false
  | _ => true

/-- From the state `u` the command `i` ends with one response without payload and a status of the list, or waits. -/
def EndsOrWaits (i : Instr) (cs : List Status) (u t : State) : Prop :=
  (∃ c ∈ cs, ∃ w, t = u.respond c w []) ∨ (∃ j, portJob j = true ∧ jobCommand j = some i ∧ t = u.wait j)

theorem nextBitEnd_ends (r : BitEnd × State) :
    EndsOrWaits (.srcNextBit Operands.none) [.ok, .eod, .eIo] r.2 (nextBitEnd r) := by
  obtain ⟨e, t⟩ := r
  cases e with
  | waiting => exact .inr ⟨.srcNextBit, rfl, rfl, rfl⟩
  | bit b => exact .inl ⟨.ok, by simp, _, rfl⟩
  | eod => exact .inl ⟨.eod, by simp, _, rfl⟩
  | ioErr => exact .inl ⟨.eIo, by simp, _, rfl⟩

theorem nextByteFrom_ends (left : Nat) (v : Byte) (r : BitEnd × State) :
    ∃ u, SrcMoves r.2 u ∧
      EndsOrWaits (.srcNextByte Operands.none) [.ok, .eod, .eIo] u (nextByteFrom left v r) := by
  induction left generalizing v r with
  | zero =>
    obtain ⟨e, t⟩ := r
    refine ⟨t, SrcMoves.refl t, ?_⟩
    cases e with
    | waiting => exact .inr ⟨.srcNextByte 0 v, rfl, rfl, rfl⟩
    | bit b => exact .inl ⟨.ok, by simp, _, rfl⟩
    | eod => exact .inl ⟨.eod, by simp, _, rfl⟩
    | ioErr => exact .inl ⟨.eIo, by simp, _, rfl⟩
  | succ left ih =>
    obtain ⟨e, t⟩ := r
    cases e with
    | waiting => exact ⟨t, SrcMoves.refl t, .inr ⟨.srcNextByte (left + 1) v, rfl, rfl, rfl⟩⟩
    | bit b =>
      obtain ⟨u, hu, he⟩ := ih (shiftIn v b) t.nextBit
      exact ⟨u, (nextBit_moves t).trans hu, he⟩
    | eod => exact ⟨t, SrcMoves.refl t, .inl ⟨.eod, by simp, _, rfl⟩⟩
    | ioErr => exact ⟨t, SrcMoves.refl t, .inl ⟨.eIo, by simp, _, rfl⟩⟩

theorem writeBitEnd_ends (imm : Byte) (r : PutEnd × State) :
    EndsOrWaits (.snkWriteBit (Operands.ofImm imm)) [.ok, .eIo, .eCapacity] r.2 (writeBitEnd imm r) := by
  obtain ⟨e, t⟩ := r
  cases e with
  | waiting => exact .inr ⟨.snkWriteBit imm, rfl, rfl, rfl⟩
  | accepted => exact .inl ⟨.ok, by simp, _, rfl⟩
  | acceptedIoErr => exact .inl ⟨.eIo, by simp, _, rfl⟩
  | full => exact .inl ⟨.eCapacity, by simp, _, rfl⟩

theorem writeByteFrom_ends (byte : Byte) (bits : List Bool) (done : Nat) (r : PutEnd × State) :
    ∃ u, SnkMoves r.2 u ∧
      EndsOrWaits (.snkWriteByte (Operands.ofImm byte)) [.ok, .eIo, .eCapacity] u (writeByteFrom byte bits done r) := by
  induction bits generalizing done r with
  | nil =>
    obtain ⟨e, t⟩ := r
    refine ⟨t, SnkMoves.refl t, ?_⟩
    cases e with
    | waiting => exact .inr ⟨.snkWriteByte byte done, rfl, rfl, rfl⟩
    | accepted => exact .inl ⟨.ok, by simp, _, rfl⟩
    | acceptedIoErr => exact .inl ⟨.eIo, by simp, _, rfl⟩
    | full => exact .inl ⟨.eCapacity, by simp, _, rfl⟩
  | cons b bits ih =>
    obtain ⟨e, t⟩ := r
    cases e with
    | waiting => exact ⟨t, SnkMoves.refl t, .inr ⟨.snkWriteByte byte done, rfl, rfl, rfl⟩⟩
    | accepted =>
      obtain ⟨u, hu, he⟩ := ih (done + 1) (t.putBit b)
      exact ⟨u, (putBit_moves b t).trans hu, he⟩
    | acceptedIoErr => exact ⟨t, SnkMoves.refl t, .inl ⟨.eIo, by simp, _, rfl⟩⟩
    | full => exact ⟨t, SnkMoves.refl t, .inl ⟨.eCapacity, by simp, _, rfl⟩⟩

/-- The sink a finalizing command leaves from the sink it flushed. -/
def finalizedSink (k : Bsnk) : Finalize → Bsnk
  | .flush => k
  | .reopen t => ⟨true, t, 0, 0, []⟩
  | .close => { k with isOpen := false }

/-- How a finalizing command ends from the state `u` after its drains: OK with the sink it leaves, E_IO with the sink as
it is, or waiting. -/
def FinalizeEnds (f : Finalize) (u t : State) : Prop :=
  (∃ w, t = (u.setBsnk (finalizedSink u.bsnk f)).respond .ok w []) ∨
    (∃ w, t = u.respond .eIo w []) ∨ (∃ j, portJob j = true ∧ jobCommand j = some (finalizeCommand f) ∧ t = u.wait j)

theorem flushDone_ends (f : Finalize) (w : Nat) (s : State) : FinalizeEnds f s (flushDone f w s) := by
  cases f <;> exact .inl ⟨_, rfl⟩

theorem flushSecondEnd_ends (f : Finalize) (w : Nat) (r : WriteEnd × Nat × State) :
    FinalizeEnds f r.2.2 (flushSecondEnd f w r) := by
  obtain ⟨e, n, t⟩ := r
  cases e with
  | ok => exact flushDone_ends f _ t
  | ioErr => exact .inr (.inl ⟨_, rfl⟩)
  | waiting => exact .inr (.inr ⟨.snkSecondDrain f w, rfl, rfl, rfl⟩)

theorem flushSecond_ends (f : Finalize) (w : Nat) (s : State) :
    ∃ u, SnkMoves s u ∧ FinalizeEnds f u (flushSecond f w s) := by
  unfold flushSecond
  split
  · exact ⟨s, SnkMoves.refl s, flushDone_ends f w s⟩
  · exact ⟨_, (setBsnk_moves s _ _ _).trans (drain_moves _), flushSecondEnd_ends f w _⟩

theorem flushFirstEnd_ends (f : Finalize) (r : WriteEnd × Nat × State) :
    ∃ u, SnkMoves r.2.2 u ∧ FinalizeEnds f u (flushFirstEnd f r) := by
  obtain ⟨e, n, t⟩ := r
  cases e with
  | ok => exact flushSecond_ends f n t
  | ioErr => exact ⟨t, SnkMoves.refl t, .inr (.inl ⟨_, rfl⟩)⟩
  | waiting => exact ⟨t, SnkMoves.refl t, .inr (.inr ⟨.snkFirstDrain f, rfl, rfl, rfl⟩)⟩

theorem flushFor_ends (f : Finalize) (s : State) : ∃ u, SnkMoves s u ∧ FinalizeEnds f u (flushFor f s) := by
  obtain ⟨u, hu, he⟩ := flushFirstEnd_ends f s.padIfRoom.drain
  exact ⟨u, ((padIfRoom_moves s).trans (drain_moves _)).trans hu, he⟩

end Sys2Proof.Machine
end

