-- ==== Sys2Proof/Laws/PerInstr.lean ====
section
/-! SUPPORT. One fact about every command as syntax: its packet's w0 selects it, and carries its operands
(30_encoding.md R71, R72, R78). -/

namespace Sys2Proof.Laws.Selection

/-- The packet of a command is selected by its opcode, its reserved bits are 0, and it carries its operands. -/
def Statement (i : Instr) : Prop :=
  (encode i).w0.extractLsb' 16 16 = 0 ∧
    selectCommand ((encode i).w0.extractLsb' 0 8).toNat
      ⟨(encode i).w0.extractLsb' 8 8, (encode i).w1, (encode i).payload⟩ = some i

/-- The statement, from the opcode map. -/
theorem of_opcode (i : Instr) : Statement i := by
  unfold Statement encode
  simp only [headWord_reserved, headWord_opcode, headWord_imm]
  exact ⟨trivial, selectCommand_opcode i⟩

theorem csrRead (o : Operands) : Statement (.csrRead o) := of_opcode _

theorem srcOpen (o : Operands) : Statement (.srcOpen o) := of_opcode _

theorem srcNextBit (o : Operands) : Statement (.srcNextBit o) := of_opcode _

theorem srcNextByte (o : Operands) : Statement (.srcNextByte o) := of_opcode _

theorem srcTakeUnconsumed (o : Operands) : Statement (.srcTakeUnconsumed o) := of_opcode _

theorem snkOpen (o : Operands) : Statement (.snkOpen o) := of_opcode _

theorem snkWriteBit (o : Operands) : Statement (.snkWriteBit o) := of_opcode _

theorem snkWriteByte (o : Operands) : Statement (.snkWriteByte o) := of_opcode _

theorem snkFlush (o : Operands) : Statement (.snkFlush o) := of_opcode _

theorem snkSetThreshold (o : Operands) : Statement (.snkSetThreshold o) := of_opcode _

theorem snkClose (o : Operands) : Statement (.snkClose o) := of_opcode _

theorem treeBuild (o : Operands) : Statement (.treeBuild o) := of_opcode _

theorem treeSerialize (o : Operands) : Statement (.treeSerialize o) := of_opcode _

theorem treeDeserialize (o : Operands) : Statement (.treeDeserialize o) := of_opcode _

theorem treeCodeTable (o : Operands) : Statement (.treeCodeTable o) := of_opcode _

theorem encNew (o : Operands) : Statement (.encNew o) := of_opcode _

theorem encAddChunk (o : Operands) : Statement (.encAddChunk o) := of_opcode _

theorem encEncode (o : Operands) : Statement (.encEncode o) := of_opcode _

theorem decDecode (o : Operands) : Statement (.decDecode o) := of_opcode _

end Sys2Proof.Laws.Selection
end

