-- ==== Sys2Proof/Laws/Resume.lean ====
section
/-! SUPPORT. What later answers, and the engine's own field, do to the bit stream operations: an operation that ended is not
changed by answers that come later, one that waits goes on with them, and neither looks at the engine (20_memory.md R60,
R65). -/

namespace Sys2Proof.Machine

/-- The state with another engine field. -/
def State.setEng (s : State) (e : Engine) : State := { s with eng := e }

@[simp] theorem setEng_respond (s : State) (e : Engine) (c : Status) (w : Word) (p : List Byte) :
    (s.setEng e).respond c w p = s.respond c w p := rfl
@[simp] theorem setEng_raise (s : State) (e : Engine) (c : Status) (w : Word) : (s.setEng e).raise c w = s.raise c w := rfl
@[simp] theorem setEng_wait (s : State) (e : Engine) (j : Job) : (s.setEng e).wait j = s.wait j := rfl
@[simp] theorem setEng_setBsrc (s : State) (e : Engine) (b : Bsrc) : (s.setEng e).setBsrc b = (s.setBsrc b).setEng e := rfl
@[simp] theorem setEng_setBsnk (s : State) (e : Engine) (k : Bsnk) : (s.setEng e).setBsnk k = (s.setBsnk k).setEng e := rfl
@[simp] theorem setEng_bsrc (s : State) (e : Engine) : (s.setEng e).bsrc = s.bsrc := rfl
@[simp] theorem setEng_bsnk (s : State) (e : Engine) : (s.setEng e).bsnk = s.bsnk := rfl
@[simp] theorem setEng_cfg (s : State) (e : Engine) : (s.setEng e).cfg = s.cfg := rfl

@[simp] theorem withAnswers_respond (s : State) (as : List PortIAnswer) (bs : List PortOAnswer) (c : Status) (w : Word)
    (p : List Byte) : (s.withAnswers as bs).respond c w p = (s.respond c w p).withAnswers as bs := rfl
@[simp] theorem withAnswers_raise (s : State) (as : List PortIAnswer) (bs : List PortOAnswer) (c : Status) (w : Word) :
    (s.withAnswers as bs).raise c w = (s.raise c w).withAnswers as bs := rfl
@[simp] theorem withAnswers_setBsrc (s : State) (as : List PortIAnswer) (bs : List PortOAnswer) (b : Bsrc) :
    (s.withAnswers as bs).setBsrc b = (s.setBsrc b).withAnswers as bs := rfl
@[simp] theorem withAnswers_setBsnk (s : State) (as : List PortIAnswer) (bs : List PortOAnswer) (k : Bsnk) :
    (s.withAnswers as bs).setBsnk k = (s.setBsnk k).withAnswers as bs := rfl
@[simp] theorem withAnswers_bsrc (s : State) (as : List PortIAnswer) (bs : List PortOAnswer) :
    (s.withAnswers as bs).bsrc = s.bsrc := rfl
@[simp] theorem withAnswers_bsnk (s : State) (as : List PortIAnswer) (bs : List PortOAnswer) :
    (s.withAnswers as bs).bsnk = s.bsnk := rfl
@[simp] theorem withAnswers_cfg (s : State) (as : List PortIAnswer) (bs : List PortOAnswer) :
    (s.withAnswers as bs).cfg = s.cfg := rfl
@[simp] theorem withAnswers_wait (s : State) (as : List PortIAnswer) (bs : List PortOAnswer) (j : Job) :
    (s.wait j).withAnswers as bs = (s.withAnswers as bs).setEng (.busy j) := rfl

/-! ### The bit source -/

/-- A refill that waited goes on from where it stood; one that ended leaves the later answers. -/
theorem fill_append (batch : Nat) (buf : List Byte) (l as : List PortIAnswer) :
    fill batch buf (l ++ as) =
      match (fill batch buf l).stop with
      | .waiting =>
        { fill batch (fill batch buf l).buf as with
          events := (fill batch buf l).events ++ (fill batch (fill batch buf l).buf as).events }
      | _ => { fill batch buf l with answers := (fill batch buf l).answers ++ as } := by
  induction l generalizing buf with
  | nil => simp [fill]
  | cons a l ih =>
    cases a with
    | ioErr => simp [fill]
    | bytes b =>
      rw [List.cons_append]
      by_cases hb : b = []
      · subst hb
        rw [fill_eod, fill_eod]
        cases buf <;> rfl
      · by_cases hn : batch ≤ buf.length + b.length
        · rw [fill_full _ hb hn, fill_full _ hb hn]
          simp only [answersAfterRead]
          split <;> rfl
        · rw [fill_short _ hb (by omega), fill_short _ hb (by omega), ih]
          cases (fill batch (buf ++ b) l).stop <;> rfl

/-- A refill that waits has taken every answer. -/
theorem fill_waiting (batch : Nat) (buf : List Byte) (l : List PortIAnswer) (h : (fill batch buf l).stop = .waiting) :
    (fill batch buf l).answers = [] := by
  induction l generalizing buf with
  | nil => rfl
  | cons a l ih =>
    cases a with
    | ioErr => cases h
    | bytes b =>
      by_cases hb : b = []
      · subst hb; rw [fill_eod] at h; cases buf <;> cases h
      · by_cases hn : batch ≤ buf.length + b.length
        · rw [fill_full _ hb hn] at h; cases h
        · rw [fill_short _ hb (by omega)] at h ⊢; exact ih _ h

/-- `r` is what an operation answered and `r'` what it answers with the later answers `as`, `bs`: the same when it ended, and
what it goes on to when it waited. -/
def GoesOn (as : List PortIAnswer) (bs : List PortOAnswer) (r r' : BitEnd × State) : Prop :=
  if r.1 = .waiting then r' = (r.2.withAnswers as bs).refillBit else r' = (r.1, r.2.withAnswers as bs)

theorem refillBit_goesOn (s : State) (as : List PortIAnswer) (bs : List PortOAnswer) :
    GoesOn as bs s.refillBit (s.withAnswers as bs).refillBit := by
  have h := fill_append s.bsrc.batch.toNat s.bsrc.buf s.portI as
  have hw := fill_waiting s.bsrc.batch.toNat s.bsrc.buf s.portI
  cases hs : (fill s.bsrc.batch.toNat s.bsrc.buf s.portI).stop <;> rw [hs] at h hw <;>
    simp [GoesOn, State.refillBit, State.refill, State.withAnswers, State.takeBit, State.setBsrc, h, hs, hw]

theorem nextBit_goesOn (s : State) (as : List PortIAnswer) (bs : List PortOAnswer) :
    GoesOn as bs s.nextBit (s.withAnswers as bs).nextBit := by
  unfold State.nextBit
  simp only [withAnswers_bsrc, withAnswers_setBsrc]
  by_cases h : exhausted s.bsrc
  · simp only [h, if_true]
    exact refillBit_goesOn _ as bs
  · simp only [h]
    rw [GoesOn, if_neg (by simp [State.takeBit])]; rfl

@[simp] theorem setEng_refillBit (s : State) (e : Engine) :
    (s.setEng e).refillBit = (s.refillBit.1, s.refillBit.2.setEng e) := by
  simp only [State.refillBit, State.refill, State.setEng]
  cases (fill s.bsrc.batch.toNat s.bsrc.buf s.portI).stop <;> rfl

@[simp] theorem setEng_nextBit (s : State) (e : Engine) :
    (s.setEng e).nextBit = (s.nextBit.1, s.nextBit.2.setEng e) := by
  unfold State.nextBit
  simp only [setEng_bsrc, setEng_setBsrc, setEng_refillBit]
  split <;> rfl

@[simp] theorem setEng_nextBitEnd (r : BitEnd) (s : State) (e : Engine) : nextBitEnd (r, s.setEng e) = nextBitEnd (r, s) := by
  cases r <;> rfl

@[simp] theorem setEng_nextByteFrom (left : Nat) (v : Byte) (r : BitEnd) (s : State) (e : Engine) :
    nextByteFrom left v (r, s.setEng e) = nextByteFrom left v (r, s) := by
  induction left generalizing v r s with
  | zero => cases r <;> rfl
  | succ left ih =>
    cases r with
    | bit b => simp only [nextByteFrom, setEng_nextBit, ih]
    | _ => rfl

/-! ### The bit sink -/

@[simp] theorem setEng_portWrite (s : State) (e : Engine) :
    (s.setEng e).portWrite = (s.portWrite.1, s.portWrite.2.1, s.portWrite.2.2.setEng e) := by
  simp only [State.portWrite, State.setEng]
  split <;> rfl

@[simp] theorem setEng_drain (s : State) (e : Engine) :
    (s.setEng e).drain = (s.drain.1, s.drain.2.1, s.drain.2.2.setEng e) := by
  unfold State.drain
  simp only [setEng_bsnk, setEng_portWrite]
  split <;> rfl

@[simp] theorem setEng_putAfterWrite (w : WriteEnd) (n : Nat) (s : State) (e : Engine) :
    putAfterWrite (w, n, s.setEng e) = ((putAfterWrite (w, n, s)).1, (putAfterWrite (w, n, s)).2.setEng e) := by
  cases w <;> rfl

@[simp] theorem setEng_putBit (s : State) (e : Engine) (b : Bool) :
    (s.setEng e).putBit b = ((s.putBit b).1, (s.putBit b).2.setEng e) := by
  unfold State.putBit State.autoDrain
  simp only [setEng_bsnk, setEng_cfg, setEng_setBsnk, setEng_drain]
  split
  · rfl
  · split
    · rfl
    · split
      · rw [setEng_putAfterWrite]
      · rfl

@[simp] theorem setEng_writeBitEnd (imm : Byte) (r : PutEnd) (s : State) (e : Engine) :
    writeBitEnd imm (r, s.setEng e) = writeBitEnd imm (r, s) := by
  cases r <;> rfl

@[simp] theorem setEng_writeByteFrom (byte : Byte) (l : List Bool) (done : Nat) (r : PutEnd) (s : State) (e : Engine) :
    writeByteFrom byte l done (r, s.setEng e) = writeByteFrom byte l done (r, s) := by
  induction l generalizing done r s with
  | nil => cases r <;> rfl
  | cons b l ih =>
    cases r with
    | accepted => simp only [writeByteFrom, setEng_putBit, ih]
    | _ => rfl

@[simp] theorem setEng_flushDone (f : Finalize) (w : Nat) (s : State) (e : Engine) :
    flushDone f w (s.setEng e) = flushDone f w s := by
  cases f <;> rfl

@[simp] theorem setEng_flushSecondEnd (f : Finalize) (w : Nat) (r : WriteEnd) (n : Nat) (s : State) (e : Engine) :
    flushSecondEnd f w (r, n, s.setEng e) = flushSecondEnd f w (r, n, s) := by
  cases r with
  | ok => exact setEng_flushDone f _ s e
  | _ => rfl

@[simp] theorem setEng_flushSecond (f : Finalize) (w : Nat) (s : State) (e : Engine) :
    flushSecond f w (s.setEng e) = flushSecond f w s := by
  unfold flushSecond
  simp only [setEng_bsnk, setEng_flushDone, setEng_setBsnk, setEng_drain, setEng_flushSecondEnd]

@[simp] theorem setEng_flushFirstEnd (f : Finalize) (r : WriteEnd) (n : Nat) (s : State) (e : Engine) :
    flushFirstEnd f (r, n, s.setEng e) = flushFirstEnd f (r, n, s) := by
  cases r with
  | ok => exact setEng_flushSecond f n s e
  | _ => rfl

@[simp] theorem setEng_padIfRoom (s : State) (e : Engine) : (s.setEng e).padIfRoom = s.padIfRoom.setEng e := by
  unfold State.padIfRoom
  simp only [setEng_bsnk, setEng_cfg, setEng_setBsnk]
  exact (apply_ite (fun u : State => u.setEng e) _ _ _).symm

@[simp] theorem setEng_flushFor (f : Finalize) (s : State) (e : Engine) : flushFor f (s.setEng e) = flushFor f s := by
  simp only [flushFor, setEng_padIfRoom, setEng_drain, setEng_flushFirstEnd]

/-! ### Every command -/

/-- No command looks at the engine: each ends IDLE or waiting, whatever it was run from (10_state.md R40). -/
@[simp] theorem setEng_commandBody (i : Instr) (s : State) (e : Engine) :
    commandBody i (s.setEng e) = commandBody i s := by
  cases i <;> simp only [commandBody, srcNextBitBody, srcNextByteBody, snkOpenBody, snkWriteBitBody, snkWriteByteBody,
    snkFlushBody, snkCloseBody, setEng_bsnk, setEng_bsrc, setEng_nextBit, setEng_putBit, setEng_nextBitEnd,
    setEng_nextByteFrom, setEng_writeBitEnd, setEng_writeByteFrom, setEng_raise, setEng_flushDone, setEng_flushFor]
  all_goals rfl

@[simp] theorem exec_setEng (i : Instr) (s : State) (e : Engine) : exec i (s.setEng e) = exec i s := by
  rw [exec_eq_checked, exec_eq_checked, checked, checked]
  simp only [setEng_cfg, setEng_raise, setEng_commandBody]

/-- A write that was answered is not changed by later answers. -/
theorem portWrite_withAnswers {s : State} (as : List PortIAnswer) (bs : List PortOAnswer) (h : s.portO ≠ []) :
    (s.withAnswers as bs).portWrite = (s.portWrite.1, s.portWrite.2.1, s.portWrite.2.2.withAnswers as bs) := by
  match hp : s.portO with
  | [] => exact absurd hp h
  | .ok :: l => simp [State.portWrite, State.withAnswers, hp]
  | .ioErr :: l => simp [State.portWrite, State.withAnswers, hp]

end Sys2Proof.Machine
end

