-- ==== Sys2Proof/Laws/Sink.lean ====
section
/-! SUPPORT. The bit sink seen as the list of the bits it was given (42_bitsink.md R131 to R135). -/

namespace Sys2Proof.Machine

/-- Accumulating a bit that completes no byte appends it to the pending bits (R131). -/
theorem pending_push :
    ∀ (acc : Byte) (n : BitVec 3) (b : Bool), n ≠ 7 →
      (byteBits (accWith acc b)).drop (8 - (n + 1).toNat) = (byteBits acc).drop (8 - n.toNat) ++ [b] := by
  decide +kernel

/-- The byte the eighth bit completes is the seven pending bits and it (R131). -/
theorem pending_full : ∀ (acc : Byte) (b : Bool), byteBits (accWith acc b) = (byteBits acc).drop 1 ++ [b] := by
  decide +kernel

/-- The padded byte holds the pending bits, then zeros (R135). -/
theorem padded_pending :
    ∀ (acc : Byte) (n : BitVec 3), n ≠ 0 → [acc <<< (8 - n.toNat)] = pack ((byteBits acc).drop (8 - n.toNat)) := by
  decide +kernel

theorem pendingBits_zero (k : Bsnk) (h : k.nbits = 0) : pendingBits k = [] := by simp [pendingBits, h]

theorem pack_sinkBits (k : Bsnk) : pack (sinkBits k) = k.buf ++ pack (pendingBits k) := pack_unpack_append _ _

theorem accWith_or (a : Byte) (b : Bool) : accWith a b = (a <<< 1) ||| if b then 1 else 0 := by cases b <;> rfl

/-- A bit that is not refused for a full buffer comes next in the stream, whatever the port answers (R131). -/
theorem putBit_stream (s : State) (b : Bool) (hf : (s.putBit b).1 ≠ .full) :
    (s.putBit b).2.sinkStream = s.sinkStream ++ [b] := by
  revert hf
  unfold State.putBit
  split
  · next h =>
    intro _
    simp only [State.sinkStream, State.setBsnk, sinkBits, pendingBits, pending_push _ _ _ h]
    simp
  · next h =>
    have h7 : s.bsnk.nbits = 7 := by simpa using h
    split
    · intro hh
      exact absurd rfl hh
    · intro _
      unfold State.autoDrain
      have base : (s.setBsnk (withByte s.bsnk b)).sinkStream = s.sinkStream ++ [b] := by
        simp only [State.sinkStream, State.setBsnk, sinkBits, pendingBits, withByte, h7, unpack_append, unpack_cons,
          unpack_nil, pending_full]
        simp [byteBits]
      split
      · rw [putAfterWrite_state, ← base]
        unfold State.drain
        split
        · rfl
        · unfold State.portWrite
          split
          · rfl
          all_goals
            simp [State.sinkStream, State.setBsnk, sinkBits, pendingBits, withByte, portOTaken, bytesTaken]
      · exact base

theorem drain_ok {s : State} {as : List PortOAnswer} (hp : s.portO = .ok :: as) (hb : s.bsnk.buf ≠ []) :
    s.drain = (.ok, s.bsnk.buf.length,
      { s with bsnk := { s.bsnk with buf := [] }, portO := as, trace := s.trace ++ [.write s.bsnk.buf .ok] }) := by
  unfold State.drain
  rw [if_neg (by simpa using hb), State.portWrite, hp]

theorem drain_ioErr {s : State} {as : List PortOAnswer} (hp : s.portO = .ioErr :: as) (hb : s.bsnk.buf ≠ []) :
    s.drain = (.ioErr, 0, { s with portO := as, trace := s.trace ++ [.write s.bsnk.buf .ioErr] }) := by
  unfold State.drain
  rw [if_neg (by simpa using hb), State.portWrite, hp]

theorem drain_empty {s : State} (hb : s.bsnk.buf = []) : s.drain = (.ok, 0, s) := by
  unfold State.drain
  rw [if_pos (by simpa using hb)]

/-- A legal sink with no pending bit has an empty accumulator (10_state.md R26). -/
theorem acc_zero {c : Config} {k : Bsnk} (h : BsnkInv c k) (hn : k.nbits = 0) : k.acc = 0 := by
  have := h.acc_lt
  rw [hn] at this
  exact BitVec.eq_of_toNat_eq (by simpa using this)

/-- A byte is made from the first 8 bits. -/
theorem byteOfBits_take (c : List Bool) : byteOfBits c = byteOfBits (c.take 8) := by
  by_cases h : 8 ≤ c.length
  · conv_lhs => rw [← List.take_append_drop 8 c]
    exact byteOfBits_append _ _ (by simp; omega)
  · rw [List.take_of_length_le (by omega)]

end Sys2Proof.Machine
end

