-- ==== Sys2Proof/Laws/Source.lean ====
section
/-! SUPPORT. The bit source seen as the list of its buffered bits (41_bitsource.md R101, R105). -/

namespace Sys2Proof.Machine

theorem byteBits_drop (b : Byte) :
    ∀ k : BitVec 3, (byteBits b).drop k.toNat = b.getLsbD (7 - k.toNat) :: (byteBits b).drop (k.toNat + 1) := by
  revert b
  decide +kernel

theorem sourceBits_length (b : Bsrc) : (sourceBits b).length = 8 * b.buf.length - (8 * b.rpos + b.bpos.toNat) := by
  simp [sourceBits]

/-- `advance` moves the position only. -/
theorem advance_eq (b : Bsrc) : advance b = { b with rpos := (advance b).rpos, bpos := (advance b).bpos } := by
  unfold advance
  split <;> rfl

@[simp] theorem advance_batch (b : Bsrc) : (advance b).batch = b.batch := by unfold advance; split <;> rfl

@[simp] theorem advance_isOpen (b : Bsrc) : (advance b).isOpen = b.isOpen := by unfold advance; split <;> rfl

@[simp] theorem advance_buf (b : Bsrc) : (advance b).buf = b.buf := by unfold advance; split <;> rfl

@[simp] theorem emptied_advance (b : Bsrc) : emptied (advance b) = emptied b := by unfold advance; split <;> rfl

/-- The bit at the position is the first of the buffered bits, and advancing leaves the rest. -/
theorem sourceBits_take {b : Bsrc} (h : b.rpos < b.buf.length) : sourceBits b = bitAt b :: sourceBits (advance b) := by
  have hd : ∀ r k, r < b.buf.length → k ≤ 8 →
      (unpack b.buf).drop (8 * r + k) = (byteBits (b.buf.getD r 0)).drop k ++ unpack (b.buf.drop (r + 1)) := by
    intro r k hr hk
    rw [← List.drop_drop, unpack_drop, List.drop_eq_getElem_cons hr, unpack_cons,
      List.drop_append_of_le_length (by simp; omega)]
    simp [hr]
  unfold sourceBits advance bitAt
  rw [hd _ _ h (by omega), byteBits_drop]
  split
  · next hb =>
    simp only [hb]
    have := unpack_drop b.buf (b.rpos + 1)
    simp only [List.cons_append]
    rw [show 8 * (b.rpos + 1) + BitVec.toNat (0 : BitVec 3) = 8 * (b.rpos + 1) from rfl, this]
    rfl
  · next hb =>
    have : b.bpos.toNat ≠ 7 := fun e => hb (BitVec.eq_of_toNat_eq e)
    have h3 := b.bpos.isLt
    have e : (b.bpos + 1).toNat = b.bpos.toNat + 1 := by simp [BitVec.toNat_add]; omega
    simp only [e]
    rw [hd _ _ h (by omega)]
    rfl

/-- NextBit with a bit in the buffer answers it and asks the port for nothing. -/
theorem nextBit_buffered {s : State} (h : sourceBits s.bsrc ≠ []) :
    s.nextBit = (.bit (bitAt s.bsrc), s.setBsrc (advance s.bsrc)) ∧
      sourceBits s.bsrc = bitAt s.bsrc :: sourceBits (advance s.bsrc) := by
  have hl := List.length_pos_iff.2 h
  rw [sourceBits_length] at hl
  have hr : s.bsrc.rpos < s.bsrc.buf.length := by omega
  have : exhausted s.bsrc = false := by simp [exhausted]; omega
  exact ⟨by simp [State.nextBit, this, State.takeBit], sourceBits_take hr⟩

/-- NextBit with no bit in the buffer refills. -/
theorem nextBit_empty {s : State} (h : sourceBits s.bsrc = []) :
    s.nextBit = (s.setBsrc (emptied s.bsrc)).refillBit := by
  have : exhausted s.bsrc = true := by
    have := sourceBits_length s.bsrc
    rw [h] at this
    simp at this
    have h3 := s.bsrc.bpos.isLt
    simp [exhausted]
    omega
  simp [State.nextBit, this]

theorem shiftIn_ofNat (x : Nat) (b : Bool) :
    shiftIn (BitVec.ofNat 8 x) b = BitVec.ofNat 8 (2 * x + if b then 1 else 0) := by
  have : ∀ (v : Byte) b, shiftIn v b = BitVec.ofNat 8 (2 * v.toNat + if b then 1 else 0) := by decide +kernel
  rw [this]
  apply BitVec.eq_of_toNat_eq
  simp
  omega

theorem bitsToNat_cons (n : Nat) (b : Bool) (bs : List Bool) :
    bitsToNat (n + 1) (b :: bs) = (if b then 1 else 0) * 2 ^ n + bitsToNat n bs := by
  simp [bitsToNat]

theorem bitsToNat_lt (n : Nat) (bs : List Bool) : bitsToNat n bs < 2 ^ n := by
  induction n generalizing bs with
  | zero => simp [bitsToNat]
  | succ n ih =>
    have := ih bs.tail
    simp only [bitsToNat]
    rw [pow_succ]
    split <;> omega

/-- The result word `K << 8 | V` of SRC_NEXT_BYTE (R108). -/
theorem partialByteWord_eq {k v : Nat} (hk : k ≤ 8) (hv : v < 256) :
    partialByteWord k (BitVec.ofNat 8 v) = BitVec.ofNat 32 (k * 256 + v) := by
  have h : ∀ k : Fin 9, ∀ v : Byte, partialByteWord k v = BitVec.ofNat 32 (k.val * 256 + v.toNat) := by decide +kernel
  have := h ⟨k, by omega⟩ (BitVec.ofNat 8 v)
  simp only at this
  rw [this]
  congr 2
  simp
  omega

end Sys2Proof.Machine
end

