-- ==== Sys2Proof/Machine/Assembler.lean ====
section
/-! DEFINITION. The assembler of 30_encoding.md R84 and the pseudo-instructions of R85 and R86, from the parsed line on:
how an operand becomes IMM8, ARG and payload, and how a pseudo-instruction expands. Machine/AsmText.lean reads the text. -/

namespace Sys2Proof.Machine

/-- A byte-sequence operand (R84): text or hex bytes, a frequency table, or the response payload of the labelled earlier
command. -/
inductive AsmData where
  | bytes (b : List Byte)
  | freq (counts : List (Byte × Count))
  | label (name : String)
  deriving DecidableEq, Repr

/-- One assembler line without its label: a command with the operand R84 gives it, or a pseudo-instruction. -/
inductive AsmCommand where
  | csrRead (c : Csr)
  | csrReadNumber (n : Byte)
  | srcOpen (batch : Word)
  | srcNextBit
  | srcNextByte
  | srcTakeUnconsumed
  | snkOpen (thresh : Word)
  | snkWriteBit (bit : Bool)
  | snkWriteByte (byte : Byte)
  | snkFlush
  | snkSetThreshold (thresh : Word)
  | snkClose
  | treeBuild (d : AsmData)
  | treeSerialize
  | treeDeserialize (d : AsmData)
  | treeCodeTable
  | encNew
  | encAddChunk (d : AsmData)
  | encEncode
  | decDecode (d : AsmData)
  | snkWriteBits (bits : List Bool)
  | encOneshot (chunks : List AsmData)
  deriving DecidableEq, Repr

/-- The number of a CSR (10_state.md R34 to R38). -/
def csrNumber : Csr → Byte
  | .srcBatch => 0x00
  | .srcStat => 0x01
  | .srcAvail => 0x02
  | .snkThresh => 0x03
  | .snkStat => 0x04
  | .snkLevel => 0x05
  | .encStat => 0x06
  | .encTotalLo => 0x07
  | .encTotalHi => 0x08
  | .encSyms => 0x09
  | .treeStat => 0x0A
  | .treeNodes => 0x0B
  | .treeLeaves => 0x0C
  | .capSrcBuf => 0x10
  | .capSnkBuf => 0x11
  | .capMaxNodes => 0x12
  | .capChunkLo => 0x13
  | .capChunkHi => 0x14
  | .capCmdPayload => 0x15
  | .id => 0x16

/-- The count a `freq` operand names for a byte value; 0 when it names none (R84). DESIGN CHOICE (log entry 10): R84 does
not say what a value named twice counts; here the first of its counts is taken. -/
def namedCount (counts : List (Byte × Count)) (b : Byte) : Count :=
  ((counts.find? fun e => e.1 = b).map (·.2)).getD 0

/-- The 2048-byte table of a `freq` operand (R84, R91). -/
def freqPayload (counts : List (Byte × Count)) : List Byte :=
  ((List.range 256).map (BitVec.ofNat 8)).flatMap fun b => leBytes 8 (namedCount counts b).toNat

/-- The bytes of an operand, given the response payloads of the labelled earlier commands, latest first (R84). DESIGN
CHOICE (log entry 10): R84 does not say which line a label on two lines names; here it is the latest. -/
def dataBytes (labels : List (String × List Byte)) : AsmData → Option (List Byte)
  | .bytes b => some b
  | .freq counts => some (freqPayload counts)
  | .label name => (labels.find? fun e => e.1 = name).map (·.2)

/-- The lines a line stands for (R85, R86): itself, or the expansion of a pseudo-instruction. -/
def expandLine : AsmCommand → List AsmCommand
  | .snkWriteBits bits => bits.map .snkWriteBit
  | .encOneshot chunks => .encNew :: (chunks.map .encAddChunk ++ [.encEncode])
  | c => [c]

/-- The command an expanded line assembles to (R84): ARG of a `len` command is its operand's length. A pseudo-instruction
is expanded first, and a label must name an earlier command. -/
def assemble (labels : List (String × List Byte)) : AsmCommand → Option Instr
  | .csrRead c => some (.csrRead (Operands.ofImm (csrNumber c)))
  | .csrReadNumber n => some (.csrRead (Operands.ofImm n))
  | .srcOpen n => some (.srcOpen (Operands.ofArg n))
  | .srcNextBit => some (.srcNextBit Operands.none)
  | .srcNextByte => some (.srcNextByte Operands.none)
  | .srcTakeUnconsumed => some (.srcTakeUnconsumed Operands.none)
  | .snkOpen n => some (.snkOpen (Operands.ofArg n))
  | .snkWriteBit b => some (.snkWriteBit (Operands.ofImm (if b then 1 else 0)))
  | .snkWriteByte b => some (.snkWriteByte (Operands.ofImm b))
  | .snkFlush => some (.snkFlush Operands.none)
  | .snkSetThreshold n => some (.snkSetThreshold (Operands.ofArg n))
  | .snkClose => some (.snkClose Operands.none)
  | .treeBuild d => (dataBytes labels d).map fun p => .treeBuild (Operands.ofPayload p)
  | .treeSerialize => some (.treeSerialize Operands.none)
  | .treeDeserialize d => (dataBytes labels d).map fun p => .treeDeserialize (Operands.ofPayload p)
  | .treeCodeTable => some (.treeCodeTable Operands.none)
  | .encNew => some (.encNew Operands.none)
  | .encAddChunk d => (dataBytes labels d).map fun p => .encAddChunk (Operands.ofPayload p)
  | .encEncode => some (.encEncode Operands.none)
  | .decDecode d => (dataBytes labels d).map fun p => .decDecode (Operands.ofPayload p)
  | .snkWriteBits _ => none
  | .encOneshot _ => none

end Sys2Proof.Machine
end

