-- ==== Sys2Proof/Machine/AsmText.lean ====
section
/-! DEFINITION. The text of the assembler (30_encoding.md R84 to R86): a line of characters becomes a label and a command,
and the host sends the commands of a line one after another. What R84 leaves open is log entry 10: a space is a space or a
tab, a name is letters, digits and underscores, and a text has no escapes. -/

namespace Sys2Proof.Machine

/-! ### Characters -/

/-- A space between two parts of a line. -/
def isBlank (c : Char) : Bool := c = ' ' || c = '\t'

/-- A character of a mnemonic, a label or a CSR name. -/
def isNameChar (c : Char) : Bool := c.isAlphanum || c = '_'

/-- A line without the spaces it begins with. -/
def skipBlanks (cs : List Char) : List Char := cs.dropWhile isBlank

/-- The name a line begins with, and the rest. -/
def takeName (cs : List Char) : List Char × List Char := (cs.takeWhile isNameChar, cs.dropWhile isNameChar)

/-- The end of a line: nothing more but a comment (R84). -/
def atEnd (cs : List Char) : Bool :=
  match skipBlanks cs with
  | [] => true
  | c :: _ => c = ';'

/-! ### Numbers -/

/-- The value of a digit, decimal or hexadecimal. -/
def digitValue (c : Char) : Option Nat :=
  let n := c.toNat
  if 48 ≤ n ∧ n ≤ 57 then some (n - 48)
  else if 97 ≤ n ∧ n ≤ 102 then some (n - 87)
  else if 65 ≤ n ∧ n ≤ 70 then some (n - 55)
  else none

/-- The value of a digit sequence after the value `v` of the digits before it. -/
def digitsValue (base v : Nat) : List Char → Option Nat
  | [] => some v
  | c :: cs =>
    match digitValue c with
    | none => none
    | some d => if d < base then digitsValue base (v * base + d) cs else none

/-- A number: decimal, or `0x` and hexadecimal (R84). -/
def numberValue : List Char → Option Nat
  | [] => none
  | '0' :: 'x' :: c :: cs => digitsValue 16 0 (c :: cs)
  | cs => digitsValue 10 0 cs

/-- The number a line begins with, below `bound`, and the rest. -/
def takeNumber (bound : Nat) (cs : List Char) : Option (Nat × List Char) :=
  let r := takeName (skipBlanks cs)
  match numberValue r.1 with
  | none => none
  | some n => if n < bound then some (n, r.2) else none

/-! ### Byte-sequence operands (R84) -/

/-- Pairs of hexadecimal digits, with spaces between them, as bytes. -/
def hexBytes : List Char → Option (List Byte)
  | [] => some []
  | [c] => if isBlank c then some [] else none
  | c :: d :: cs =>
    if isBlank c then hexBytes (d :: cs)
    else
      match digitValue c, digitValue d, hexBytes cs with
      | some a, some b, some bs => some (BitVec.ofNat 8 (16 * a + b) :: bs)
      | _, _, _ => none

/-- The ASCII bytes of a text; none for a character that is not ASCII. -/
def textBytes (cs : List Char) : Option (List Byte) :=
  if cs.all fun c => c.toNat < 128 then some (cs.map fun c => BitVec.ofNat 8 c.toNat) else none

/-- What stands before the character `q`, and what stands after it. -/
def takeUntil (q : Char) (cs : List Char) : Option (List Char × List Char) :=
  match cs.dropWhile (· ≠ q) with
  | [] => none
  | _ :: rest => some (cs.takeWhile (· ≠ q), rest)

/-- One entry `b:count` of a frequency table, and the rest. -/
def takeEntry (cs : List Char) : Option ((Byte × Count) × List Char) :=
  match takeNumber 256 cs with
  | none => none
  | some (b, rest) =>
    match skipBlanks rest with
    | ':' :: rest =>
      match takeNumber (2 ^ 64) rest with
      | none => none
      | some (n, rest) => some ((BitVec.ofNat 8 b, BitVec.ofNat 64 n), rest)
    | _ => none

/-- The entries of a frequency table up to its closing brace, at most `fuel` of them, and the rest. -/
def takeEntries : Nat → List Char → Option (List (Byte × Count) × List Char)
  | 0, _ => none
  | fuel + 1, cs =>
    match takeEntry cs with
    | none => none
    | some (e, rest) =>
      match skipBlanks rest with
      | c :: rest =>
        if c = Char.ofNat 125 then some ([e], rest)
        else if c = ',' then (takeEntries fuel rest).map fun r => (e :: r.1, r.2)
        else none
      | [] => none

/-- A frequency table from after its opening brace on. DESIGN CHOICE (log entry 10): R84 does not say whether it may be empty;
here it may name no count at all, and they are all 0. -/
def takeTable (cs : List Char) : Option (List (Byte × Count) × List Char) :=
  match skipBlanks cs with
  | [] => none
  | c :: rest => if c = Char.ofNat 125 then some ([], rest) else takeEntries (cs.length) (c :: rest)

/-- A byte-sequence operand and the rest: a text, hex bytes, a label's payload, or a frequency table. DESIGN CHOICE (log
entry 10): R84 gives `freq` to TREE_BUILD only; here it is a byte sequence wherever one may stand. -/
def takeData (cs : List Char) : Option (AsmData × List Char) :=
  match skipBlanks cs with
  | '"' :: rest =>
    match takeUntil '"' rest with
    | none => none
    | some (t, rest) => (textBytes t).map fun b => (.bytes b, rest)
  | '$' :: rest =>
    let r := takeName rest
    if r.1 = [] then none else some (.label (String.ofList r.1), r.2)
  | 'h' :: 'e' :: 'x' :: '"' :: rest =>
    match takeUntil '"' rest with
    | none => none
    | some (t, rest) => (hexBytes t).map fun b => (.bytes b, rest)
  | 'f' :: 'r' :: 'e' :: 'q' :: c :: rest =>
    if c = Char.ofNat 123 then (takeTable rest).map fun r => (.freq r.1, r.2) else none
  | _ => none

/-- Byte-sequence operands with commas between them, at most `fuel` of them, and the rest (R86). DESIGN CHOICE (log entry
10): R86 does not say whether n may be 0; here ENC_ONESHOT takes at least one operand. -/
def takeDatas : Nat → List Char → Option (List AsmData × List Char)
  | 0, _ => none
  | fuel + 1, cs =>
    match takeData cs with
    | none => none
    | some (d, rest) =>
      match skipBlanks rest with
      | ',' :: rest => (takeDatas fuel rest).map fun r => (d :: r.1, r.2)
      | rest => some ([d], rest)

/-- The bits of SNK_WRITE_BITS, at most `fuel` of them, and the rest (R85). DESIGN CHOICE (log entry 10): R85 does not say
whether n may be 0; here a line with no bit stands for no command. -/
def takeBits : Nat → List Char → List Bool × List Char
  | 0, cs => ([], cs)
  | fuel + 1, cs =>
    match takeNumber 2 cs with
    | none => ([], cs)
    | some (n, rest) =>
      let r := takeBits fuel rest
      (decide (n = 1) :: r.1, r.2)

/-! ### Lines -/

/-- The CSR names of 10_state.md R34 to R38. -/
def csrNames : List (String × Csr) :=
  [("SRC_BATCH", .srcBatch), ("SRC_STAT", .srcStat), ("SRC_AVAIL", .srcAvail), ("SNK_THRESH", .snkThresh),
   ("SNK_STAT", .snkStat), ("SNK_LEVEL", .snkLevel), ("ENC_STAT", .encStat), ("ENC_TOTAL_LO", .encTotalLo),
   ("ENC_TOTAL_HI", .encTotalHi), ("ENC_SYMS", .encSyms), ("TREE_STAT", .treeStat), ("TREE_NODES", .treeNodes),
   ("TREE_LEAVES", .treeLeaves), ("CAP_SRC_BUF", .capSrcBuf), ("CAP_SNK_BUF", .capSnkBuf), ("CAP_MAX_NODES", .capMaxNodes),
   ("CAP_CHUNK_LO", .capChunkLo), ("CAP_CHUNK_HI", .capChunkHi), ("CAP_CMD_PAYLOAD", .capCmdPayload), ("ID", .id)]

/-- The CSR operand: a name or a number (R84). DESIGN CHOICE (log entry 10): R84 says "its number", of a listed CSR; here
every value of the IMM8 field is a line, and a number no CSR has is left to the block's own check (R81). -/
def takeCsr (cs : List Char) : Option (AsmCommand × List Char) :=
  let r := takeName (skipBlanks cs)
  match csrNames.find? fun e => e.1.toList = r.1 with
  | some (_, c) => some (.csrRead c, r.2)
  | none => (takeNumber 256 cs).map fun p => (.csrReadNumber (BitVec.ofNat 8 p.1), p.2)

/-- The command of a mnemonic and the operand after it, and the rest (R84 to R86). -/
def takeOperand (m : List Char) (cs : List Char) : Option (AsmCommand × List Char) :=
  let word := fun (f : Word → AsmCommand) => (takeNumber (2 ^ 32) cs).map fun p => (f (BitVec.ofNat 32 p.1), p.2)
  let data := fun (f : AsmData → AsmCommand) => (takeData cs).map fun p => (f p.1, p.2)
  if m = "CSR_READ".toList then takeCsr cs
  else if m = "SRC_OPEN".toList then word .srcOpen
  else if m = "SRC_NEXT_BIT".toList then some (.srcNextBit, cs)
  else if m = "SRC_NEXT_BYTE".toList then some (.srcNextByte, cs)
  else if m = "SRC_TAKE_UNCONSUMED".toList then some (.srcTakeUnconsumed, cs)
  else if m = "SNK_OPEN".toList then word .snkOpen
  else if m = "SNK_WRITE_BIT".toList then (takeNumber 2 cs).map fun p => (.snkWriteBit (p.1 = 1), p.2)
  else if m = "SNK_WRITE_BYTE".toList then
    (takeNumber 256 cs).map fun p => (.snkWriteByte (BitVec.ofNat 8 p.1), p.2)
  else if m = "SNK_FLUSH".toList then some (.snkFlush, cs)
  else if m = "SNK_SET_THRESHOLD".toList then word .snkSetThreshold
  else if m = "SNK_CLOSE".toList then some (.snkClose, cs)
  else if m = "TREE_BUILD".toList then data .treeBuild
  else if m = "TREE_SERIALIZE".toList then some (.treeSerialize, cs)
  else if m = "TREE_DESERIALIZE".toList then data .treeDeserialize
  else if m = "TREE_CODE_TABLE".toList then some (.treeCodeTable, cs)
  else if m = "ENC_NEW".toList then some (.encNew, cs)
  else if m = "ENC_ADD_CHUNK".toList then data .encAddChunk
  else if m = "ENC_ENCODE".toList then some (.encEncode, cs)
  else if m = "DEC_DECODE".toList then data .decDecode
  else if m = "SNK_WRITE_BITS".toList then
    let r := takeBits cs.length cs
    some (.snkWriteBits r.1, r.2)
  else if m = "ENC_ONESHOT".toList then (takeDatas cs.length cs).map fun p => (.encOneshot p.1, p.2)
  else none

/-- A line of a program: its label, if any, and its command. -/
structure AsmLine where
  label : Option String
  command : AsmCommand
  deriving DecidableEq, Repr

/-- The command part of a line: a mnemonic, its operand, and nothing more but a comment (R84). -/
def parseCommand (cs : List Char) : Option AsmCommand :=
  let r := takeName (skipBlanks cs)
  match takeOperand r.1 r.2 with
  | none => none
  | some (c, rest) => if atEnd rest then some c else none

/-- A line of text (R84): `[label:] MNEMONIC [operand] [; comment]`. -/
def parseLine (cs : List Char) : Option AsmLine :=
  let r := takeName (skipBlanks cs)
  match skipBlanks r.2 with
  | ':' :: rest => if r.1 = [] then none else (parseCommand rest).map fun c => ⟨some (String.ofList r.1), c⟩
  | _ => (parseCommand cs).map fun c => ⟨none, c⟩

/-! ### The host sends a line (R84 to R86, 70_reset_and_hazards.md R357) -/

/-- Send one command and take its response; none while it waits for a port. -/
def hostCommand (s : State) (i : Instr) : Option (Response × State) :=
  match step (s.send (encode i)) with
  | .next t =>
    match t.eng, t.resps.getLast? with
    | .idle, some r => some (r, t)
    | _, _ => none
  | _ => none

/-- Send the commands a line stands for, one after another; stop at the first that does not end with OK (R85). It answers
the last response. A command that waits for a port, or has no packet, ends the line with no answer. -/
def hostCommands (labels : List (String × List Byte)) : List AsmCommand → Option Response → State →
    Option (Option Response × State)
  | [], r, s => some (r, s)
  | c :: cs, _, s =>
    match assemble labels c with
    | none => none
    | some i =>
      match hostCommand s i with
      | none => none
      | some (r, t) => if r.status.extractLsb' 0 8 = 0 then hostCommands labels cs (some r) t else some (some r, t)

/-- The labels after a line: its label names the payload of its last response (R84, R86), and no longer an earlier line's
(DESIGN CHOICE, log entry 10). -/
def bindLabel (labels : List (String × List Byte)) (l : AsmLine) (r : Option Response) : List (String × List Byte) :=
  match l.label, r with
  | some name, some r => (name, r.payload) :: labels
  | _, _ => labels

/-- A pseudo-instruction (R85, R86). -/
def isPseudo : AsmCommand → Bool
  | .snkWriteBits _ => true
  | .encOneshot _ => true
  | _ => false

/-- The host goes on with the next line unless a command of a pseudo-instruction failed (R85). -/
def goesOn (c : AsmCommand) (r : Option Response) : Bool :=
  !isPseudo c || r.all fun r => r.status.extractLsb' 0 8 = 0

/-- Run the lines of a program from a state with an IDLE engine and an empty channel. -/
def hostProgram : List (String × List Byte) → List AsmLine → State → Option State
  | _, [], s => some s
  | labels, l :: ls, s =>
    match hostCommands labels (expandLine l.command) none s with
    | none => none
    | some (r, t) => if goesOn l.command r then hostProgram (bindLabel labels l r) ls t else some t

end Sys2Proof.Machine
end

