-- ==== Sys2Proof/Tests/Slice0.lean ====
section
/-! SUPPORT. The model's own tests. Expected values come from spec/95_test_vectors.md, named in each comment, or from the
encoding tables of 30_encoding.md. After them, a witness for the hypotheses of every statement that has some. -/

namespace Sys2Proof.Tests

open Sys2Proof.Machine

set_option Elab.async false

/-! ### Helpers -/

/-- The state a command leaves (every command answers a next state). -/
def after : Host.Outcome State Fault Refusal → State
  | .next t => t
  | _ => State.reset

/-- The last response of a state. -/
def reply (s : State) : Option Response := s.resps.getLast?

/-- The response a command gives. -/
def answer (i : Instr) (s : State) : Option Response := reply (after (exec i s))

/-- A response that is OK. -/
def ok (res : Word) (p : List Byte) : Option Response := some ⟨0, res, p⟩

/-- The bit source of the vectors: batch 4, with a buffer and a position, and the answers of port I. -/
def src (buf : List Byte) (rpos : Nat) (bpos : BitVec 3) (as : List PortIAnswer) : State :=
  { State.reset with bsrc := ⟨true, 4, buf, rpos, bpos⟩, portI := as }

/-- The bit sink of the vectors: threshold 128, with pending bits and a buffer, and the answers of port O. -/
def snk (acc : Byte) (nbits : BitVec 3) (buf : List Byte) (as : List PortOAnswer) : State :=
  { State.reset with bsnk := ⟨true, 128, acc, nbits, buf⟩, portO := as }

/-- The reset state with a tree stored. -/
def store (t : FreqTree) : State := { State.reset with tree := some t }

/-- The reset state with data added to the encoder. -/
def fed (d : List Byte) : State :=
  { State.reset with enc := ⟨false, d, countBytes Enc.fresh.freq d, BitVec.ofNat 64 d.length⟩ }

/-- The reset state with the source closed. -/
def srcClosed : State := { State.reset with bsrc := ⟨false, 4, [], 0, 0⟩ }

/-- The reset state with the sink closed. -/
def snkClosed : State := { State.reset with bsnk := ⟨false, 128, 0, 0, []⟩ }

/-- The reset state with a running command. -/
def running (s : State) (j : Job) : State := { s with eng := .busy j }

/-- The tree of vector T-T7 ("abracadabra"), from its codes: 97 = 0, 99 = 100, 100 = 101, 98 = 110, 114 = 111. -/
def abraTree : FreqTree :=
  .composite 11 (.leaf 97 5)
    (.composite 6 (.composite 2 (.leaf 99 1) (.leaf 100 1)) (.composite 4 (.leaf 98 2) (.leaf 114 2)))

/-- The buffer of vector T-E1. -/
def abraBuffer : List Byte :=
  [0x07, 0, 0, 0, 0x0B, 0, 0, 0, 0, 0, 0, 0, 0x58, 0x4B, 0x1D, 0x91, 0x62, 0xB9, 0x00, 0x6E, 0x8A, 0xDC]

/-- "abracadabra". -/
def abra : List Byte := [97, 98, 114, 97, 99, 97, 100, 97, 98, 114, 97]

/-! ### Well-formedness: one ill-formed term per check, which the check refuses -/

theorem test_wellFormed_imm_unused : WellFormed Config.reference (.encNew ⟨1, 0, []⟩) = false := by decide +kernel
theorem test_wellFormed_arg_unused : WellFormed Config.reference (.encNew ⟨0, 5, []⟩) = false := by decide +kernel
theorem test_wellFormed_payload_unused : WellFormed Config.reference (.encNew ⟨0, 0, [0]⟩) = false := by decide +kernel
theorem test_wellFormed_immOnly_arg : WellFormed Config.reference (.snkWriteByte ⟨0, 1, []⟩) = false := by decide +kernel
theorem test_wellFormed_immOnly_payload : WellFormed Config.reference (.snkWriteByte ⟨0, 0, [0]⟩) = false := by
  decide +kernel
theorem test_wellFormed_argOnly_imm : WellFormed Config.reference (.snkOpen ⟨1, 0, []⟩) = false := by decide +kernel
theorem test_wellFormed_argOnly_payload : WellFormed Config.reference (.snkOpen ⟨0, 0, [0]⟩) = false := by decide +kernel
theorem test_wellFormed_len_imm : WellFormed Config.reference (.decDecode ⟨1, 0, []⟩) = false := by decide +kernel
theorem test_wellFormed_len_mismatch : WellFormed Config.reference (.encAddChunk ⟨0, 3, [1, 2]⟩) = false := by
  decide +kernel
theorem test_wellFormed_len_capacity :
    WellFormed { Config.reference with cmdPayloadMax := 2048 } (.encAddChunk ⟨0, 2049, List.replicate 2049 0⟩) = false := by
  decide +kernel
theorem test_wellFormed_csr :
    WellFormed Config.reference (.csrRead ⟨0x0D, 0, []⟩) = false ∧
      WellFormed Config.reference (.csrRead ⟨0x0F, 0, []⟩) = false ∧
      WellFormed Config.reference (.csrRead ⟨0x17, 0, []⟩) = false ∧
      WellFormed Config.reference (.csrRead ⟨0x0C, 0, []⟩) = true ∧
      WellFormed Config.reference (.csrRead ⟨0x10, 0, []⟩) = true := by decide +kernel
theorem test_wellFormed_batch :
    WellFormed Config.reference (.srcOpen ⟨0, 0, []⟩) = false ∧
      WellFormed Config.reference (.srcOpen ⟨0, 4097, []⟩) = false ∧
      WellFormed Config.reference (.srcOpen ⟨0, 4096, []⟩) = true := by decide +kernel
theorem test_wellFormed_threshold :
    WellFormed Config.reference (.snkOpen ⟨0, 4097, []⟩) = false ∧
      WellFormed Config.reference (.snkSetThreshold ⟨0, 4097, []⟩) = false ∧
      WellFormed Config.reference (.snkSetThreshold ⟨0, 4096, []⟩) = true := by decide +kernel
theorem test_wellFormed_bit : WellFormed Config.reference (.snkWriteBit ⟨2, 0, []⟩) = false := by decide +kernel
theorem test_wellFormed_table :
    WellFormed Config.reference (.treeBuild ⟨0, 2047, List.replicate 2047 0⟩) = false := by decide +kernel

/-! ### Decoding: a packet per command, written out from R70, R71 and the opcode map of R78 -/

/-- The command a packet's bytes decode to. -/
def decoded (b : List Byte) : Option Instr := (decodeBytes b).toOption

theorem test_decode_csrRead : decoded [0x01, 0x0C, 0, 0, 0, 0, 0, 0] = some (.csrRead ⟨0x0C, 0, []⟩) := by decide +kernel
theorem test_decode_srcOpen : decoded [0x10, 0, 0, 0, 0x00, 0x10, 0, 0] = some (.srcOpen ⟨0, 4096, []⟩) := by
  decide +kernel
theorem test_decode_srcNextBit : decoded [0x11, 0x01, 0, 0, 0, 0, 0, 0] = some (.srcNextBit ⟨1, 0, []⟩) := by
  decide +kernel
theorem test_decode_srcNextByte : decoded [0x12, 0, 0, 0, 0, 0, 0, 0] = some (.srcNextByte ⟨0, 0, []⟩) := by decide +kernel
theorem test_decode_srcTakeUnconsumed :
    decoded [0x13, 0, 0, 0, 0x78, 0x56, 0x34, 0x12] = some (.srcTakeUnconsumed ⟨0, 0x12345678, []⟩) := by decide +kernel
theorem test_decode_snkOpen : decoded [0x20, 0, 0, 0, 0x40, 0, 0, 0] = some (.snkOpen ⟨0, 64, []⟩) := by decide +kernel
theorem test_decode_snkWriteBit : decoded [0x21, 0x02, 0, 0, 0, 0, 0, 0] = some (.snkWriteBit ⟨2, 0, []⟩) := by
  decide +kernel
theorem test_decode_snkWriteByte : decoded [0x22, 0xFF, 0, 0, 0, 0, 0, 0] = some (.snkWriteByte ⟨0xFF, 0, []⟩) := by
  decide +kernel
theorem test_decode_snkFlush : decoded [0x23, 0, 0, 0, 0, 0, 0, 0] = some (.snkFlush ⟨0, 0, []⟩) := by decide +kernel
theorem test_decode_snkSetThreshold : decoded [0x24, 0, 0, 0, 0x02, 0, 0, 0] = some (.snkSetThreshold ⟨0, 2, []⟩) := by
  decide +kernel
theorem test_decode_snkClose : decoded [0x25, 0, 0, 0, 0, 0, 0, 0] = some (.snkClose ⟨0, 0, []⟩) := by decide +kernel
theorem test_decode_treeBuild : decoded [0x30, 0, 0, 0, 0x00, 0x08, 0, 0, 7] = some (.treeBuild ⟨0, 0x800, [7]⟩) := by
  decide +kernel
theorem test_decode_treeSerialize : decoded [0x31, 0, 0, 0, 0, 0, 0, 0] = some (.treeSerialize ⟨0, 0, []⟩) := by
  decide +kernel
theorem test_decode_treeDeserialize :
    decoded [0x32, 0, 0, 0, 0x03, 0, 0, 0, 0x58, 0x6C, 0x40] = some (.treeDeserialize ⟨0, 3, [0x58, 0x6C, 0x40]⟩) := by
  decide +kernel
theorem test_decode_treeCodeTable : decoded [0x33, 0, 0, 0, 0, 0, 0, 0] = some (.treeCodeTable ⟨0, 0, []⟩) := by
  decide +kernel
theorem test_decode_encNew : decoded [0x40, 0x01, 0, 0, 0, 0, 0, 0] = some (.encNew ⟨1, 0, []⟩) := by decide +kernel
theorem test_decode_encAddChunk : decoded [0x41, 0, 0, 0, 0x01, 0, 0, 0, 0x7A] = some (.encAddChunk ⟨0, 1, [0x7A]⟩) := by
  decide +kernel
theorem test_decode_encEncode : decoded [0x42, 0, 0, 0, 0, 0, 0, 0] = some (.encEncode ⟨0, 0, []⟩) := by decide +kernel
theorem test_decode_decDecode : decoded [0x50, 0, 0, 0, 0x16, 0, 0, 0] = some (.decDecode ⟨0, 22, []⟩) := by decide +kernel

/-- T-C10, T-C11, T-C12: what the decoder refuses. -/
theorem test_decode_refused :
    decoded [0, 0, 0, 0, 0, 0, 0, 0] = none ∧ decoded [0x60, 0, 0, 0, 0, 0, 0, 0] = none ∧
      decoded [0x40, 0, 0x01, 0, 0, 0, 0, 0] = none ∧ decoded [0x40, 0, 0, 0x80, 0, 0, 0, 0] = none := by decide +kernel

/-! ### Commands, at most two tests each -/

/-- T-C1. -/
theorem test_csrRead_id : answer (.csrRead (.ofImm 0x16)) State.reset = ok 0x31465548 [] := by decide +kernel

/-- T-C15: SNK_STAT with OPEN, NBITS 4, ACC 0x0B. -/
theorem test_csrRead_snkStat : answer (.csrRead (.ofImm 0x04)) (snk 0x0B 4 [] []) = ok 0x0B09 [] := by decide +kernel

/-- T-S3. -/
theorem test_srcOpen_too_large : answer (.srcOpen (.ofArg 4097)) State.reset = some ⟨0x11, 0, []⟩ := by decide +kernel

/-- T-S4, its first command. -/
theorem test_srcOpen_batch : (after (exec (.srcOpen (.ofArg 4)) State.reset)).bsrc = ⟨true, 4, [], 0, 0⟩ := by
  decide +kernel

/-- T-S4: the refill asks for the bytes still missing, three times. -/
theorem test_srcNextBit_refill :
    let t := after (exec (.srcNextBit .none) (src [] 0 0 [.bytes [0xAB], .bytes [0xCD], .bytes []]))
    reply t = ok 1 [] ∧ t.bsrc = ⟨true, 4, [0xAB, 0xCD], 0, 1⟩ ∧
      t.trace = [.read 4 (.bytes [0xAB]), .read 3 (.bytes [0xCD]), .read 2 (.bytes [])] := by decide +kernel

/-- T-S10. -/
theorem test_srcNextBit_ioErr :
    let t := after (exec (.srcNextBit .none) (src [] 0 0 [.bytes [0xF0], .ioErr]))
    reply t = some ⟨0x21, 0, []⟩ ∧ t.bsrc = ⟨true, 4, [0xF0], 0, 0⟩ := by decide +kernel

/-- T-S5: a byte that spans two buffered bytes. -/
theorem test_srcNextByte_spans :
    let t := after (exec (.srcNextByte .none) (src [0xAB, 0xCD] 0 1 []))
    reply t = ok 0x857 [] ∧ t.bsrc = ⟨true, 4, [0xAB, 0xCD], 1, 1⟩ := by decide +kernel

/-- T-S6: end of data after seven bits. -/
theorem test_srcNextByte_eod :
    let t := after (exec (.srcNextByte .none) (src [0xAB, 0xCD] 1 1 [.bytes []]))
    reply t = some ⟨1, 0x74D, []⟩ ∧ t.bsrc = ⟨true, 4, [], 0, 0⟩ ∧ t.trace = [.read 4 (.bytes [])] := by decide +kernel

/-- T-S7, its last command: the 4 bits left of 0x22 are lost. -/
theorem test_srcTakeUnconsumed_drops_partial :
    let t := after (exec (.srcTakeUnconsumed .none) (src [0x11, 0x22, 0x33, 0x44] 1 4 []))
    reply t = ok 2 [0x33, 0x44] ∧ t.bsrc = ⟨false, 4, [], 0, 0⟩ := by decide +kernel

/-- T-S8. -/
theorem test_srcTakeUnconsumed_closed : answer (.srcTakeUnconsumed .none) srcClosed = some ⟨0x12, 0, []⟩ := by
  decide +kernel

/-- T-K8. -/
theorem test_snkOpen_finalizes :
    let t := after (exec (.snkOpen (.ofArg 16)) (snk 3 2 [] [.ok]))
    reply t = ok 1 [] ∧ t.bsnk = ⟨true, 16, 0, 0, []⟩ ∧ t.trace = [.write [0xC0] .ok] := by decide +kernel

/-- T-K15: the old sink stays open when port O fails. -/
theorem test_snkOpen_ioErr :
    let t := after (exec (.snkOpen (.ofArg 64)) (snk 1 1 [] [.ioErr]))
    reply t = some ⟨0x21, 0, []⟩ ∧ t.bsnk = ⟨true, 128, 0, 0, [0x80]⟩ := by decide +kernel

/-- T-K1. -/
theorem test_snkWriteBit_accumulates :
    let t := after (exec (.snkWriteBit (.ofImm 1)) State.reset)
    reply t = ok 1 [] ∧ t.bsnk = ⟨true, 128, 1, 1, []⟩ := by decide +kernel

/-- T-K2. -/
theorem test_snkWriteBit_two : answer (.snkWriteBit (.ofImm 2)) State.reset = some ⟨0x11, 0, []⟩ := by decide +kernel

/-- T-K3. -/
theorem test_snkWriteByte_unaligned :
    let t := after (exec (.snkWriteByte (.ofImm 0xFF)) (snk 5 3 [] []))
    reply t = ok 8 [] ∧ t.bsnk = ⟨true, 128, 7, 3, [0xBF]⟩ := by decide +kernel

/-- T-K16: the buffer is full, so the eighth bit is not accepted. -/
theorem test_snkWriteByte_full :
    let t := after (exec (.snkWriteByte (.ofImm 0)) (snk 0 0 (List.replicate 4096 0x55) []))
    reply t = some ⟨0x24, 7, []⟩ ∧ t.bsnk.nbits = 7 ∧ t.bsnk.acc = 0 ∧ t.bsnk.buf.length = 4096 := by decide +kernel

/-- T-K13. -/
theorem test_snkFlush_writes :
    let t := after (exec (.snkFlush .none) (snk 0 0 [0x41] [.ok]))
    reply t = ok 1 [] ∧ t.bsnk.buf = [] ∧ t.trace = [.write [0x41] .ok] := by decide +kernel

/-- T-K18: nothing to write makes no port transaction. -/
theorem test_snkFlush_empty :
    let t := after (exec (.snkFlush .none) (snk 0 0 [] [.ioErr]))
    reply t = ok 0 [] ∧ t.trace = [] := by decide +kernel

/-- T-K6: a threshold change does not drain. -/
theorem test_snkSetThreshold_no_drain :
    let t := after (exec (.snkSetThreshold (.ofArg 1)) (snk 0 0 [1, 2] [.ok]))
    reply t = ok 0 [] ∧ t.bsnk = ⟨true, 1, 0, 0, [1, 2]⟩ ∧ t.trace = [] := by decide +kernel

/-- T-K17. -/
theorem test_snkSetThreshold_too_large : answer (.snkSetThreshold (.ofArg 4097)) State.reset = some ⟨0x11, 0, []⟩ := by
  decide +kernel

/-- T-K9. -/
theorem test_snkClose_drains :
    let t := after (exec (.snkClose .none) (snk 0 0 [1] [.ok]))
    reply t = ok 1 [] ∧ t.bsnk = ⟨false, 128, 0, 0, []⟩ ∧ t.trace = [.write [1] .ok] := by decide +kernel

/-- T-K14: a failed close leaves the sink open with the padded byte. -/
theorem test_snkClose_ioErr :
    let t := after (exec (.snkClose .none) (snk 0x16 5 [] [.ioErr]))
    reply t = some ⟨0x21, 0, []⟩ ∧ t.bsnk = ⟨true, 128, 0, 0, [0xB0]⟩ := by decide +kernel

/-- T-T5: no tie, so it holds for every draw. -/
theorem test_treeBuild_no_tie :
    let t := after (exec (.treeBuild (.ofPayload (freqPayload [(97, 2), (98, 1)]))) State.reset)
    reply t = ok 2 [] ∧ t.tree = some (.composite 3 (.leaf 98 1) (.leaf 97 2)) := by decide +kernel

/-- T-T10, from a store that held a tree. -/
theorem test_treeBuild_empty :
    let t := after (exec (.treeBuild (.ofPayload (List.replicate 2048 0))) (store abraTree))
    reply t = some ⟨0x20, 0, []⟩ ∧ t.tree = none := by decide +kernel

/-- T-T7's tree, under the reference tie-break (the draw 0 of every pick). -/
theorem test_build_reference_ties :
    (buildTree (fun _ => 0) 0 (tableCounts 256 (freqPayload [(97, 5), (98, 2), (114, 2), (99, 1), (100, 1)]))).1 =
      some abraTree := by decide +kernel

/-- T-T9: the 72-bit weight does not overflow. -/
theorem test_build_wide_weight :
    (buildTree (fun _ => 0) 0 (tableCounts 256 (freqPayload [(0, 0xFFFFFFFFFFFFFFFF), (1, 1)]))).1 =
      some (.composite 0x10000000000000000 (.leaf 1 1) (.leaf 0 0xFFFFFFFFFFFFFFFF)) := by decide +kernel

/-- T-T7. -/
theorem test_treeSerialize_abra :
    answer (.treeSerialize .none) (store abraTree) = ok 49 [0x58, 0x4B, 0x1D, 0x91, 0x62, 0xB9, 0x00] := by decide +kernel

/-- T-T10: no tree. -/
theorem test_treeSerialize_none : answer (.treeSerialize .none) State.reset = some ⟨0x14, 0, []⟩ := by decide +kernel

/-- T-T13: the byte after the parse is ignored. -/
theorem test_treeDeserialize_trailing :
    let t := after (exec (.treeDeserialize (.ofPayload [0x58, 0x6C, 0x40, 0x40])) State.reset)
    reply t = ok 19 [] ∧ t.tree = some (.composite 0 (.leaf 97 0) (.leaf 98 0)) := by decide +kernel

/-- T-T19: the second Leaf's byte runs out; the store is cleared. -/
theorem test_treeDeserialize_cut :
    let t := after (exec (.treeDeserialize (.ofPayload [0x58, 0x6C])) (store abraTree))
    reply t = some ⟨0x22, 0, []⟩ ∧ t.tree = none := by decide +kernel

/-- T-T25: offsets 194 to 206 and 232 to 234. -/
theorem test_treeCodeTable_abra :
    (answer (.treeCodeTable .none) (store abraTree)).map (fun r => (r.res, r.payload.length, (r.payload.drop 194).take 12,
      (r.payload.drop 232).take 3)) =
      some (5, 517, [1, 0, 0, 3, 0, 0xC0, 3, 0, 0x80, 3, 0, 0xA0], [3, 0, 0xE0]) := by decide +kernel

/-- T-T24: a lone Leaf's code is empty, not absent. -/
theorem test_treeCodeTable_leaf :
    answer (.treeCodeTable .none) (store (.leaf 120 3)) =
      ok 1 (List.replicate 240 0xFF ++ [0, 0] ++ List.replicate 270 0xFF) := by decide +kernel

/-- T-E13. -/
theorem test_encNew_after_consumed :
    (after (exec (.encNew .none) { State.reset with enc := Enc.spent })).enc = Enc.fresh := by decide +kernel

/-- T-C13. -/
theorem test_encNew_imm : answer (.encNew (.ofImm 1)) State.reset = some ⟨0x11, 0, []⟩ := by decide +kernel

/-- T-E15. -/
theorem test_encAddChunk_counts :
    let t := after (exec (.encAddChunk (.ofPayload [97, 98, 114, 97])) State.reset)
    reply t = ok 0 [] ∧ t.enc.freq[97] = 2 ∧ t.enc.freq[98] = 1 ∧ t.enc.freq[114] = 1 ∧ t.enc.total = 4 := by
  decide +kernel

/-- T-E16. -/
theorem test_encAddChunk_capacity :
    answer (.encAddChunk (.ofPayload [97])) { State.reset with enc := { Enc.fresh with total := 65536 } } =
      some ⟨0x24, 0, []⟩ := by decide +kernel

/-- T-E4: "aab", which has no tie. -/
theorem test_encEncode_aab :
    let t := after (exec (.encEncode .none) (fed [97, 97, 98]))
    reply t = ok 0 [3, 0, 0, 0, 3, 0, 0, 0, 0, 0, 0, 0, 0x58, 0xAC, 0x20, 0xC0] ∧ t.enc = Enc.spent ∧ t.tree = none := by
  decide +kernel

/-- T-E11. -/
theorem test_encEncode_empty :
    let t := after (exec (.encEncode .none) State.reset)
    reply t = some ⟨0x20, 0, []⟩ ∧ t.enc.consumed = true := by decide +kernel

/-- T-E1's buffer, from its tree. -/
theorem test_compressed_abra : compressed abraTree abra 11 = abraBuffer := by decide +kernel

/-- T-D2: TRUNC. -/
theorem test_decDecode_truncated :
    answer (.decDecode (.ofPayload (abraBuffer.take 21))) State.reset = some ⟨0x100, 0, abra.take 8⟩ := by decide +kernel

/-- T-D4: corruption is not detected, and the rules fix the result ("raracadabra"). -/
theorem test_decDecode_corrupt :
    answer (.decDecode (.ofPayload (abraBuffer.set 19 0xEE))) State.reset =
      ok 0 [114, 97, 114, 97, 99, 97, 100, 97, 98, 114, 97] := by decide +kernel

/-- R341 with R340: a reset while a read is outstanding gives no response and abandons the read. -/
theorem test_reset_abandons_read :
    let t := after (step { running (src [0xAB] 0 0 [.bytes [1, 2, 3, 4]]) .srcNextBit with rst := true })
    t.bsrc = ⟨true, 128, [], 0, 0⟩ ∧ t.eng = .idle ∧ t.resps = [] ∧ t.portI = [.bytes [4]] ∧
      t.trace = [.readAbandoned 3] := by decide +kernel

/-- R340: a command accepted and not answered, when a reset comes, gets no response; and the answer to a read a reset
abandoned, given after it, is discarded, while the next one is not. -/
theorem test_reset_abandons_command :
    let s := { State.reset with cmds := [⟨0x00001601, 0, []⟩] }
    let t := after (step { running (src [0xAB] 0 0 []) .srcNextBit with rst := true })
    (after (step s.start.assertReset)).resps = [] ∧ (after (step s.start)).resps.length = 1 ∧
      ((t.answerI (.bytes [1, 2])).answerI (.bytes [3])).portI = [.bytes [3]] := by decide +kernel

/-- R75, R53: a response on the wire, its words least significant byte first. -/
theorem test_responseBytes :
    responseBytes ⟨0x100, 0x0A0B0C0D, [7]⟩ = [0, 1, 0, 0, 0x0D, 0x0C, 0x0B, 0x0A, 7] ∧
      responseOfBytes [0, 1, 0, 0, 0x0D, 0x0C, 0x0B, 0x0A, 7] = some ⟨0x100, 0x0A0B0C0D, [7]⟩ ∧
      responseOfBytes [0, 0, 0, 0, 0, 0, 0] = none := by decide +kernel

/-- P1's fifth line, through the channel: w0 = 0x00000701, w1 = 0. -/
theorem test_step_runs_a_packet :
    reply (after (step { fed abra with cmds := [⟨0x00000701, 0, []⟩] })) = ok 11 [] := by decide +kernel

/-- T-C14 through withFetchWord: ENC_NEW with w1 = 5. -/
theorem test_withFetchWord : reply (after (step (State.reset.withFetchWord 64 0x0000000500000040))) = some ⟨0x11, 0, []⟩ := by
  decide +kernel

/-- P2's first pseudo-instruction: SNK_WRITE_BITS 1 0 1 1 (w0 = 0x121, 0x21, 0x121, 0x121). -/
theorem test_assemble_writeBits :
    ((expandLine (.snkWriteBits [true, false, true, true])).filterMap (assemble [])).map (fun i => (encode i).w0) =
      [0x121, 0x21, 0x121, 0x121] := by decide +kernel

/-- R84: a label, a text with a semicolon in it, and a comment. -/
theorem test_parse_text :
    parseLine "enc: ENC_ADD_CHUNK \"a;b\" ; two".toList =
      some ⟨some "enc", .encAddChunk (.bytes [0x61, 0x3B, 0x62])⟩ := by decide +kernel

/-- R84: a frequency table, as T-T6 writes it. -/
theorem test_parse_freq :
    parseLine ("TREE_BUILD freq".toList ++ [Char.ofNat 123] ++ "97:5, 98:2".toList ++ [Char.ofNat 125]) =
      some ⟨none, .treeBuild (.freq [(97, 5), (98, 2)])⟩ := by decide +kernel

/-- R84 to R86: numbers, hex bytes, labels, CSR names, and the two pseudo-instructions. -/
theorem test_parse_operands :
    parseLine "SNK_WRITE_BYTE 0xFF".toList = some ⟨none, .snkWriteByte 0xFF⟩ ∧
      parseLine "DEC_DECODE hex\"00 1f FF\"".toList = some ⟨none, .decDecode (.bytes [0, 0x1F, 0xFF])⟩ ∧
      parseLine "DEC_DECODE $enc".toList = some ⟨none, .decDecode (.label "enc")⟩ ∧
      parseLine "CSR_READ ENC_SYMS".toList = some ⟨none, .csrRead .encSyms⟩ ∧
      parseLine "CSR_READ 9".toList = some ⟨none, .csrReadNumber 9⟩ ∧
      parseLine "SNK_WRITE_BITS 1 0 1 1".toList = some ⟨none, .snkWriteBits [true, false, true, true]⟩ ∧
      parseLine "ENC_ONESHOT \"a\", \"b\"".toList = some ⟨none, .encOneshot [.bytes [97], .bytes [98]]⟩ ∧
      parseLine "SNK_WRITE_BIT 2".toList = none ∧ parseLine "ENC_NEW 1".toList = none := by decide +kernel

/-- Every command answers a next state. -/
theorem exec_after (i : Instr) (s : State) : exec i s = .next (after (exec i s)) := by
  rcases exec_cases i s with ⟨_, _, h⟩ | ⟨_, h⟩ <;> rw [h] <;> rfl

/-- The same, with the state left unnamed. -/
theorem exec_next (i : Instr) (s : State) : ∃ t, exec i s = .next t := ⟨_, exec_after i s⟩

/-! ### Witnesses: for every statement with hypotheses, concrete values that meet them together -/

open Sys2Proof.Claims

/-- The reset state with packets handed over. -/
def handed (ps : List Packet) : State := { State.reset with cmds := ps }

theorem witness_EncodeOfDecodedPacket : decode ⟨0x0000FF22, 0, []⟩ = .ok (.snkWriteByte ⟨0xFF, 0, []⟩) := by rfl

/-- The reserved bits at their two ends, one with an opcode of the map. -/
theorem witness_ReservedBitsAreIllegal :
    (handed [⟨0x00010040, 0, []⟩]).rst = false ∧ (handed [⟨0x00010040, 0, []⟩]).eng = .idle ∧
      (handed [⟨0x00010040, 0, []⟩]).cmds = ⟨0x00010040, 0, []⟩ :: [] ∧
      (0x00010040 : Word).extractLsb' 16 16 ≠ 0 ∧ (0x80000000 : Word).extractLsb' 16 16 ≠ 0 := by decide +kernel

theorem witness_UnknownOpcodesAreIllegal :
    (handed [⟨0x00000060, 0, []⟩]).rst = false ∧ (handed [⟨0x00000060, 0, []⟩]).eng = .idle ∧
      (handed [⟨0x00000060, 0, []⟩]).cmds = ⟨0x00000060, 0, []⟩ :: [] ∧
      ((0x00000060 : Word).extractLsb' 0 8).toNat ∉ opcodes ∧ ((0 : Word).extractLsb' 0 8).toNat ∉ opcodes ∧
      ((0x00000043 : Word).extractLsb' 0 8).toNat ∉ opcodes := by decide +kernel

theorem witness_LengthFromOpcodeAndArg :
    WellFormed Config.reference (.encAddChunk ⟨0, 2, [1, 2]⟩) = true ∧ usesLen (.encAddChunk ⟨0, 2, [1, 2]⟩) ∧
      WellFormed Config.reference (.srcOpen ⟨0, 4096, []⟩) = true ∧ ¬usesLen (.srcOpen ⟨0, 4096, []⟩) :=
  ⟨by decide +kernel, trivial, by decide +kernel, id⟩

theorem witness_StepRunsDecodedCommand :
    let s := handed [⟨0x00001601, 0, []⟩]
    s.rst = false ∧ s.eng = .idle ∧ s.cmds = ⟨0x00001601, 0, []⟩ :: [] ∧
      decode ⟨0x00001601, 0, []⟩ = .ok (.csrRead ⟨0x16, 0, []⟩) ∧ s.start.rst = false ∧
      s.start.eng = .busy (.started ⟨0x00001601, 0, []⟩) := ⟨rfl, rfl, rfl, rfl, rfl, rfl⟩

theorem witness_OperandErrorsEndTheCommand_imm : badOperand Config.reference (.encNew ⟨1, 0, []⟩) :=
  .inl ⟨id, by decide⟩
theorem witness_OperandErrorsEndTheCommand_arg : badOperand Config.reference (.encNew ⟨0, 5, []⟩) :=
  .inr (.inl ⟨id, id, by decide⟩)
theorem witness_OperandErrorsEndTheCommand_payload : badOperand Config.reference (.encNew ⟨0, 0, [0]⟩) :=
  .inr (.inr (.inl ⟨id, by decide⟩))
theorem witness_OperandErrorsEndTheCommand_length : badOperand Config.reference (.encAddChunk ⟨0, 3, [1, 2]⟩) :=
  .inr (.inr (.inr (.inl ⟨trivial, by decide⟩)))
theorem witness_OperandErrorsEndTheCommand_range :
    outOfRange Config.reference (.csrRead ⟨0x0D, 0, []⟩) ∧ outOfRange Config.reference (.csrRead ⟨0x0F, 0, []⟩) ∧
      outOfRange Config.reference (.csrRead ⟨0x17, 0, []⟩) ∧
      outOfRange Config.reference (.snkWriteBit ⟨2, 0, []⟩) ∧ outOfRange Config.reference (.srcOpen ⟨0, 0, []⟩) ∧
      outOfRange Config.reference (.srcOpen ⟨0, 4097, []⟩) ∧ outOfRange Config.reference (.snkOpen ⟨0, 4097, []⟩) ∧
      outOfRange Config.reference (.snkSetThreshold ⟨0, 4097, []⟩) ∧
      outOfRange Config.reference (.treeBuild ⟨0, 2047, List.replicate 2047 0⟩) := by
  simp only [outOfRange]
  decide +kernel
theorem witness_OperandErrorsEndTheCommand_capacity :
    let c := { Config.reference with cmdPayloadMax := 2048 }
    let i := Instr.encAddChunk ⟨0, 2049, List.replicate 2049 0⟩
    ¬badOperand c i ∧ usesLen i ∧ c.cmdPayloadMax < i.operands.arg.toNat := by
  refine ⟨?_, trivial, by decide +kernel⟩
  rintro (⟨-, h⟩ | ⟨-, h, -⟩ | ⟨h, -⟩ | ⟨-, h⟩ | h)
  · exact h rfl
  · exact h trivial
  · exact h trivial
  · exact h (by decide +kernel)
  · exact h

theorem witness_WaitingCommandHasNoMove :
    (running (src [] 0 0 []) .srcNextBit).rst = false ∧ noAnswer (running (src [] 0 0 []) .srcNextBit) .srcNextBit ∧
      ¬noAnswer (running (src [] 0 0 [.ioErr]) .srcNextBit) .srcNextBit ∧ readsBits .srcNextBit ∧
      noAnswer (running (snk 0 0 [1] []) (.snkFirstDrain .close)) (.snkFirstDrain .close) ∧
      ¬noAnswer (running (snk 0 0 [1] [.ok]) (.snkFirstDrain .close)) (.snkFirstDrain .close) ∧
      writesBits (.snkFirstDrain .close) := by
  simp [noAnswer, readsBits, writesBits, running, src, snk, State.reset]

/-- A command that waits after one answer, run now and resumed. -/
theorem witness_WaitingCommandHasNoMove_goes_on :
    let s := src [] 0 0 [.bytes [0xAB]]
    let t := after (exec (.srcNextBit .none) s)
    let u := after (step (running s .srcNextBit))
    s.rst = false ∧ exec (.srcNextBit .none) s = .next t ∧ t.eng = .busy .srcNextBit ∧
      (running s .srcNextBit).rst = false ∧ step (running s .srcNextBit) = .next u ∧ u.eng = .busy .srcNextBit :=
  ⟨rfl, exec_after _ _, by decide +kernel, rfl, rfl, by decide +kernel⟩

/-- An answered command, and one that waits. -/
theorem witness_CommandAnswersOnceOrWaits :
    exec (.encNew .none) State.reset = .next (after (exec (.encNew .none) State.reset)) ∧
      exec (.srcNextBit .none) State.reset = .next (after (exec (.srcNextBit .none) State.reset)) ∧
      (after (exec (.srcNextBit .none) State.reset)).eng = .busy .srcNextBit :=
  ⟨exec_after _ _, exec_after _ _, by decide +kernel⟩

theorem witness_BusyEngineFinishesItsCommand :
    let s := running (src [] 0 0 [.ioErr]) .srcNextBit
    s.rst = false ∧ s.eng = .busy .srcNextBit ∧ step s = .next (after (step s)) ∧ readsBits .srcNextBit :=
  ⟨rfl, rfl, rfl, trivial⟩
theorem witness_BusyEngineFinishesItsCommand_write :
    let s := running (snk 0 0 [1] [.ok]) (.snkFirstDrain .close)
    s.rst = false ∧ s.eng = .busy (.snkFirstDrain .close) ∧ step s = .next (after (step s)) ∧
      writesBits (.snkFirstDrain .close) := ⟨rfl, rfl, rfl, trivial⟩
/-- A command accepted and not yet run. -/
theorem witness_BusyEngineFinishesItsCommand_started :
    let s := (handed [⟨0x00001601, 0, []⟩]).start
    s.rst = false ∧ s.eng = .busy (.started ⟨0x00001601, 0, []⟩) ∧ step s = .next (after (step s)) := ⟨rfl, rfl, rfl⟩

theorem witness_StatusWordFields :
    let i := Instr.decDecode (.ofPayload (abraBuffer.take 21))
    let t := after (exec i State.reset)
    exec i State.reset = .next t ∧ t.resps = State.reset.resps ++ [⟨0x100, 0, abra.take 8⟩] ∧
      ((0x100 : Word).getLsbD 8 = true) := ⟨exec_after _ _, by decide +kernel, by decide⟩
theorem witness_StatusWordFields_error :
    let t := after (exec (.treeSerialize .none) State.reset)
    exec (.treeSerialize .none) State.reset = .next t ∧ t.resps = State.reset.resps ++ [⟨0x14, 0, []⟩] ∧
      0x10 ≤ ((0x14 : Word).extractLsb' 0 8).toNat := ⟨exec_after _ _, by decide +kernel, by decide⟩
/-- A refused packet, and a command resumed: the responses of steps. -/
theorem witness_StatusWordFields_step :
    let s := handed [⟨0x00010040, 0, []⟩]
    let u := running (src [] 0 0 [.bytes []]) .srcNextBit
    step s = .next (after (step s)) ∧ (after (step s)).resps = s.resps ++ [⟨0x10, 0, []⟩] ∧
      step u = .next (after (step u)) ∧ (after (step u)).resps = u.resps ++ [⟨1, 0, []⟩] :=
  ⟨rfl, by decide +kernel, rfl, by decide +kernel⟩

theorem witness_ResetAbandonsEverything :
    (State.reset.assertReset).rst = true ∧ (State.reset.assertReset).eng = .idle ∧
      ((running (src [] 0 0 []) .srcNextBit).assertReset).rst = true := ⟨rfl, rfl, rfl⟩

/-- A command accepted; a read with no answer, and with one; a write with no answer, and with one. -/
theorem witness_ResetAbandonsTheRequest :
    let p : Packet := ⟨0x00001601, 0, []⟩
    let r (as : List PortIAnswer) := (running (src [0xAB] 0 0 as) .srcNextBit).assertReset
    let w (as : List PortOAnswer) := (running (snk 0 0 [1] as) (.snkFirstDrain .close)).assertReset
    (handed [p]).rst = false ∧ (handed [p]).eng = .idle ∧ (handed [p]).cmds = p :: [] ∧
      (r []).rst = true ∧ (r []).eng = .busy .srcNextBit ∧ readsBits .srcNextBit ∧
      step (r []) = .next (after (step (r []))) ∧ (r []).portI = [] ∧ (r []).lateI = 0 ∧
      step (r [.bytes [1, 2, 3]]) = .next (after (step (r [.bytes [1, 2, 3]]))) ∧
      (r [.bytes [1, 2, 3]]).portI = .bytes [1, 2, 3] :: [] ∧
      ([1, 2, 3] : List Byte).length ≤ (r []).bsrc.batch.toNat - (r []).bsrc.buf.length ∧
      (w []).rst = true ∧ (w []).eng = .busy (.snkFirstDrain .close) ∧ writesBits (.snkFirstDrain .close) ∧
      step (w []) = .next (after (step (w []))) ∧ (w []).portO = [] ∧ (w []).lateO = 0 ∧
      step (w [.ok]) = .next (after (step (w [.ok]))) ∧ (w [.ok]).portO = .ok :: [] ∧
      step (handed [p]) = .next (after (step (handed [p]))) :=
  ⟨rfl, rfl, rfl, rfl, rfl, trivial, rfl, rfl, rfl, rfl, rfl, by decide, rfl, rfl, trivial, rfl, rfl, rfl, rfl, rfl, rfl⟩

/-! Legal states, for the statements that have one as a premise. -/

theorem reference_legal : Config.reference.Legal := by constructor <;> decide

/-- A state after a reset is legal, and so is it with a tree read from a payload, or with data fed to the encoder. -/
theorem fed_legal (d : List Byte) (h : d.length ≤ 65536) :
    Inv { State.reset.hardReset with enc := ⟨false, d, countBytes Enc.fresh.freq d, 0 + BitVec.ofNat 64 d.length⟩ } := by
  have hr := (hardReset_inv (s := State.reset) reference_legal).units
  refine ⟨hr.setEnc (addChunk_inv reference_legal hr.enc d rfl ?_), trivial⟩
  show 0 + d.length ≤ 65536
  omega

/-- The state of `fed_legal`. -/
def legalFed (d : List Byte) : State :=
  { State.reset.hardReset with enc := ⟨false, d, countBytes Enc.fresh.freq d, 0 + BitVec.ofNat 64 d.length⟩ }

theorem witness_StepKeepsLegalStates : Inv (legalFed abra) ∧ step (legalFed abra) = .next (legalFed abra) :=
  ⟨fed_legal abra (by decide), rfl⟩

theorem witness_StepExtendsHistory :
    step (handed [⟨0x60, 0, []⟩]) = .next ((handed []).reject .unknownOpcode) := rfl

/-! The bit source. -/

theorem witness_SrcOpenOpensAFreshSource :
    1 ≤ (1 : Word).toNat ∧ (4096 : Word).toNat ≤ State.reset.cfg.srcBufCap ∧ (0 : Word).toNat = 0 ∧
      State.reset.cfg.srcBufCap < (4097 : Word).toNat := by decide +kernel

/-- The last bit of the buffer. -/
theorem witness_NextBitFromBuffer :
    let b := (src [0xAB, 0xCD] 1 7 []).bsrc
    b.isOpen = true ∧ b.rpos < b.buf.length := by decide +kernel

/-- A source inside a refill, with bytes of it buffered: the state of a command that waits for port I. -/
def filling (j : Job) (had : List Byte) (as : List PortIAnswer) : State := running (src had 0 0 as) j

theorem bitRun_now (buf : List Byte) (as : List PortIAnswer) (h : buf.length ≤ 1) :
    bitRun [] (src buf 1 0 as) (exec (.srcNextBit .none) (src buf 1 0 as)) := .inl ⟨rfl, rfl, h, rfl⟩
theorem bitRun_later (had : List Byte) (as : List PortIAnswer) :
    bitRun had (filling .srcNextBit had as) (step (filling .srcNextBit had as)) := .inr ⟨rfl, rfl, rfl, rfl, rfl, rfl⟩

theorem witness_RefillEndings_waits :
    let s := src [0xFF] 1 0 [.bytes [0xAB], .bytes [0xCD, 0xEF]]
    bitRun [] s (exec (.srcNextBit .none) s) ∧ (∀ c ∈ ([[0xAB], [0xCD, 0xEF]] : List (List Byte)), c ≠ []) ∧
      3 < s.bsrc.batch.toNat ∧ s.portI = [[0xAB], [0xCD, 0xEF]].map PortIAnswer.bytes :=
  ⟨bitRun_now _ _ (by decide), by simp, by decide, rfl⟩
theorem witness_RefillEndings_eod :
    let s := filling .srcNextBit [] [.bytes []]
    bitRun [] s (step s) ∧ 0 < s.bsrc.batch.toNat ∧
      s.portI = ([] : List (List Byte)).map PortIAnswer.bytes ++ .bytes [] :: [] :=
  ⟨bitRun_later _ _, by decide, rfl⟩
/-- The bytes came before the wait. -/
theorem witness_RefillEndings_short :
    let s := filling .srcNextBit [0xAB] [.bytes []]
    bitRun [0xAB] s (step s) ∧ 1 < s.bsrc.batch.toNat ∧
      s.portI = ([] : List (List Byte)).map PortIAnswer.bytes ++ .bytes [] :: [] :=
  ⟨bitRun_later _ _, by decide, rfl⟩
/-- One byte before the wait, one after it, and the two that fill the batch. -/
theorem witness_RefillEndings_full :
    let s := filling .srcNextBit [1] [.bytes [2], .bytes [3, 4]]
    bitRun [1] s (step s) ∧ (∀ c ∈ ([[2]] : List (List Byte)), c ≠ []) ∧ 2 < s.bsrc.batch.toNat ∧
      s.portI = [[2]].map PortIAnswer.bytes ++ .bytes [3, 4] :: [] ∧
      ([3, 4] : List Byte).length = s.bsrc.batch.toNat - ([1] ++ [[2]].flatten : List Byte).length :=
  ⟨bitRun_later _ _, by simp, by decide, rfl, by decide⟩
theorem witness_RefillEndings_ioErr :
    let s := src [] 1 0 [.bytes [0xF0], .ioErr]
    bitRun [] s (exec (.srcNextBit .none) s) ∧ (∀ c ∈ ([[0xF0]] : List (List Byte)), c ≠ []) ∧ 1 < s.bsrc.batch.toNat ∧
      s.portI = [[0xF0]].map PortIAnswer.bytes ++ .ioErr :: [] :=
  ⟨bitRun_now _ _ (by decide), by simp, by decide, rfl⟩

theorem witness_NextByteFromBuffer :
    let s := src [0xAB, 0xCD] 1 0 []
    s.bsrc.isOpen = true ∧ (sourceBits s.bsrc).length = 8 := by decide +kernel

theorem byteRun_now (buf : List Byte) (rpos : Nat) (bpos : BitVec 3) (as : List PortIAnswer) :
    byteRun (sourceBits (src buf rpos bpos as).bsrc) [] (src buf rpos bpos as)
      (exec (.srcNextByte .none) (src buf rpos bpos as)) := .inl ⟨rfl, rfl, rfl, rfl⟩
/-- A command that has read 1 0 1 and waits. -/
def reading (had : List Byte) (as : List PortIAnswer) : State := filling (.srcNextByte 4 5) had as
theorem byteRun_later (had : List Byte) (as : List PortIAnswer) :
    byteRun [true, false, true] had (reading had as) (step (reading had as)) := .inr ⟨rfl, rfl, rfl, rfl, rfl, rfl⟩

/-- Seven bits before the end of data; the first SRC_NEXT_BYTE after a reset; bytes, then an I/O error; no answer. -/
theorem witness_NextByteAcrossARefill :
    (sourceBits (src [0xAB, 0xCD] 1 1 [.bytes []]).bsrc).length = 7 ∧
      (src [0xAB, 0xCD] 1 1 [.bytes []]).portI = ([] : List (List Byte)).map PortIAnswer.bytes ++ .bytes [] :: [] ∧
      0 < (src [0xAB, 0xCD] 1 1 [.bytes []]).bsrc.batch.toNat ∧
      (sourceBits (src [] 0 0 [.bytes [1, 2, 3, 4]]).bsrc).length = 0 ∧
      (src [] 0 0 [.bytes [1, 2, 3, 4]]).portI =
        ([] : List (List Byte)).map PortIAnswer.bytes ++ .bytes [1, 2, 3, 4] :: [] ∧
      ([1, 2, 3, 4] : List Byte).length = (src [] 0 0 []).bsrc.batch.toNat - ([] ++ [].flatten : List Byte).length ∧
      (src [] 0 0 [.bytes [1], .ioErr]).portI = [[1]].map PortIAnswer.bytes ++ .ioErr :: [] ∧
      (src [] 0 0 [.bytes [1]]).portI = [[1]].map PortIAnswer.bytes := by decide +kernel
/-- The same command going on: the end of data with a byte that came before, and with none; an I/O error; no answer. -/
theorem witness_NextByteAcrossARefill_later :
    [true, false, true].length < 8 ∧ 1 < (reading [0xAB] []).bsrc.batch.toNat ∧
      (reading [0xAB] [.bytes []]).portI = ([] : List (List Byte)).map PortIAnswer.bytes ++ .bytes [] :: [] ∧
      (reading [] [.bytes []]).portI = ([] : List (List Byte)).map PortIAnswer.bytes ++ .bytes [] :: [] ∧
      (reading [0xAB] [.ioErr]).portI = ([] : List (List Byte)).map PortIAnswer.bytes ++ .ioErr :: [] ∧
      (reading [0xAB] []).portI = ([] : List (List Byte)).map PortIAnswer.bytes := by decide +kernel

theorem witness_TakeUnconsumedReturnsWholeBytes :
    let s := src [0x11, 0x22, 0x33, 0x44] 1 4 []
    s.bsrc.isOpen = true ∧ s.bsrc.buf.length < 2 ^ 32 ∧ srcClosed.bsrc.isOpen = false := by decide +kernel

theorem witness_ClosedSourceAnswersClosed :
    srcClosed.bsrc.isOpen = false ∧ 1 ≤ (4096 : Word).toNat ∧ (4096 : Word).toNat ≤ srcClosed.cfg.srcBufCap ∧
      exec (.srcOpen (.ofArg 1)) srcClosed = .next (after (exec (.srcOpen (.ofArg 1)) srcClosed)) ∧
      (after (exec (.srcOpen (.ofArg 1)) srcClosed)).bsrc.isOpen = true ∧ srcClosed.assertReset.rst = true :=
  ⟨rfl, by decide, by decide +kernel, exec_after _ _, by decide +kernel, rfl⟩

theorem witness_SrcCommandsFrame :
    (∃ t, exec (.srcOpen (.ofArg 4)) State.reset = .next t) ∧
      (∃ t, exec (.srcNextBit .none) (src [] 0 0 [.ioErr]) = .next t) ∧
      (∃ t, exec (.srcNextByte .none) (src [1] 0 0 []) = .next t) ∧
      ∃ t, exec (.srcTakeUnconsumed .none) (src [1] 0 0 []) = .next t := ⟨exec_next _ _, exec_next _ _, exec_next _ _, exec_next _ _⟩

/-! The bit sink. -/

/-- A sink one bit short of a byte, with threshold `t`. -/
def nearly (t : Word) (buf : List Byte) (as : List PortOAnswer) : State :=
  { State.reset with bsnk := ⟨true, t, 0x55, 7, buf⟩, portO := as }

theorem witness_WriteBitOutcomes :
    (snk 0x2A 6 [] []).bsnk.isOpen = true ∧ (snk 0x2A 6 [] []).bsnk.nbits.toNat < 7 ∧
      (nearly 0 (List.replicate 4096 0) []).bsnk.nbits.toNat = 7 ∧
      (nearly 0 (List.replicate 4096 0) []).cfg.snkBufCap ≤ (nearly 0 (List.replicate 4096 0) []).bsnk.buf.length ∧
      (nearly 3 [1] []).bsnk.buf.length + 1 < (nearly 3 [1] []).bsnk.thresh.toNat ∧
      (nearly 2 [1] [.ok]).bsnk.thresh.toNat ≤ (nearly 2 [1] [.ok]).bsnk.buf.length + 1 ∧
      (nearly 2 [1] [.ok]).portO = .ok :: [] ∧ (nearly 2 [1] [.ioErr]).portO = .ioErr :: [] ∧
      (nearly 2 [1] []).portO = [] := by decide +kernel
theorem witness_WriteBitOutcomes_later :
    let s (as : List PortOAnswer) := running (snk 0 0 [1] as) (.snkWriteBit 1)
    (s []).rst = false ∧ (s []).eng = .busy (.snkWriteBit 1) ∧ (s [.ok]).portO = .ok :: [] ∧
      (s [.ioErr]).portO = .ioErr :: [] := by decide +kernel

theorem witness_AcceptedBitComesNext :
    let i := Instr.snkWriteBit (.ofImm (BitVec.ofNat 8 (num true)))
    let t := after (exec i (nearly 2 [1] [.ioErr]))
    exec i (nearly 2 [1] [.ioErr]) = .next t ∧ t.resps = (nearly 2 [1] [.ioErr]).resps ++ [⟨0x21, 1, []⟩] :=
  ⟨exec_after _ _, by decide +kernel⟩

theorem witness_AcceptedBitComesNext_byte :
    let i := Instr.snkWriteByte (.ofImm 0x96)
    let t := after (exec i (nearly 2 [1] [.ioErr]))
    let u := running (snk 0 0 [1] [.ok]) (.snkWriteByte 0x96 2)
    exec i (nearly 2 [1] [.ioErr]) = .next t ∧ t.resps = (nearly 2 [1] [.ioErr]).resps ++ [⟨0x21, 1, []⟩] ∧
      u.rst = false ∧ u.eng = .busy (.snkWriteByte 0x96 2) ∧ 2 ≤ 7 ∧ step u = .next (after (step u)) ∧
      (after (step u)).resps = u.resps ++ [⟨0, 8, []⟩] :=
  ⟨exec_after _ _, by decide +kernel, rfl, rfl, by decide, rfl, by decide +kernel⟩
theorem witness_AcceptedBitComesNext_bit_later :
    let u := running (snk 0 0 [1] [.ok]) (.snkWriteBit 1)
    u.rst = false ∧ u.eng = .busy (.snkWriteBit 1) ∧ step u = .next (after (step u)) := ⟨rfl, rfl, rfl⟩

theorem witness_WriteByteOutcomes :
    (nearly 3 [1] []).bsnk.isOpen = true ∧ (nearly 3 [1] []).bsnk.buf.length < (nearly 3 [1] []).cfg.snkBufCap ∧
      (nearly 3 [1] []).bsnk.buf.length + 1 < (nearly 3 [1] []).bsnk.thresh.toNat ∧
      (nearly 2 [1] [.ok]).portO = .ok :: [] ∧
      (nearly 2 [1] [.ioErr]).bsnk.thresh.toNat ≤ (nearly 2 [1] [.ioErr]).bsnk.buf.length + 1 ∧
      (nearly 2 [1] [.ioErr]).portO = .ioErr :: [] ∧ (nearly 2 [1] []).portO = [] ∧
      (nearly 0 (List.replicate 4096 0) []).cfg.snkBufCap ≤ (nearly 0 (List.replicate 4096 0) []).bsnk.buf.length := by
  decide +kernel
theorem witness_WriteByteOutcomes_later :
    let s (as : List PortOAnswer) := running (snk 0 0 [1] as) (.snkWriteByte 0x96 7)
    (s []).rst = false ∧ (s []).eng = .busy (.snkWriteByte 0x96 7) ∧ 7 ≤ 7 ∧ (s []).bsnk.acc = 0 ∧
      (s []).bsnk.nbits = 0 ∧ (s [.ok]).portO = .ok :: [] ∧ (s [.ioErr]).portO = .ioErr :: [] := by decide +kernel

theorem sink_legal (k : Bsnk) (h : k.thresh.toNat ≤ 4096 ∧ k.acc.toNat < 2 ^ k.nbits.toNat ∧ k.buf.length ≤ 4096 ∧
    k.isOpen = true) : BsnkInv Config.reference k :=
  ⟨h.1, h.2.1, h.2.2.1, fun hc => by rw [h.2.2.2] at hc; cases hc⟩

/-- SNK_FLUSH, SNK_OPEN or SNK_CLOSE run now on an open legal sink. -/
theorem flushRun_now (f : Finalize) (s : State) (hc : s.cfg = Config.reference) (hk : s.bsnk.isOpen = true)
    (h : s.bsnk.thresh.toNat ≤ 4096 ∧ s.bsnk.acc.toNat < 2 ^ s.bsnk.nbits.toNat ∧ s.bsnk.buf.length ≤ 4096)
    (hf : ∀ t, f = .reopen t → t.toNat ≤ 4096) : flushRun f s (exec (finalizeCommand f) s) := by
  refine ⟨hc ▸ sink_legal _ ⟨h.1, h.2.1, h.2.2, hk⟩, by rw [hc]; decide, .inl ⟨rfl, hk, ?_⟩⟩
  rw [hc]; exact hf
/-- One that waits for its first write. -/
theorem flushRun_later (f : Finalize) (as : List PortOAnswer) :
    flushRun f (running (snk 0 0 [1, 2] as) (.snkFirstDrain f)) (step (running (snk 0 0 [1, 2] as) (.snkFirstDrain f))) :=
  ⟨show BsnkInv Config.reference ⟨true, 128, 0, 0, [1, 2]⟩ from sink_legal _ (by decide),
    show 1 ≤ Config.reference.snkBufCap by decide, .inr ⟨rfl, rfl, rfl, List.cons_ne_nil _ _, .inl rfl⟩⟩

/-- A partial byte with room: one write, whatever answers follow. -/
theorem witness_FinalizingDeliversEveryBit :
    let s := snk 5 3 [1, 2] [.ok, .ioErr]
    (∀ f, (∀ t, f = .reopen t → t.toNat ≤ 4096) → flushRun f s (exec (finalizeCommand f) s)) ∧
      sinkBits s.bsnk ≠ [] ∧ oneWrite s ∧ s.portO = .ok :: [.ioErr] ∧ (pack (sinkBits s.bsnk)).length < 2 ^ 32 :=
  ⟨fun f => flushRun_now f _ rfl rfl (by decide), by decide +kernel, .inr (by decide), rfl, by decide +kernel⟩
/-- A full buffer: the partial byte has no room, so two writes. -/
theorem witness_FinalizingDeliversEveryBit_two :
    let s := snk 5 3 (List.replicate 4096 0) [.ok, .ok]
    flushRun .close s (exec (finalizeCommand .close) s) ∧ twoWrites s ∧ s.portO = .ok :: .ok :: [] ∧
      (pack (sinkBits s.bsnk)).length < 2 ^ 32 :=
  ⟨flushRun_now .close _ rfl rfl (by decide +kernel) (by simp), ⟨by decide, List.length_replicate⟩,
    rfl, by rw [pack_sinkBits]; decide +kernel⟩
theorem witness_FinalizingDeliversEveryBit_nothing :
    flushRun .flush (snk 0 0 [] []) (exec (finalizeCommand .flush) (snk 0 0 [] [])) ∧ sinkBits (snk 0 0 [] []).bsnk = [] :=
  ⟨flushRun_now .flush _ rfl rfl (by decide) (by simp), by decide +kernel⟩
theorem witness_FinalizingDeliversEveryBit_later :
    let s := running (snk 0 0 [1, 2] [.ok]) (.snkFirstDrain .close)
    flushRun .close s (step s) ∧ sinkBits s.bsnk ≠ [] ∧ oneWrite s ∧ s.portO = .ok :: [] :=
  ⟨flushRun_later _ _, by decide +kernel, .inl rfl, rfl⟩
theorem witness_FinalizingDeliversEveryBit_second :
    let s := running (snk 0 0 [0xA0] [.ok]) (.snkSecondDrain .flush 4096)
    s.rst = false ∧ s.eng = .busy (.snkSecondDrain .flush 4096) ∧ s.bsnk.acc = 0 ∧ s.bsnk.nbits = 0 ∧
      s.portO = .ok :: [] ∧ 4096 + s.bsnk.buf.length < 2 ^ 32 ∧ s.bsnk.isOpen = true := by decide +kernel
theorem witness_FinalizingDeliversEveryBit_closed :
    snkClosed.bsnk.isOpen = false ∧ (4096 : Word).toNat ≤ snkClosed.cfg.snkBufCap := by decide +kernel

theorem witness_FailedFinalizingKeepsEveryBit :
    let s := snk 5 3 [1, 2] [.ioErr]
    let u := running (snk 0 0 [1, 2] []) (.snkFirstDrain .flush)
    flushRun .close s (exec (finalizeCommand .close) s) ∧ sinkBits s.bsnk ≠ [] ∧ oneWrite s ∧ s.portO = .ioErr :: [] ∧
      flushRun .flush u (step u) ∧ sinkBits u.bsnk ≠ [] ∧ oneWrite u ∧ u.portO = [] :=
  ⟨flushRun_now .close _ rfl rfl (by decide) (by simp), by decide +kernel, .inr (by decide), rfl, flushRun_later _ _,
    by decide +kernel, .inl rfl, rfl⟩
theorem full_legal : (128 : Word).toNat ≤ 4096 ∧ (5 : Byte).toNat < 2 ^ (3 : BitVec 3).toNat ∧
    (List.replicate 4096 (0 : Byte)).length ≤ 4096 := by decide +kernel
/-- A full buffer, with each way port O may answer. -/
theorem witness_FailedFinalizingKeepsEveryBit_full :
    let s (as : List PortOAnswer) := snk 5 3 (List.replicate 4096 0) as
    (∀ as, flushRun (.reopen 16) (s as) (exec (finalizeCommand (.reopen 16)) (s as)) ∧ twoWrites (s as)) ∧
      (s [.ioErr]).portO = .ioErr :: [] ∧ (s []).portO = [] ∧ (s [.ok, .ioErr]).portO = .ok :: .ioErr :: [] ∧
      (s []).bsnk.buf.length < 2 ^ 32 ∧ (s [.ok]).portO = [.ok] :=
  ⟨fun _ => ⟨flushRun_now (.reopen 16) _ rfl rfl full_legal (fun t h => by cases h; decide), ⟨show (3 : BitVec 3) ≠ 0 by decide, List.length_replicate⟩⟩,
    rfl, rfl, rfl, by decide +kernel, rfl⟩
theorem witness_FailedFinalizingKeepsEveryBit_second :
    let s := running (snk 0 0 [0xA0] [.ioErr]) (.snkSecondDrain .close 4096)
    s.rst = false ∧ s.eng = .busy (.snkSecondDrain .close 4096) ∧ 4096 < 2 ^ 32 ∧ s.portO = .ioErr :: [] := by
  decide +kernel

theorem witness_SetThresholdDrainsNothing :
    State.reset.bsnk.isOpen = true ∧ snkClosed.bsnk.isOpen = false ∧
      (0 : Word).toNat ≤ State.reset.cfg.snkBufCap ∧ (4096 : Word).toNat ≤ State.reset.cfg.snkBufCap ∧
      State.reset.cfg.snkBufCap < (4097 : Word).toNat := by decide +kernel

theorem witness_SetThresholdDrainsNothing_then_drains :
    (nearly 128 [1] [.ok]).bsnk.isOpen = true ∧ (nearly 128 [1] [.ok]).bsnk.nbits.toNat = 7 ∧
      (nearly 128 [1] [.ok]).bsnk.buf.length < (nearly 128 [1] [.ok]).cfg.snkBufCap ∧
      (2 : Word).toNat ≤ (nearly 128 [1] [.ok]).bsnk.buf.length + 1 ∧ (nearly 128 [1] [.ok]).portO = .ok :: [] := by
  decide +kernel

theorem witness_ClosedSinkAnswersClosed :
    snkClosed.bsnk.isOpen = false ∧ (4096 : Word).toNat ≤ snkClosed.cfg.snkBufCap ∧
      exec (.snkOpen (.ofArg 0)) snkClosed = .next (after (exec (.snkOpen (.ofArg 0)) snkClosed)) ∧
      (after (exec (.snkOpen (.ofArg 0)) snkClosed)).bsnk.isOpen = true :=
  ⟨rfl, by decide +kernel, exec_after _ _, by decide +kernel⟩

theorem witness_SnkCommandsFrame :
    (∃ t, exec (.snkOpen (.ofArg 4)) State.reset = .next t) ∧ (∃ t, exec (.snkWriteBit (.ofImm 1)) State.reset = .next t) ∧
      (∃ t, exec (.snkWriteByte (.ofImm 1)) State.reset = .next t) ∧ (∃ t, exec (.snkFlush .none) State.reset = .next t) ∧
      (∃ t, exec (.snkSetThreshold (.ofArg 4)) State.reset = .next t) ∧
      ∃ t, exec (.snkClose .none) (snk 1 1 [] [.ok]) = .next t :=
  ⟨exec_next _ _, exec_next _ _, exec_next _ _, exec_next _ _, exec_next _ _, exec_next _ _⟩

/-! The tree unit. -/

theorem fromLe_zeros (n : Nat) : fromLe (List.replicate n 0) = 0 := by
  induction n with
  | zero => rfl
  | succ n ih => simpa [List.replicate_succ, fromLe] using ih

theorem witness_TreeBuildStoresABuiltTree :
    2048 ≤ State.reset.cfg.cmdPayloadMax ∧ (freqPayload [(255, 1)]).length = 2048 ∧
      (∃ b < 256, tableCount (freqPayload [(255, 1)]) b ≠ 0) ∧ (List.replicate 2048 (0 : Byte)).length = 2048 ∧
      (∀ b < 256, tableCount (List.replicate 2048 0) b = 0) ∧ (List.replicate 2047 (0 : Byte)).length ≠ 2048 :=
  ⟨by decide +kernel, by decide +kernel, ⟨255, by decide +kernel⟩, List.length_replicate, fun b _ => by
    rw [tableCount, List.drop_replicate, List.take_replicate, fromLe_zeros], by rw [List.length_replicate]; decide⟩

theorem witness_PickTakesALeastNode :
    let q := [FreqTree.leaf 1 2, .leaf 2 1, .leaf 3 1]
    q ≠ [] ∧ FreqTree.leaf 3 1 ∈ q ∧ (∀ y ∈ q, (treeWeight (.leaf 3 1)).toNat ≤ (treeWeight y).toNat) ∧ 2 ≤ q.length := by
  decide +kernel

theorem witness_SerializeReturnsTheTree :
    (store abraTree).tree = some abraTree ∧ (serialize abraTree).length < 2 ^ 32 ∧ State.reset.tree = none := by
  decide +kernel

theorem witness_DeserializeOfSerialize :
    treeNodes abraTree ≤ State.reset.cfg.maxNodes ∧ State.reset.cfg.cmdPayloadMax < 2 ^ 32 ∧
      (serialize abraTree).length < 2 ^ 32 ∧
      (pack (serialize abraTree) ++ [0xFF]).length ≤ State.reset.cfg.cmdPayloadMax ∧
      serialize abraTree <+: unpack (pack (serialize abraTree)) := by decide +kernel

/-- A tree of `n` Composites in a row, all its Leaves of byte 0 (T-T21). -/
def comb : Nat → FreqTree
  | 0 => .leaf 0 0
  | n + 1 => .composite 0 (.leaf 0 0) (comb n)

/-- A Composite and one Leaf, as R166 writes them: 0, then 1 and the byte 0x61. -/
def half : List (Option Byte) := [none, some 0x61]

theorem half_unfinished : unfinished half := by
  intro us h
  have : us = [] ∨ us = [none] ∨ us = half := by
    match us, h with
    | [], _ => exact .inl rfl
    | [a], h => obtain ⟨rfl, -⟩ := List.cons_prefix_cons.1 h; exact .inr (.inl rfl)
    | [a, b], h =>
      obtain ⟨ha, h⟩ := List.cons_prefix_cons.1 h
      obtain ⟨hb, -⟩ := List.cons_prefix_cons.1 h
      exact .inr (.inr (by rw [ha, hb]; rfl))
    | a :: b :: c :: l, h => have := h.length_le; simp [half] at this
  rcases this with rfl | rfl | rfl <;> decide

/-- T-T19's payload is cut inside its second Leaf; a payload that ends after whole nodes; and one whose third node meets
`MAX_NODES = 2` though it runs out too (an odd MAX_NODES would do as well). -/
theorem witness_DeserializeFailures :
    let s : State := { State.reset with cfg := { Config.reference with maxNodes := 2 } }
    s.cfg.cmdPayloadMax < 2 ^ 32 ∧ ([0x58, 0x6C] : List Byte).length ≤ s.cfg.cmdPayloadMax ∧
      unpack [0x58, 0x6C] = half.flatMap nodeBits ++ [true, false, true, true, false, false] ∧
      half.length < State.reset.cfg.maxNodes ∧ [true, false, true, true, false, false].head? = some true ∧
      [true, false, true, true, false, false].length < 9 ∧ half.length = s.cfg.maxNodes := by decide +kernel
/-- Eight Composites and nothing else. -/
theorem witness_DeserializeFailures_end :
    unpack [0] = (List.replicate 8 none).flatMap nodeBits ++ [] ∧ unfinished (List.replicate 8 none) ∧
      (List.replicate 8 (none : Option Byte)).length ≤ State.reset.cfg.maxNodes := by
  refine ⟨by decide +kernel, fun us h => ?_, by decide +kernel⟩
  rw [List.countP_eq_zero.2 fun x hx => by rw [List.eq_of_mem_replicate (h.subset hx)]; decide]
  exact Nat.zero_le _

theorem witness_CodesAreLeafPaths : codeOf abraTree 98 = some [true, true, false] ∧ codeOf abraTree 0 = none := by
  decide +kernel

theorem witness_CodesArePrefixFree :
    codeOf abraTree 98 = some [true, true, false] ∧ codeOf abraTree 97 = some [false] ∧ (98 : Byte) ≠ 97 := by
  decide +kernel

theorem witness_CodeTableEntries :
    (store abraTree).tree = some abraTree ∧ (∀ b c, codeOf abraTree b = some c → c.length < 65536) ∧
      State.reset.tree = none :=
  ⟨rfl, fun _ _ h => (codeOf_length h).trans (by decide +kernel), rfl⟩

theorem witness_TreeCommandsFrame :
    (∃ t, exec (.treeBuild (.ofPayload (List.replicate 2048 0))) State.reset = .next t) ∧
      (∃ t, exec (.treeSerialize .none) (store abraTree) = .next t) ∧
      (∃ t, exec (.treeDeserialize (.ofPayload [0])) State.reset = .next t) ∧
      (∃ t, exec (.treeCodeTable .none) (store abraTree) = .next t) ∧
      WellFormed Config.reference (.treeDeserialize (.ofPayload [0])) = true ∧
      answer (.treeDeserialize (.ofPayload [0])) State.reset = some ⟨0x22, 0, []⟩ :=
  ⟨exec_next _ _, exec_next _ _, exec_next _ _, exec_next _ _, by decide +kernel, by decide +kernel⟩

/-! The encoder and the decoder. -/

/-- The last byte that fits, and one more. -/
theorem witness_AddChunkCountsEveryByte :
    let s : State := { State.reset with enc := { Enc.fresh with total := 65535 } }
    ([97] : List Byte).length < 2 ^ 32 ∧ ([97] : List Byte).length ≤ s.cfg.cmdPayloadMax ∧ s.enc.consumed = false ∧
      s.enc.total.toNat + ([97] : List Byte).length ≤ s.cfg.chunkCap ∧
      s.cfg.chunkCap < s.enc.total.toNat + ([97, 97] : List Byte).length ∧ Enc.spent.consumed = true := by decide +kernel

theorem witness_AddChunkCountsEveryByte_payload :
    let c := { Config.reference with cmdPayloadMax := 2048 }
    (List.replicate 2049 (0 : Byte)).length < 2 ^ 32 ∧ c.cmdPayloadMax < (List.replicate 2049 (0 : Byte)).length := by
  decide +kernel

theorem witness_EncodeReturnsTheBuffer :
    Inv (legalFed abra) ∧ (legalFed abra).enc.consumed = false ∧ (legalFed abra).enc.data ≠ [] ∧
      Inv (legalFed []) ∧ (legalFed []).enc.consumed = false ∧ (legalFed []).enc.data = [] ∧ Enc.spent.consumed = true :=
  ⟨fed_legal abra (by decide), rfl, by decide, fed_legal [] (by decide), rfl, rfl, rfl⟩

theorem witness_ChunksConcatenate :
    let s := State.reset
    s.enc.consumed = false ∧ ([97, 98] ++ [99] : List Byte).length < 2 ^ 32 ∧
      ([97, 98] ++ [99] : List Byte).length ≤ s.cfg.cmdPayloadMax ∧
      s.enc.total.toNat + ([97, 98] ++ [99] : List Byte).length ≤ s.cfg.chunkCap ∧ s.cfg.chunkCap < 2 ^ 64 := by
  decide +kernel

theorem witness_EncoderIsSingleUse :
    let s : State := { State.reset with enc := Enc.spent }
    s.enc.consumed = true ∧ ([97] : List Byte).length ≤ s.cfg.cmdPayloadMax ∧
      exec (.encNew .none) s = .next (after (exec (.encNew .none) s)) ∧
      (after (exec (.encNew .none) s)).enc.consumed = false := ⟨rfl, by decide +kernel, exec_after _ _, by decide +kernel⟩

theorem witness_EncCommandsFrame :
    (∃ t, exec (.encNew .none) State.reset = .next t) ∧ (∃ t, exec (.encAddChunk (.ofPayload [1])) State.reset = .next t) ∧
      ∃ t, exec (.encEncode .none) (fed [97]) = .next t := ⟨exec_next _ _, exec_next _ _, exec_next _ _⟩

/-- T-D9, T-D11: 11 bytes, and one byte short of the tree slice. -/
theorem witness_ShortBuffersAreMalformed :
    (abraBuffer.take 11).length < 12 ∧ (abraBuffer.take 18).length < 12 + treeSize (abraBuffer.take 18) ∧
      (abraBuffer.take 18).length < 2 ^ 32 ∧ (abraBuffer.take 18).length ≤ State.reset.cfg.cmdPayloadMax := by
  decide +kernel

/-- A buffer whose tree slice is `s`. -/
def sliced (s : List Byte) : List Byte := leBytes 4 s.length ++ leBytes 8 1 ++ s

/-- T-D13, T-D15, and T-D12's parse. -/
theorem witness_DecodeFollowsItsSteps :
    (∀ b ∈ [sliced [0x80], sliced (pack (serialize (comb 256))), abraBuffer.take 19],
      b.length < 2 ^ 32 ∧ b.length ≤ State.reset.cfg.cmdPayloadMax ∧ 12 ≤ b.length ∧ 12 + treeSize b ≤ b.length) ∧
      deserialize 511 (treeSlice (sliced [0x80])) = .malformed ∧
      deserialize 511 (treeSlice (sliced (pack (serialize (comb 256))))) = .treeCapacity ∧
      deserialize 511 (treeSlice (abraBuffer.take 19)) =
        .tree (zeroWeights abraTree) [false, false, false, false, false, false, false] 9 := by decide +kernel
/-- A lone Leaf whose payload bits are not all 0, and a root that is a Composite with a payload cut inside a code. -/
theorem witness_DecodeFollowsItsSteps_walks :
    let b := sliced [0xB0, 0x80] ++ [0xFF]
    b.length < 2 ^ 32 ∧ 12 + treeSize b ≤ b.length ∧
      deserialize 511 (treeSlice b) = .tree (.leaf 0x61 0) [false, false, false, false, false, false, false] 1 ∧
      unpack (payloadOf b) = List.replicate 8 true ∧ 0 < (unpack (payloadOf (abraBuffer.take 20))).length := by
  decide +kernel

theorem witness_DecodeOfEncodeIsTheData :
    Inv (legalFed abra) ∧ State.reset.cfg.Legal ∧ (legalFed abra).enc.consumed = false ∧ (legalFed abra).enc.data ≠ [] ∧
      abraBuffer.length ≤ State.reset.cfg.cmdPayloadMax :=
  ⟨fed_legal abra (by decide), reference_legal, rfl, by decide, by decide +kernel⟩

theorem witness_OneSymbolRoundTrip :
    Inv (legalFed (List.replicate 9 97)) ∧ State.reset.cfg.Legal ∧ (legalFed (List.replicate 9 97)).enc.consumed = false ∧
      1 ≤ 9 ∧ (legalFed (List.replicate 9 97)).enc.data = List.replicate 9 97 :=
  ⟨fed_legal _ (by decide), reference_legal, rfl, by decide, rfl⟩

theorem witness_DecodedLengthIsBounded :
    let i := Instr.decDecode (.ofPayload (abraBuffer.take 21))
    let t := after (exec i State.reset)
    (abraBuffer.take 21).length < 2 ^ 32 ∧ (abraBuffer.take 21).length ≤ State.reset.cfg.cmdPayloadMax ∧
      exec i State.reset = .next t ∧ t.resps = State.reset.resps ++ [⟨0x100, 0, abra.take 8⟩] ∧
      (0x100 : Word).extractLsb' 0 8 = 0 := ⟨by decide +kernel, by decide +kernel, exec_after _ _, by decide +kernel, by decide⟩

theorem witness_CsrReadReturnsTheField : Inv (legalFed abra) := fed_legal abra (by decide)

theorem witness_CsrReadAndDecodeFrame :
    (∃ t, exec (.csrRead (.ofImm 0)) State.reset = .next t) ∧
      ∃ t, exec (.decDecode (.ofPayload [0])) State.reset = .next t := ⟨exec_next _ _, exec_next _ _⟩

end Sys2Proof.Tests
end

section
/-! The merge loop's Pick and one turn of the loop (43_tree.md R162). -/

namespace Sys2Proof.Machine

/-- The weight of every least node is the collection's least weight. -/
theorem treeWeight_eq_leastWeight {q : List FreqTree} {x : FreqTree} (hx : x ∈ q)
    (hl : ∀ y ∈ q, (treeWeight x).toNat ≤ (treeWeight y).toNat) : (treeWeight x).toNat = leastWeight q := by
  obtain ⟨t, ht, e⟩ := leastWeight_mem (List.ne_nil_of_mem hx)
  exact Nat.le_antisymm (e ▸ hl t ht) (leastWeight_le hx)

/-- A draw below the number of least nodes is the number of the node that the Pick takes. -/
theorem pickNode_eq_takeWeight {d : Nat} {q : List FreqTree} (hd : d < countWeight (leastWeight q) q) :
    pickNode d q = takeWeight (leastWeight q) d q := by
  have hj : (if countWeight (leastWeight q) q ≤ 1 then 0 else d % countWeight (leastWeight q) q) = d := by
    split
    · omega
    · exact Nat.mod_eq_of_lt hd
  simp only [pickNode, hj]

/-- Every node of least weight is what the Pick answers for some draw (R162). -/
theorem pickNode_reach {q : List FreqTree} {x : FreqTree} (hx : x ∈ q)
    (hl : ∀ y ∈ q, (treeWeight x).toNat ≤ (treeWeight y).toNat) : ∃ d r, pickNode d q = some (x, r) := by
  obtain ⟨d, r, hd, e⟩ := takeWeight_reach hx (treeWeight_eq_leastWeight hx hl)
  exact ⟨d, r, (pickNode_eq_takeWeight hd).trans e⟩

/-- One turn of the merge loop, given its two Picks: the first node popped is the left child (R162). -/
theorem mergeLoop_turn {draw : Nat → Nat} {k : Nat} {q r r' : List FreqTree} {x y : FreqTree} (fuel : Nat)
    (hq : 2 ≤ q.length) (hx : pickNode (draw k) q = some (x, r)) (hy : pickNode (draw (k + 1)) r = some (y, r')) :
    mergeLoop draw (fuel + 1) k q =
      mergeLoop draw fuel (k + 2) (r' ++ [.composite (treeWeight x + treeWeight y) x y]) := by
  match q, hq with
  | a :: b :: q, _ => simp only [mergeLoop, hx, hy]

/-- A collection of two nodes or more allows two Picks in a row. -/
theorem pickNode_twice (d e : Nat) {q : List FreqTree} (hq : 2 ≤ q.length) :
    ∃ x y r r', pickNode d q = some (x, r) ∧ pickNode e r = some (y, r') := by
  obtain ⟨x, r, hx, hperm, -⟩ := pickNode_spec d (List.ne_nil_of_length_pos (Nat.zero_lt_of_lt hq))
  have hr : r ≠ [] := by
    rintro rfl
    simp [hperm.length_eq] at hq
  obtain ⟨y, r', hy, -⟩ := pickNode_spec e hr
  exact ⟨x, y, r, r', hx, hy⟩

/-- Settles O39: the three facts about the Pick and the turn of the merge loop, each a lemma above. -/
theorem pickTakesALeastNode : Obligations.PickTakesALeastNode := by
  refine ⟨fun d q hq => pickNode_spec d hq, fun q x hx hl => pickNode_reach hx hl, fun draw fuel k q hq => ?_⟩
  obtain ⟨x, y, r, r', hx, hy⟩ := pickNode_twice (draw k) (draw (k + 1)) hq
  exact ⟨x, y, r, r', hx, hy, mergeLoop_turn fuel hq hx hy⟩

end Sys2Proof.Machine
end

section
/-! Every command and every step keeps a legal state legal (10_state.md R24, R26, R28, R30). -/

namespace Sys2Proof.Machine

/-! ### What the commands outside the bit stream units can do -/

theorem csrReadBody_delivers (n : Byte) (s : State) : ∃ r, csrReadBody n s = s.deliver r := by
  unfold csrReadBody
  split <;> exact ⟨_, rfl⟩

theorem treeSerializeBody_delivers (s : State) : ∃ r, treeSerializeBody s = s.deliver r := by
  unfold treeSerializeBody
  split <;> exact ⟨_, rfl⟩

theorem treeCodeTableBody_delivers (s : State) : ∃ r, treeCodeTableBody s = s.deliver r := by
  unfold treeCodeTableBody
  split <;> exact ⟨_, rfl⟩

theorem decDecodeBody_delivers (b : List Byte) (s : State) : ∃ r, decDecodeBody b s = s.deliver r := by
  unfold decDecodeBody
  split <;> exact ⟨_, rfl⟩

/-- TREE_BUILD stores a legal tree or none and uses draws (43_tree.md R165). -/
theorem treeBuildBody_cases (p : List Byte) (s : State) :
    ∃ t k r, treeBuildBody p s = ((s.setTree t).setDraws k).deliver r ∧ s.draws ≤ k ∧
      (s.cfg.Legal → TreeInv s.cfg t) := by
  have hk := buildTree_draws Config.tieBreak s.draws (tableCounts 256 p)
  unfold treeBuildBody
  split
  · next k e => exact ⟨none, k, _, rfl, by rwa [e] at hk, fun _ => treeInv_none _⟩
  · next t k e =>
    exact ⟨some t, k, _, rfl, by rwa [e] at hk,
      fun hc => treeInv_built hc (tableCounts_length 256 p).le (congrArg Prod.fst e)⟩

/-- TREE_DESERIALIZE stores a legal tree or none (43_tree.md R170). -/
theorem treeDeserializeBody_cases (p : List Byte) (s : State) :
    ∃ t r, treeDeserializeBody p s = (s.setTree t).deliver r ∧ TreeInv s.cfg t := by
  unfold treeDeserializeBody
  split
  · exact ⟨none, _, rfl, treeInv_none _⟩
  · exact ⟨none, _, rfl, treeInv_none _⟩
  · next t rest n e => exact ⟨some t, _, rfl, treeInv_parsed e⟩

/-- ENC_ADD_CHUNK changes nothing, or counts a chunk that a live encoder has room for (44_encoder.md R202). -/
theorem encAddChunkBody_cases (chunk : List Byte) (s : State) :
    (∃ r, encAddChunkBody chunk s = s.deliver r) ∨
      (s.enc.consumed = false ∧ s.enc.total.toNat + chunk.length ≤ s.cfg.chunkCap ∧
        encAddChunkBody chunk s =
          (s.setEnc { s.enc with data := s.enc.data ++ chunk, freq := countBytes s.enc.freq chunk,
                                 total := s.enc.total + BitVec.ofNat 64 chunk.length }).respond .ok 0 []) := by
  unfold encAddChunkBody
  split
  · exact .inl ⟨_, rfl⟩
  · next hlive =>
    split
    · exact .inl ⟨_, rfl⟩
    · next hroom => exact .inr ⟨by simpa using hlive, by omega, rfl⟩

/-- ENC_ENCODE changes nothing, or spends the encoder and uses draws (44_encoder.md R203, R208). -/
theorem encEncodeBody_cases (s : State) :
    (∃ r, encEncodeBody s = s.deliver r) ∨
      ∃ k r, encEncodeBody s = ((s.setEnc Enc.spent).setDraws k).deliver r ∧ s.draws ≤ k := by
  have hk := buildTree_draws Config.tieBreak s.draws s.enc.freq.toList
  unfold encEncodeBody
  split
  · exact .inl ⟨_, rfl⟩
  · split
    · next k e => exact .inr ⟨k, _, rfl, by rwa [e] at hk⟩
    · next t k e => exact .inr ⟨k, _, rfl, by rwa [e] at hk⟩

/-! ### The bodies keep the units legal -/

theorem srcOpenBody_inv {s : State} (h : Units s) {n : Word} (h1 : 1 ≤ n.toNat) (hn : n.toNat ≤ s.cfg.srcBufCap) :
    Inv (srcOpenBody n s) := by
  have hb : BsrcInv s.cfg ⟨true, n, [], 0, 0⟩ :=
    ⟨h1, hn, Nat.zero_le _, .inr ⟨rfl, rfl⟩, fun hc => by cases hc⟩
  exact (h.setBsrc hb).respond _ _ _

theorem srcNextBitBody_inv {s : State} (h : Units s) : Inv (srcNextBitBody s) := by
  unfold srcNextBitBody
  split
  · next ho => exact nextBitEnd_inv (nextBit_leaves h ho)
  · exact h.raise _ _

theorem srcNextByteBody_inv {s : State} (h : Units s) : Inv (srcNextByteBody s) := by
  unfold srcNextByteBody
  split
  · next ho => exact nextByteFrom_inv 7 0 (nextBit_leaves h ho) le_rfl (by decide)
  · exact h.raise _ _

theorem srcTakeUnconsumedBody_inv {s : State} (h : Units s) : Inv (srcTakeUnconsumedBody s) := by
  have hb : BsrcInv s.cfg { emptied s.bsrc with isOpen := false } :=
    { emptied_inv h.bsrc with closed := fun _ => ⟨rfl, rfl, rfl⟩ }
  unfold srcTakeUnconsumedBody
  split
  · exact (h.setBsrc hb).respond _ _ _
  · exact h.raise _ _

theorem snkOpenBody_inv {s : State} (h : Units s) {n : Word} (hn : n.toNat ≤ s.cfg.snkBufCap) :
    Inv (snkOpenBody n s) := by
  unfold snkOpenBody
  split
  · next ho => exact flushFor_inv _ h ho hn
  · next hc =>
    obtain ⟨-, hnbits, hbuf⟩ := h.bsnk.closed (by simpa using hc)
    exact flushDone_inv _ 0 h hn ⟨hnbits, hbuf⟩

theorem snkWriteBitBody_inv {s : State} (h : Units s) (imm : Byte) : Inv (snkWriteBitBody imm s) := by
  unfold snkWriteBitBody
  split
  · next ho => exact writeBitEnd_inv imm (putBit_leaves h ho _)
  · exact h.raise _ _

theorem snkWriteByteBody_inv {s : State} (h : Units s) (byte : Byte) : Inv (snkWriteByteBody byte s) := by
  unfold snkWriteByteBody
  split
  · next ho => exact writeByteFrom_inv byte _ 0 (putBit_leaves h ho _) (by simp)
  · exact h.raise _ _

theorem snkFlushBody_inv {s : State} (h : Units s) : Inv (snkFlushBody s) := by
  unfold snkFlushBody
  split
  · next ho => exact flushFor_inv _ h ho trivial
  · exact h.raise _ _

theorem snkCloseBody_inv {s : State} (h : Units s) : Inv (snkCloseBody s) := by
  unfold snkCloseBody
  split
  · next ho => exact flushFor_inv _ h ho trivial
  · exact h.raise _ _

theorem snkSetThresholdBody_inv {s : State} (h : Units s) {n : Word} (hn : n.toNat ≤ s.cfg.snkBufCap) :
    Inv (snkSetThresholdBody n s) := by
  unfold snkSetThresholdBody
  split
  · exact (h.setBsnk (k := { s.bsnk with thresh := n })
      ⟨hn, h.bsnk.acc_lt, h.bsnk.buf_le, h.bsnk.closed⟩).respond _ _ _
  · exact h.raise _ _

theorem treeBuildBody_inv {s : State} (h : Units s) (p : List Byte) : Inv (treeBuildBody p s) := by
  obtain ⟨t, k, r, e, -, ht⟩ := treeBuildBody_cases p s
  rw [e]
  exact ((h.setTree (ht h.cfg)).setDraws k).deliver r

theorem treeDeserializeBody_inv {s : State} (h : Units s) (p : List Byte) : Inv (treeDeserializeBody p s) := by
  obtain ⟨t, r, e, ht⟩ := treeDeserializeBody_cases p s
  rw [e]
  exact (h.setTree ht).deliver r

theorem encAddChunkBody_inv {s : State} (h : Units s) (chunk : List Byte) : Inv (encAddChunkBody chunk s) := by
  obtain ⟨r, e⟩ | ⟨hlive, hroom, e⟩ := encAddChunkBody_cases chunk s <;> rw [e]
  · exact h.deliver r
  · exact (h.setEnc (addChunk_inv h.cfg h.enc chunk hlive hroom)).respond _ _ _

theorem encEncodeBody_inv {s : State} (h : Units s) : Inv (encEncodeBody s) := by
  obtain ⟨r, e⟩ | ⟨k, r, e, -⟩ := encEncodeBody_cases s <;> rw [e]
  · exact h.deliver r
  · exact ((h.setEnc (spent_enc_inv _)).setDraws k).deliver r

theorem Units.setCmds {s : State} (h : Units s) (ps : List Packet) : Units { s with cmds := ps } :=
  ⟨h.cfg, h.bsrc, h.bsnk, h.enc, h.tree⟩

/-- A body that only answers keeps the units. -/
theorem Units.delivers {s t : State} (h : Units s) (he : ∃ r, t = s.deliver r) : Inv t := by
  obtain ⟨r, rfl⟩ := he
  exact h.deliver r

/-- A passed check of a batch size (30_encoding.md R73). -/
theorem batch_of_argInRange {c : Config} {n : Word} (h : argInRange c .batch n = true) :
    1 ≤ n.toNat ∧ n.toNat ≤ c.srcBufCap := by
  simpa [argInRange] using h

/-- A passed check of a threshold (30_encoding.md R73). -/
theorem threshold_of_argInRange {c : Config} {n : Word} (h : argInRange c .threshold n = true) :
    n.toNat ≤ c.snkBufCap := by
  simpa [argInRange] using h

/-- Every command whose operands pass their checks leaves the units legal. -/
theorem commandBody_inv {i : Instr} {s : State} (h : Units s)
    (ho : operandError s.cfg (operandClass i) i.operands = none) : Inv (commandBody i s) := by
  obtain ⟨-, harg, -⟩ := operandError_none ho
  cases i with
  | csrRead o => exact h.delivers (csrReadBody_delivers _ s)
  | srcOpen o => exact srcOpenBody_inv h (batch_of_argInRange harg).1 (batch_of_argInRange harg).2
  | srcNextBit o => exact srcNextBitBody_inv h
  | srcNextByte o => exact srcNextByteBody_inv h
  | srcTakeUnconsumed o => exact srcTakeUnconsumedBody_inv h
  | snkOpen o => exact snkOpenBody_inv h (threshold_of_argInRange harg)
  | snkWriteBit o => exact snkWriteBitBody_inv h _
  | snkWriteByte o => exact snkWriteByteBody_inv h _
  | snkFlush o => exact snkFlushBody_inv h
  | snkSetThreshold o => exact snkSetThresholdBody_inv h (threshold_of_argInRange harg)
  | snkClose o => exact snkCloseBody_inv h
  | treeBuild o => exact treeBuildBody_inv h _
  | treeSerialize o => exact h.delivers (treeSerializeBody_delivers s)
  | treeDeserialize o => exact treeDeserializeBody_inv h _
  | treeCodeTable o => exact h.delivers (treeCodeTableBody_delivers s)
  | encNew o => exact (h.setEnc (fresh_enc_inv _)).respond _ _ _
  | encAddChunk o => exact encAddChunkBody_inv h _
  | encEncode o => exact encEncodeBody_inv h
  | decDecode o => exact h.delivers (decDecodeBody_delivers _ s)

/-! ### A step keeps a legal state legal -/

theorem exec_inv {i : Instr} {s t : State} (h : Units s) (he : exec i s = .next t) : Inv t := by
  obtain ⟨e, -, hx⟩ | ⟨ho, hx⟩ := exec_cases i s <;> cases hx.symm.trans he
  · exact h.raise _ _
  · exact commandBody_inv h ho

theorem runPacket_inv {p : Packet} {s t : State} (h : Units s) (he : s.runPacket p = .next t) : Inv t := by
  unfold State.runPacket at he
  split at he
  · exact exec_inv h he
  · cases he; exact h.raise _ _

/-- A BUSY engine's command goes on from what it keeps true while it waits. -/
theorem resume_inv {s t : State} {j : Job} (h : Inv s) (hj : s.eng = .busy j) (he : s.resume j = .next t) : Inv t := by
  obtain ⟨hu, hw⟩ := h
  rw [EngInv, hj] at hw
  cases j with
  | started p => exact runPacket_inv hu he
  | srcNextBit => cases he; exact nextBitEnd_inv (refillBit_leaves hu hw)
  | srcNextByte left v =>
    cases he
    obtain ⟨hr, hl, hv⟩ := hw
    exact nextByteFrom_inv left v (refillBit_leaves hu hr) hl hv
  | snkWriteBit bit =>
    cases he
    obtain ⟨hwr, hn⟩ := hw
    exact writeBitEnd_inv bit (putAfterWrite_leaves (portWrite_leaves hu hwr) ((portWrite_nbits s).trans hn))
  | snkWriteByte byte done =>
    cases he
    obtain ⟨hwr, hn, hd⟩ := hw
    refine writeByteFrom_inv byte _ done
      (putAfterWrite_leaves (portWrite_leaves hu hwr) ((portWrite_nbits s).trans hn)) ?_
    rw [List.length_drop, byteBits_length]; omega
  | snkFirstDrain f =>
    cases he
    obtain ⟨hwr, hf⟩ := hw
    exact flushFirstEnd_inv f (portWrite_leaves hu hwr) (by rwa [portWrite_cfg])
  | snkSecondDrain f written =>
    cases he
    obtain ⟨hwr, hn, hf⟩ := hw
    exact flushSecondEnd_inv f written (portWrite_leaves hu hwr) (by rwa [portWrite_cfg])
      ((portWrite_nbits s).trans hn)

/-- What a step of the machine is: a reset, the running command going on, nothing, or the next packet run. -/
theorem step_cases {s t : State} (h : step s = .next t) :
    (s.rst = true ∧ t = s.hardReset) ∨
      (s.rst = false ∧ ∃ j, s.eng = .busy j ∧ s.resume j = .next t) ∨
      (s.rst = false ∧ s.eng = .idle ∧ s.cmds = [] ∧ t = s) ∨
      (s.rst = false ∧ s.eng = .idle ∧ ∃ p ps, s.cmds = p :: ps ∧
        { s with cmds := ps }.runPacket p = .next t) := by
  unfold step at h
  split at h
  · next hr => cases h; exact .inl ⟨hr, rfl⟩
  · next hr =>
    rw [Bool.not_eq_true] at hr
    refine .inr ?_
    cases he : s.eng with
    | busy j => rw [he] at h; exact .inl ⟨hr, j, rfl, h⟩
    | idle =>
      cases hc : s.cmds with
      | nil => simp only [he, State.accept, hc] at h; cases h; exact .inr (.inl ⟨hr, rfl, rfl, rfl⟩)
      | cons p ps => simp only [he, State.accept, hc] at h; exact .inr (.inr ⟨hr, rfl, p, ps, rfl, h⟩)

/-- Settles O19: each of the four things a step can be keeps the state legal. -/
theorem stepKeepsLegalStates : Obligations.StepKeepsLegalStates := by
  intro s t h he
  obtain ⟨-, rfl⟩ | ⟨-, j, hj, hr⟩ | ⟨-, -, -, rfl⟩ | ⟨-, -, p, ps, -, hr⟩ := step_cases he
  · exact hardReset_inv h.units.cfg
  · exact resume_inv h hj hr
  · exact h
  · exact runPacket_inv (h.units.setCmds ps) hr

theorem reference_config_legal : Config.reference.Legal := by constructor <;> decide

/-- Settles O18: the reset state is the one a reset of it gives. -/
theorem resetIsLegal : Obligations.ResetIsLegal := hardReset_inv (s := State.reset) reference_config_legal

end Sys2Proof.Machine
end

section
/-! The engine: what a run of a command keeps, and how it ends (10_state.md R40, 30_encoding.md R75). -/

namespace Sys2Proof.Machine

open Sys2Proof.Claims

/-! ### A step of an engine that is IDLE, or has only accepted a packet -/

theorem step_idle {s : State} {p : Packet} {ps : List Packet} (hr : s.rst = false) (he : s.eng = .idle)
    (hc : s.cmds = p :: ps) : step s = { s with cmds := ps }.runPacket p := by
  simp [step, hr, he, State.accept, hc]

theorem step_busy {s : State} {j : Job} (hr : s.rst = false) (he : s.eng = .busy j) : step s = s.resume j := by
  simp [step, hr, he]

theorem step_started {s : State} {p : Packet} (hr : s.rst = false) (he : s.eng = .busy (.started p)) :
    step s = s.runPacket p := step_busy hr he

theorem start_idle {s : State} {p : Packet} {ps : List Packet} (hr : s.rst = false) (he : s.eng = .idle)
    (hc : s.cmds = p :: ps) : s.start = { s with cmds := ps }.setEng (.busy (.started p)) := by
  simp [State.start, hr, he, State.accept, hc, State.wait, State.setEng]

theorem runPacket_ok {p : Packet} {i : Instr} (s : State) (h : decode p = .ok i) : s.runPacket p = exec i s := by
  rw [State.runPacket, h]

/-- Settles O7: a step runs the packet at the head of the channel, and no command looks at the engine it is run from. -/
theorem stepRunsDecodedCommand : Obligations.StepRunsDecodedCommand := by
  refine ⟨fun s p ps i hr he hc hd => ?_, fun s p i hr he hd => ?_⟩
  · have hstep : step s = exec i { s with cmds := ps } := (step_idle hr he hc).trans (runPacket_ok _ hd)
    refine ⟨hstep, ?_⟩
    calc step s.start = step ({ s with cmds := ps }.setEng (.busy (.started p))) := by rw [start_idle hr he hc]
      _ = ({ s with cmds := ps }.setEng (.busy (.started p))).runPacket p := step_started (by exact hr) rfl
      _ = exec i { s with cmds := ps } := by rw [runPacket_ok _ hd, exec_setEng]
      _ = step s := hstep.symm
  · exact (step_started hr he).trans (runPacket_ok s hd)

/-! ### What a run of a command keeps -/

/-- What every operation inside a command keeps: the parameters, the reset input, the channel, the responses and, as
initial parts, the transactions and the draws. -/
structure Kept (s t : State) : Prop where
  cfg : t.cfg = s.cfg
  rst : t.rst = s.rst
  cmds : t.cmds = s.cmds
  resps : t.resps = s.resps
  trace : s.trace <+: t.trace
  draws : s.draws ≤ t.draws

theorem Kept.refl (s : State) : Kept s s := ⟨rfl, rfl, rfl, rfl, List.prefix_rfl, le_rfl⟩

theorem SrcMoves.kept {s t : State} (h : SrcMoves s t) : Kept s t := by
  have htr := h.trace
  obtain ⟨buf, rpos, bpos, as, es, rfl, -⟩ := h
  exact ⟨rfl, rfl, rfl, rfl, htr, le_rfl⟩

theorem SnkMoves.kept {s t : State} (h : SnkMoves s t) : Kept s t := by
  have htr := h.trace
  obtain ⟨acc, nbits, buf, as, es, rfl, -⟩ := h
  exact ⟨rfl, rfl, rfl, rfl, htr, le_rfl⟩

section Runs

variable {s t u : State}

theorem Kept.setBsrc (h : Kept s u) (b : Bsrc) : Kept s (u.setBsrc b) :=
  ⟨h.cfg, h.rst, h.cmds, h.resps, h.trace, h.draws⟩

theorem Kept.setBsnk (h : Kept s u) (k : Bsnk) : Kept s (u.setBsnk k) :=
  ⟨h.cfg, h.rst, h.cmds, h.resps, h.trace, h.draws⟩

theorem Kept.setEnc (h : Kept s u) (e : Enc) : Kept s (u.setEnc e) :=
  ⟨h.cfg, h.rst, h.cmds, h.resps, h.trace, h.draws⟩

theorem Kept.setTree (h : Kept s u) (r : Option FreqTree) : Kept s (u.setTree r) :=
  ⟨h.cfg, h.rst, h.cmds, h.resps, h.trace, h.draws⟩

theorem Kept.setDraws (h : Kept s u) {k : Nat} (hk : s.draws ≤ k) : Kept s (u.setDraws k) :=
  ⟨h.cfg, h.rst, h.cmds, h.resps, h.trace, hk⟩

/-- From `s` the command `i` (none for a packet that selects no command) ran up to `t`: it ended with one response, or
waits for a port with nothing delivered. -/
structure Runs (i : Option Instr) (s t : State) : Prop where
  cfg : t.cfg = s.cfg
  rst : t.rst = s.rst
  cmds : t.cmds = s.cmds
  trace : s.trace <+: t.trace
  draws : s.draws ≤ t.draws
  ends : (t.eng = .idle ∧ ∃ r, t.resps = s.resps ++ [r]) ∨
    ∃ j, t.eng = .busy j ∧ (readsBits j ∨ writesBits j) ∧ jobCommand j = i ∧ t.resps = s.resps

theorem Runs.resps_prefix {i : Option Instr} (h : Runs i s t) : s.resps <+: t.resps := by
  obtain ⟨-, r, e⟩ | ⟨-, -, -, -, e⟩ := h.ends
  · exact e ▸ List.prefix_append _ _
  · exact e ▸ List.prefix_rfl

variable {i : Instr}

theorem Kept.deliver (h : Kept s u) (i : Option Instr) (r : Response) : Runs i s (u.deliver r) :=
  ⟨h.cfg, h.rst, h.cmds, h.trace, h.draws, .inl ⟨rfl, r, congrArg (· ++ [r]) h.resps⟩⟩

theorem Kept.respond (h : Kept s u) (i : Option Instr) (c : Status) (w : Word) (p : List Byte) :
    Runs i s (u.respond c w p) := h.deliver i _

theorem reads_or_writes {j : Job} (h : portJob j = true) : readsBits j ∨ writesBits j := by
  cases j with
  | started p => cases h
  | srcNextBit => exact .inl trivial
  | srcNextByte left v => exact .inl trivial
  | _ => exact .inr trivial

theorem Kept.wait (h : Kept s u) {i : Option Instr} {j : Job} (hp : portJob j = true) (hj : jobCommand j = i) :
    Runs i s (u.wait j) :=
  ⟨h.cfg, h.rst, h.cmds, h.trace, h.draws, .inr ⟨j, rfl, reads_or_writes hp, hj, h.resps⟩⟩

theorem Kept.endsOrWaits (h : Kept s u) {cs : List Status} (he : EndsOrWaits i cs u t) : Runs (some i) s t := by
  obtain ⟨c, -, w, rfl⟩ | ⟨j, hp, hj, rfl⟩ := he
  · exact h.respond _ _ _ _
  · exact h.wait hp hj

theorem Kept.finalizeEnds (h : Kept s u) {f : Finalize} (he : FinalizeEnds f u t) :
    Runs (some (finalizeCommand f)) s t := by
  obtain ⟨w, rfl⟩ | ⟨w, rfl⟩ | ⟨j, hp, hj, rfl⟩ := he
  · exact (h.setBsnk _).respond _ _ _ _
  · exact h.respond _ _ _ _
  · exact h.wait hp hj

/-! ### Commands with no free operand (30_encoding.md R73, R81) -/

section Operands

variable {c : Config} {o : Operands}

/-- A passed operand check says that what the command does not use is 0, or empty. -/
theorem operandError_unused {k : OperandClass} (h : operandError c k o = none) :
    (k.imm = .unused → o.imm = 0) ∧ (k.arg = .unused → o.arg = 0) ∧
      (isLenClass k.arg = false → o.payload = []) := by
  unfold operandError at h
  repeat' split at h
  all_goals simp_all

theorem operands_ext {o o' : Operands} (himm : o.imm = o'.imm) (harg : o.arg = o'.arg) (hp : o.payload = o'.payload) :
    o = o' := by
  cases o; cases himm; cases harg; cases hp; rfl

theorem operands_eq_none (h : operandError c ⟨.unused, .unused⟩ o = none) : o = Operands.none := by
  obtain ⟨himm, harg, hp⟩ := operandError_unused h
  exact operands_ext (himm rfl) (harg rfl) (hp rfl)

theorem operands_eq_ofImm {k : ImmClass} (h : operandError c ⟨k, .unused⟩ o = none) : o = Operands.ofImm o.imm := by
  obtain ⟨-, harg, hp⟩ := operandError_unused h
  exact operands_ext rfl (harg rfl) (hp rfl)

theorem operands_eq_ofArg (h : operandError c ⟨.unused, .threshold⟩ o = none) : o = Operands.ofArg o.arg := by
  obtain ⟨himm, -, hp⟩ := operandError_unused h
  exact operands_ext (himm rfl) rfl (hp rfl)

end Operands

/-! ### The bodies -/

theorem srcNextBitBody_runs (s : State) : Runs (some (.srcNextBit Operands.none)) s (srcNextBitBody s) := by
  unfold srcNextBitBody
  split
  · exact (nextBit_moves s).kept.endsOrWaits (nextBitEnd_ends s.nextBit)
  · exact (Kept.refl s).deliver _ _

theorem srcNextByteBody_runs (s : State) : Runs (some (.srcNextByte Operands.none)) s (srcNextByteBody s) := by
  unfold srcNextByteBody
  split
  · obtain ⟨u, hu, he⟩ := nextByteFrom_ends 7 0 s.nextBit
    exact ((nextBit_moves s).trans hu).kept.endsOrWaits he
  · exact (Kept.refl s).deliver _ _

theorem srcTakeUnconsumedBody_runs (i : Option Instr) (s : State) : Runs i s (srcTakeUnconsumedBody s) := by
  unfold srcTakeUnconsumedBody
  split
  · exact ((Kept.refl s).setBsrc _).deliver _ _
  · exact (Kept.refl s).deliver _ _

theorem flushFor_runs (f : Finalize) (s : State) : Runs (some (finalizeCommand f)) s (flushFor f s) := by
  obtain ⟨u, hu, he⟩ := flushFor_ends f s
  exact hu.kept.finalizeEnds he

theorem snkOpenBody_runs (n : Word) (s : State) : Runs (some (.snkOpen (Operands.ofArg n))) s (snkOpenBody n s) := by
  unfold snkOpenBody
  split
  · exact flushFor_runs (.reopen n) s
  · exact (Kept.refl s).finalizeEnds (flushDone_ends (.reopen n) 0 s)

theorem snkWriteBitBody_runs (imm : Byte) (s : State) :
    Runs (some (.snkWriteBit (Operands.ofImm imm))) s (snkWriteBitBody imm s) := by
  unfold snkWriteBitBody
  split
  · exact (putBit_moves _ s).kept.endsOrWaits (writeBitEnd_ends imm _)
  · exact (Kept.refl s).deliver _ _

theorem snkWriteByteBody_runs (byte : Byte) (s : State) :
    Runs (some (.snkWriteByte (Operands.ofImm byte))) s (snkWriteByteBody byte s) := by
  unfold snkWriteByteBody
  split
  · obtain ⟨u, hu, he⟩ := writeByteFrom_ends byte ((byteBits byte).drop 1) 0 (s.putBit (byte.getLsbD 7))
    exact ((putBit_moves _ s).trans hu).kept.endsOrWaits he
  · exact (Kept.refl s).deliver _ _

theorem snkFlushBody_runs (s : State) : Runs (some (.snkFlush Operands.none)) s (snkFlushBody s) := by
  unfold snkFlushBody
  split
  · exact flushFor_runs .flush s
  · exact (Kept.refl s).deliver _ _

theorem snkCloseBody_runs (s : State) : Runs (some (.snkClose Operands.none)) s (snkCloseBody s) := by
  unfold snkCloseBody
  split
  · exact flushFor_runs .close s
  · exact (Kept.refl s).deliver _ _

theorem snkSetThresholdBody_runs (i : Option Instr) (n : Word) (s : State) : Runs i s (snkSetThresholdBody n s) := by
  unfold snkSetThresholdBody
  split
  · exact ((Kept.refl s).setBsnk _).deliver _ _
  · exact (Kept.refl s).deliver _ _

theorem treeBuildBody_runs (i : Option Instr) (p : List Byte) (s : State) : Runs i s (treeBuildBody p s) := by
  obtain ⟨t, k, r, e, hk, -⟩ := treeBuildBody_cases p s
  rw [e]
  exact (((Kept.refl s).setTree t).setDraws hk).deliver i r

theorem treeDeserializeBody_runs (i : Option Instr) (p : List Byte) (s : State) :
    Runs i s (treeDeserializeBody p s) := by
  obtain ⟨t, r, e, -⟩ := treeDeserializeBody_cases p s
  rw [e]
  exact ((Kept.refl s).setTree t).deliver i r

theorem encAddChunkBody_runs (i : Option Instr) (chunk : List Byte) (s : State) :
    Runs i s (encAddChunkBody chunk s) := by
  obtain ⟨r, e⟩ | ⟨-, -, e⟩ := encAddChunkBody_cases chunk s <;> rw [e]
  · exact (Kept.refl s).deliver i r
  · exact ((Kept.refl s).setEnc _).deliver i _

theorem encEncodeBody_runs (i : Option Instr) (s : State) : Runs i s (encEncodeBody s) := by
  obtain ⟨r, e⟩ | ⟨k, r, e, hk⟩ := encEncodeBody_cases s <;> rw [e]
  · exact (Kept.refl s).deliver i r
  · exact (((Kept.refl s).setEnc _).setDraws hk).deliver i r

/-- A body that only answers. -/
theorem runs_of_delivers {i : Option Instr} (he : ∃ r, t = s.deliver r) : Runs i s t := by
  obtain ⟨r, rfl⟩ := he
  exact (Kept.refl s).deliver i r

/-- Every command whose operands pass their checks ends with one response, or waits as itself. -/
theorem commandBody_runs (ho : operandError s.cfg (operandClass i) i.operands = none) :
    Runs (some i) s (commandBody i s) := by
  cases i with
  | csrRead o => exact runs_of_delivers (csrReadBody_delivers _ s)
  | srcOpen o => exact ((Kept.refl s).setBsrc _).deliver _ _
  | srcNextBit o => rw [show o = _ from operands_eq_none ho]; exact srcNextBitBody_runs s
  | srcNextByte o => rw [show o = _ from operands_eq_none ho]; exact srcNextByteBody_runs s
  | srcTakeUnconsumed o => exact srcTakeUnconsumedBody_runs _ s
  | snkOpen o => rw [show o = _ from operands_eq_ofArg ho]; exact snkOpenBody_runs _ s
  | snkWriteBit o => rw [show o = _ from operands_eq_ofImm ho]; exact snkWriteBitBody_runs _ s
  | snkWriteByte o => rw [show o = _ from operands_eq_ofImm ho]; exact snkWriteByteBody_runs _ s
  | snkFlush o => rw [show o = _ from operands_eq_none ho]; exact snkFlushBody_runs s
  | snkSetThreshold o => exact snkSetThresholdBody_runs _ _ s
  | snkClose o => rw [show o = _ from operands_eq_none ho]; exact snkCloseBody_runs s
  | treeBuild o => exact treeBuildBody_runs _ _ s
  | treeSerialize o => exact runs_of_delivers (treeSerializeBody_delivers s)
  | treeDeserialize o => exact treeDeserializeBody_runs _ _ s
  | treeCodeTable o => exact runs_of_delivers (treeCodeTableBody_delivers s)
  | encNew o => exact ((Kept.refl s).setEnc _).deliver _ _
  | encAddChunk o => exact encAddChunkBody_runs _ _ s
  | encEncode o => exact encEncodeBody_runs _ s
  | decDecode o => exact runs_of_delivers (decDecodeBody_delivers _ s)

theorem exec_runs (he : exec i s = .next t) : Runs (some i) s t := by
  obtain ⟨e, -, hx⟩ | ⟨ho, hx⟩ := exec_cases i s <;> cases hx.symm.trans he
  · exact (Kept.refl s).deliver _ _
  · exact commandBody_runs ho

/-! ### A BUSY engine -/

theorem runPacket_runs {p : Packet} (he : s.runPacket p = .next t) : Runs (decode p).toOption s t := by
  cases hd : decode p with
  | ok i => exact exec_runs ((runPacket_ok s hd).symm.trans he)
  | error e =>
    rw [State.runPacket, hd] at he
    cases he
    exact (Kept.refl s).deliver _ _

/-- A command that waits for port I goes on with moves of the source only. -/
theorem resume_reads {j : Job} (hj : readsBits j) (he : s.resume j = .next t) :
    ∃ i cs u, jobCommand j = some i ∧ SrcMoves s u ∧ EndsOrWaits i cs u t := by
  cases j with
  | srcNextBit => cases he; exact ⟨_, _, _, rfl, refillBit_moves s, nextBitEnd_ends s.refillBit⟩
  | srcNextByte left v =>
    cases he
    obtain ⟨u, hu, he⟩ := nextByteFrom_ends left v s.refillBit
    exact ⟨_, _, u, rfl, (refillBit_moves s).trans hu, he⟩
  | _ => exact hj.elim

theorem putAfterWrite_moves (s : State) : SnkMoves s (putAfterWrite s.portWrite).2 := by
  rw [putAfterWrite_state]
  exact portWrite_moves s

/-- A command that waits for port O goes on with moves of the sink, and finalizes it or not. -/
theorem resume_writes {j : Job} (hj : writesBits j) (he : s.resume j = .next t) :
    ∃ u, SnkMoves s u ∧ ((∃ i cs, jobCommand j = some i ∧ EndsOrWaits i cs u t) ∨
      ∃ f, jobCommand j = some (finalizeCommand f) ∧ FinalizeEnds f u t) := by
  cases j with
  | snkWriteBit bit =>
    cases he
    exact ⟨_, putAfterWrite_moves s, .inl ⟨_, _, rfl, writeBitEnd_ends bit _⟩⟩
  | snkWriteByte byte done =>
    cases he
    obtain ⟨u, hu, he⟩ := writeByteFrom_ends byte ((byteBits byte).drop (done + 1)) done (putAfterWrite s.portWrite)
    exact ⟨u, (putAfterWrite_moves s).trans hu, .inl ⟨_, _, rfl, he⟩⟩
  | snkFirstDrain f =>
    cases he
    obtain ⟨u, hu, he⟩ := flushFirstEnd_ends f s.portWrite
    exact ⟨u, (portWrite_moves s).trans hu, .inr ⟨f, rfl, he⟩⟩
  | snkSecondDrain f w =>
    cases he
    exact ⟨_, portWrite_moves s, .inr ⟨f, rfl, flushSecondEnd_ends f w s.portWrite⟩⟩
  | _ => exact hj.elim

theorem resume_runs {j : Job} (he : s.resume j = .next t) : Runs (jobCommand j) s t := by
  by_cases hr : readsBits j
  · obtain ⟨i, cs, u, hj, hu, hends⟩ := resume_reads hr he
    rw [hj]; exact hu.kept.endsOrWaits hends
  · by_cases hw : writesBits j
    · obtain ⟨u, hu, ⟨i, cs, hj, hends⟩ | ⟨f, hj, hends⟩⟩ := resume_writes hw he
      · rw [hj]; exact hu.kept.endsOrWaits hends
      · rw [hj]; exact hu.kept.finalizeEnds hends
    · cases j with
      | started p => exact runPacket_runs he
      | srcNextBit => exact (hr trivial).elim
      | srcNextByte left v => exact (hr trivial).elim
      | _ => exact (hw trivial).elim

/-! ### The frame of a BUSY engine's command (41_bitsource.md R100, 42_bitsink.md R130) -/

/-- Ending or waiting touches the engine and the responses only. -/
theorem EndsOrWaits.frame {cs : List Status} (h : EndsOrWaits i cs u t) :
    ∃ e rs, t = { u with eng := e, resps := rs } := by
  obtain ⟨c, -, w, rfl⟩ | ⟨j, -, -, rfl⟩ := h <;> exact ⟨_, _, rfl⟩

/-- The command `i` changes the threshold only as SNK_OPEN, and `open` only as SNK_OPEN or SNK_CLOSE. -/
def KeepsSinkSetting (i : Option Instr) (k k' : Bsnk) : Prop :=
  ((∀ o, i ≠ some (.snkOpen o)) → k'.thresh = k.thresh) ∧
    ((∀ o, i ≠ some (.snkOpen o) ∧ i ≠ some (.snkClose o)) → k'.isOpen = k.isOpen)

theorem KeepsSinkSetting.refl (i : Option Instr) (k : Bsnk) : KeepsSinkSetting i k k := ⟨fun _ => rfl, fun _ => rfl⟩

theorem finalizedSink_keeps (f : Finalize) (k : Bsnk) :
    KeepsSinkSetting (some (finalizeCommand f)) k (finalizedSink k f) := by
  cases f with
  | flush => exact .refl _ k
  | reopen n => exact ⟨fun h => (h _ rfl).elim, fun h => ((h _).1 rfl).elim⟩
  | close => exact ⟨fun _ => rfl, fun h => ((h _).2 rfl).elim⟩

theorem FinalizeEnds.frame {f : Finalize} (h : FinalizeEnds f u t) :
    ∃ e rs k, t = { u with eng := e, resps := rs, bsnk := k } ∧
      KeepsSinkSetting (some (finalizeCommand f)) u.bsnk k := by
  obtain ⟨w, rfl⟩ | ⟨w, rfl⟩ | ⟨j, -, -, rfl⟩ := h
  · exact ⟨_, _, _, rfl, finalizedSink_keeps f _⟩
  · exact ⟨_, _, _, rfl, .refl _ _⟩
  · exact ⟨_, _, _, rfl, .refl _ _⟩

/-- A command that waits for port I changes the source, port I, the engine and the responses only. -/
theorem resume_reads_frame {j : Job} (hj : readsBits j) (he : s.resume j = .next t) :
    ∃ u e rs, SrcMoves s u ∧ t = { u with eng := e, resps := rs } := by
  obtain ⟨i, cs, u, -, hu, hends⟩ := resume_reads hj he
  obtain ⟨e, rs, ht⟩ := hends.frame
  exact ⟨u, e, rs, hu, ht⟩

/-- A command that waits for port O changes the sink, port O, the engine and the responses only. -/
theorem resume_writes_frame {j : Job} (hj : writesBits j) (he : s.resume j = .next t) :
    ∃ u e rs k, SnkMoves s u ∧ t = { u with eng := e, resps := rs, bsnk := k } ∧
      KeepsSinkSetting (jobCommand j) u.bsnk k := by
  obtain ⟨u, hu, ⟨i, cs, -, hends⟩ | ⟨f, hf, hends⟩⟩ := resume_writes hj he
  · obtain ⟨e, rs, ht⟩ := hends.frame
    exact ⟨u, e, rs, u.bsnk, hu, ht, .refl _ _⟩
  · obtain ⟨e, rs, k, ht, hk⟩ := hends.frame
    exact ⟨u, e, rs, k, hu, ht, hf ▸ hk⟩

end Runs

/-! ### The statements of the engine -/

/-- Settles O12: it is how a run of a command ends. -/
theorem commandAnswersOnceOrWaits : Obligations.CommandAnswersOnceOrWaits := fun _ _ _ he => (exec_runs he).ends

/-- Settles O13: the run of the command gives the engine, its frame the rest. -/
theorem busyEngineFinishesItsCommand : Obligations.BusyEngineFinishesItsCommand := by
  intro s t j hrst hj he
  rw [step_busy hrst hj] at he
  have hrun := resume_runs he
  refine ⟨hrun.cmds, ?_, fun hr => ?_, fun hw => ?_⟩
  · obtain hidle | ⟨k, hk, -, hc, hresps⟩ := hrun.ends
    · exact .inl hidle
    · exact .inr ⟨k, hk, hc, hresps⟩
  · obtain ⟨u, e, rs, ⟨buf, rpos, bpos, as, es, rfl, hes⟩, rfl⟩ := resume_reads_frame hr he
    exact ⟨rfl, rfl, rfl, rfl, rfl, rfl, rfl, rfl, rfl, portOTaken_reads _ _ hes, rfl, rfl⟩
  · obtain ⟨u, e, rs, k, ⟨acc, nbits, buf, as, es, rfl, hes⟩, rfl, hthresh, hopen⟩ := resume_writes_frame hw he
    exact ⟨rfl, rfl, rfl, rfl, rfl, rfl, rfl, rfl, rfl, portIGiven_writes _ _ hes, hthresh, hopen⟩

/-- Settles O21: a reset keeps the history, and every run of a command extends it. -/
theorem stepExtendsHistory : Obligations.StepExtendsHistory := by
  intro s t he
  obtain ⟨-, rfl⟩ | ⟨hrst, j, -, hr⟩ | ⟨hrst, -, -, rfl⟩ | ⟨hrst, -, p, ps, -, hr⟩ := step_cases he
  · exact ⟨rfl, List.prefix_rfl, List.prefix_append _ _, le_rfl, rfl⟩
  · have h := resume_runs hr
    exact ⟨h.cfg, h.resps_prefix, h.trace, h.draws, h.rst.trans hrst⟩
  · exact ⟨rfl, List.prefix_rfl, List.prefix_rfl, le_rfl, hrst⟩
  · have h := runPacket_runs hr
    exact ⟨h.cfg, h.resps_prefix, h.trace, h.draws, h.rst.trans hrst⟩

end Sys2Proof.Machine
end

section
/-! The values of the CSRs in a legal state, as numbers (10_state.md R34 to R38). -/

namespace Sys2Proof.Machine

open Sys2Proof.Claims

/-! ### CSR_READ -/

theorem operandError_csrRead {n : Byte} {r : Csr} (c : Config) (hr : csrOfNumber n.toNat = some r) :
    operandError c (operandClass (.csrRead (Operands.ofImm n))) (Operands.ofImm n) = none := by
  simp [operandError, operandClass, Operands.ofImm, isLenClass, immInRange, argInRange, hr]

/-- CSR_READ of a number of the file answers OK with the CSR's value (46_control.md R261). -/
theorem exec_csrRead {s : State} {n : Byte} {r : Csr} {v : Nat} (hr : csrOfNumber n.toNat = some r)
    (hv : csrValue s r = BitVec.ofNat 32 v) :
    exec (.csrRead (Operands.ofImm n)) s = .next (answered s 0 (BitVec.ofNat 32 v) []) := by
  have hbody : csrReadBody n s = answered s 0 (BitVec.ofNat 32 v) [] := by
    simp only [csrReadBody, hr, hv]; rfl
  rw [exec_eq_checked, checked_ok _ (operandError_csrRead s.cfg hr), ← hbody]; rfl

/-! ### Words of bit fields -/

theorem bitField_zero (b : Bool) : bitField b 0 = BitVec.ofNat 32 (num b) := by cases b <;> rfl

/-- A flag in bit 0 and three bits above it. -/
theorem flag_or_shift (b : Bool) (p : BitVec 3) :
    bitField b 0 ||| (p.zeroExtend 32 <<< 1) = BitVec.ofNat 32 (num b + 2 * p.toNat) := by
  revert b p; decide +kernel

theorem srcStatWord_eq (b : Bsrc) : srcStatWord b = BitVec.ofNat 32 (num b.isOpen + 2 * b.bpos.toNat) :=
  flag_or_shift _ _

theorem num_le_one (b : Bool) : num b ≤ 1 := by cases b <;> decide

theorem snkStatWord_eq (k : Bsnk) :
    snkStatWord k = BitVec.ofNat 32 (num k.isOpen + 2 * k.nbits.toNat + 256 * k.acc.toNat) := by
  have hb := num_le_one k.isOpen
  have hn := k.nbits.isLt
  have ha := k.acc.isLt
  rw [snkStatWord, flag_or_shift]
  apply BitVec.eq_of_toNat_eq
  simp only [BitVec.toNat_or, BitVec.toNat_shiftLeft, BitVec.toNat_ofNat, BitVec.toNat_setWidth,
    BitVec.truncate_eq_setWidth]
  obtain ⟨low, hdef⟩ : ∃ low, low = num k.isOpen + 2 * k.nbits.toNat := ⟨_, rfl⟩
  have hlow : low < 2 ^ 8 := by omega
  rw [← hdef]
  rw [Nat.or_comm, Nat.mod_eq_of_lt (by omega : k.acc.toNat < 2 ^ 32), Nat.mod_eq_of_lt (by omega : low < 2 ^ 32),
    Nat.mod_eq_of_lt (by rw [Nat.shiftLeft_eq]; omega), ← Nat.shiftLeft_add_eq_or_of_lt hlow, Nat.shiftLeft_eq]
  omega

theorem treeStatWord_none : treeStatWord none = BitVec.ofNat 32 0 := rfl

theorem treeStatWord_leaf (b : Byte) (w : Weight) : treeStatWord (some (.leaf b w)) = BitVec.ofNat 32 3 := by
  simp [treeStatWord, isLoneLeaf, bitField]

theorem treeStatWord_composite (w : Weight) (l r : FreqTree) :
    treeStatWord (some (.composite w l r)) = BitVec.ofNat 32 1 := by
  simp [treeStatWord, isLoneLeaf, bitField]

theorem word_eq_ofNat (w : Word) : w = BitVec.ofNat 32 w.toNat := by simp

theorem extractLsb'_low {x : BitVec 64} {n : Nat} (h : x.toNat = n) :
    x.extractLsb' 0 32 = BitVec.ofNat 32 (n % 2 ^ 32) := by
  subst h; apply BitVec.eq_of_toNat_eq; simp

theorem extractLsb'_high {x : BitVec 64} {n : Nat} (h : x.toNat = n) :
    x.extractLsb' 32 32 = BitVec.ofNat 32 (n / 2 ^ 32) := by
  subst h; apply BitVec.eq_of_toNat_eq; simp [Nat.shiftRight_eq_div_pow]

/-! ### Counts -/

theorem freq_toList (f : Vector Count 256) :
    f.toList = (List.range 256).map fun n => f[(BitVec.ofNat 8 n).toNat]'(BitVec.ofNat 8 n).isLt := by
  apply List.ext_getElem
  · simp
  · intro n h1 h2
    have hn : n % 256 = n := Nat.mod_eq_of_lt (by simpa using h1)
    simp [hn]

/-- A legal encoder has a nonzero count for exactly the byte values of its data (R28, R36). -/
theorem encSyms_eq {c : Config} {e : Enc} (h : EncInv c e) :
    encSyms e = ((List.range 256).filter fun n => BitVec.ofNat 8 n ∈ e.data).length := by
  have hmem (b : Byte) : e.freq[b.toNat]'b.isLt ≠ 0 ↔ b ∈ e.data := by
    rw [← List.count_pos_iff, ← h.counts b, Nat.pos_iff_ne_zero, ne_eq, ne_eq, ← BitVec.toNat_inj]
    rfl
  rw [encSyms, freq_toList, List.countP_map, List.countP_eq_length_filter]
  congr 1
  exact List.filter_congr fun n _ => decide_eq_decide.2 (hmem _)

theorem encSyms_le (e : Enc) : encSyms e ≤ 256 := by
  have h : encSyms e ≤ e.freq.toList.length := List.countP_le_length
  simpa using h

theorem treeLeaves_le_treeNodes (t : FreqTree) : treeLeaves t ≤ treeNodes t := by
  have h1 := treeNodes_eq t
  have h2 := treeLeaves_pos t
  omega

/-- Settles O59: each CSR's value as a number; a count that fits its CSR is its result word. -/
theorem csrReadReturnsTheField : Obligations.CsrReadReturnsTheField := by
  rintro s ⟨⟨hcfg, hsrc, hsnk, henc, htree⟩, -⟩ read
  have word {n : Nat} (r : Csr) (hv : csrValue s r = resultWord n) (hn : n < 2 ^ 32) :
      csrValue s r = BitVec.ofNat 32 n := hv.trans (resultWord_of_lt hn)
  have hbuf := hsrc.buf_le.trans_lt s.bsrc.batch.isLt
  have hnodes (t : FreqTree) (ht : s.tree = some t) : treeNodes t < 2 ^ 32 :=
    (htree t ht).1.trans_lt hcfg.nodes_lt
  have hchunk : (BitVec.ofNat 64 s.cfg.chunkCap).toNat = s.cfg.chunkCap := by
    rw [BitVec.toNat_ofNat, Nat.mod_eq_of_lt hcfg.chunkCap_lt]
  refine ⟨exec_csrRead (r := .srcBatch) rfl (word_eq_ofNat _),
    exec_csrRead (r := .srcStat) rfl (srcStatWord_eq _),
    exec_csrRead (r := .srcAvail) rfl (word .srcAvail rfl ((Nat.sub_le _ _).trans_lt hbuf)),
    exec_csrRead (r := .snkThresh) rfl (word_eq_ofNat _),
    exec_csrRead (r := .snkStat) rfl (snkStatWord_eq _),
    exec_csrRead (r := .snkLevel) rfl (word .snkLevel rfl (hsnk.buf_le.trans_lt hcfg.snkBufCap_lt)),
    exec_csrRead (r := .encStat) rfl (bitField_zero _),
    exec_csrRead (r := .encTotalLo) rfl (extractLsb'_low rfl),
    exec_csrRead (r := .encTotalHi) rfl (extractLsb'_high rfl),
    exec_csrRead (r := .encSyms) rfl ?_,
    exec_csrRead (r := .treeStat) rfl ?_, exec_csrRead (r := .treeNodes) rfl ?_,
    exec_csrRead (r := .treeLeaves) rfl ?_,
    exec_csrRead (r := .capSrcBuf) rfl (word .capSrcBuf rfl hcfg.srcBufCap_lt),
    exec_csrRead (r := .capSnkBuf) rfl (word .capSnkBuf rfl hcfg.snkBufCap_lt),
    exec_csrRead (r := .capMaxNodes) rfl (word .capMaxNodes rfl hcfg.nodes_lt),
    exec_csrRead (r := .capChunkLo) rfl (extractLsb'_low hchunk),
    exec_csrRead (r := .capChunkHi) rfl (extractLsb'_high hchunk),
    exec_csrRead (r := .capCmdPayload) rfl (word .capCmdPayload rfl hcfg.payload_lt),
    exec_csrRead (r := .id) rfl rfl⟩
  · rw [← encSyms_eq henc]
    exact word .encSyms rfl ((encSyms_le _).trans_lt (by decide))
  · match ht : s.tree with
    | none => rw [csrValue, ht]; exact treeStatWord_none
    | some (.leaf b w) => rw [csrValue, ht]; exact treeStatWord_leaf b w
    | some (.composite w l r) => rw [csrValue, ht]; exact treeStatWord_composite w l r
  · cases ht : s.tree with
    | none => exact word .treeNodes (by rw [csrValue, ht]; rfl) (by decide)
    | some t => exact word .treeNodes (by rw [csrValue, ht]; rfl) (hnodes t ht)
  · cases ht : s.tree with
    | none => exact word .treeLeaves (by rw [csrValue, ht]; rfl) (by decide)
    | some t =>
      exact word .treeLeaves (by rw [csrValue, ht]; rfl) ((treeLeaves_le_treeNodes t).trans_lt (hnodes t ht))

end Sys2Proof.Machine
end

section
/-! A command that waits for a port (20_memory.md R65): without an answer it has no move, with one it makes a
transaction, and it goes on as it would have gone with the answers from the start. -/

namespace Sys2Proof.Machine

open Sys2Proof.Claims

/-! ### With no answer at hand -/

theorem refillBit_waits {s : State} (h : s.portI = []) : s.refillBit = (.waiting, s) := by
  rw [State.refillBit, refill_waits h]

/-- Waiting with the job the engine already has changes nothing. -/
theorem wait_self {s : State} {j : Job} (h : s.eng = .busy j) : s.wait j = s := by
  cases s; cases h; rfl

theorem nextByteFrom_waiting (left : Nat) (v : Byte) (s : State) :
    nextByteFrom left v (.waiting, s) = s.wait (.srcNextByte left v) := by
  cases left <;> rfl

theorem writeByteFrom_waiting (byte : Byte) (bits : List Bool) (done : Nat) (s : State) :
    writeByteFrom byte bits done (.waiting, s) = s.wait (.snkWriteByte byte done) := by
  cases bits <;> rfl

theorem resume_noAnswer {s : State} {j : Job} (hj : s.eng = .busy j) (hn : noAnswer s j) : s.resume j = .next s := by
  suffices h : s.resume j = .next (s.wait j) by rw [h, wait_self hj]
  cases j with
  | started p => exact hn.elim
  | srcNextBit => rw [State.resume, refillBit_waits hn]; rfl
  | srcNextByte left v => rw [State.resume, refillBit_waits hn, nextByteFrom_waiting]
  | snkWriteBit bit => rw [State.resume, portWrite_waits hn]; rfl
  | snkWriteByte byte done => rw [State.resume, portWrite_waits hn, putAfterWrite, writeByteFrom_waiting]
  | snkFirstDrain f => rw [State.resume, portWrite_waits hn]; rfl
  | snkSecondDrain f written => rw [State.resume, portWrite_waits hn]; rfl

/-! ### With an answer at hand: at least one transaction -/

/-- From `s` to `t` at least one port transaction was made. -/
def Transacts (s t : State) : Prop := ∃ e es, t.trace = s.trace ++ e :: es

theorem Transacts.mono {s u t : State} (h : Transacts s u) (ht : u.trace <+: t.trace) : Transacts s t := by
  obtain ⟨e, es, he⟩ := h
  obtain ⟨es', ht⟩ := ht
  exact ⟨e, es ++ es', by rw [← ht, he, List.append_assoc, List.cons_append]⟩

theorem refillBit_trace (s : State) : s.refillBit.2.trace = s.refill.2.trace := by
  unfold State.refillBit
  split
  all_goals next e => simp [e, State.takeBit]

theorem refillBit_transacts {s : State} (h : s.portI ≠ []) : Transacts s s.refillBit.2 := by
  rw [Transacts, refillBit_trace]
  exact refill_trace h

theorem portWrite_transacts {s : State} (h : s.portO ≠ []) : Transacts s s.portWrite.2.2 := by
  unfold State.portWrite
  split
  · next hp => exact absurd hp h
  · exact ⟨_, [], rfl⟩
  · exact ⟨_, [], rfl⟩

theorem putAfterWrite_transacts {s : State} (h : s.portO ≠ []) : Transacts s (putAfterWrite s.portWrite).2 := by
  rw [putAfterWrite_state]
  exact portWrite_transacts h

/-- Ending or waiting makes no transaction. -/
theorem EndsOrWaits.trace {i : Instr} {cs : List Status} {u t : State} (h : EndsOrWaits i cs u t) :
    u.trace <+: t.trace := by
  obtain ⟨e, rs, rfl⟩ := h.frame
  exact List.prefix_rfl

theorem FinalizeEnds.trace {f : Finalize} {u t : State} (h : FinalizeEnds f u t) : u.trace <+: t.trace := by
  obtain ⟨e, rs, k, rfl, -⟩ := h.frame
  exact List.prefix_rfl

theorem resume_transacts {s : State} {j : Job} (hj : readsBits j ∨ writesBits j) (ha : ¬noAnswer s j) :
    ∃ t, s.resume j = .next t ∧ Transacts s t := by
  cases j with
  | started p => exact (hj.elim id id).elim
  | srcNextBit => exact ⟨_, rfl, (refillBit_transacts ha).mono (nextBitEnd_ends _).trace⟩
  | srcNextByte left v =>
    obtain ⟨u, hu, he⟩ := nextByteFrom_ends left v s.refillBit
    exact ⟨_, rfl, (refillBit_transacts ha).mono (hu.trace.trans he.trace)⟩
  | snkWriteBit bit => exact ⟨_, rfl, (putAfterWrite_transacts ha).mono (writeBitEnd_ends bit _).trace⟩
  | snkWriteByte byte done =>
    obtain ⟨u, hu, he⟩ := writeByteFrom_ends byte ((byteBits byte).drop (done + 1)) done (putAfterWrite s.portWrite)
    exact ⟨_, rfl, (putAfterWrite_transacts ha).mono (hu.trace.trans he.trace)⟩
  | snkFirstDrain f =>
    obtain ⟨u, hu, he⟩ := flushFirstEnd_ends f s.portWrite
    exact ⟨_, rfl, (portWrite_transacts ha).mono (hu.trace.trans he.trace)⟩
  | snkSecondDrain f written =>
    exact ⟨_, rfl, (portWrite_transacts ha).mono (flushSecondEnd_ends f written _).trace⟩

/-! ### Going on with later answers -/

/-- Where `t`, with the later answers, still has a command waiting, that command goes on to `t'`. -/
def ResumesTo (as : List PortIAnswer) (bs : List PortOAnswer) (t t' : State) : Prop :=
  ∀ j, t.eng = .busy j → (t.withAnswers as bs).resume j = .next t'

section Answers

variable {as : List PortIAnswer} {bs : List PortOAnswer}

/-- An answered command has nothing to go on with. -/
theorem ResumesTo.of_idle {t t' : State} (h : t.eng = .idle) : ResumesTo as bs t t' := fun j hj => by
  rw [h] at hj; cases hj

/-- A command that waits as `j` goes on as `j`. -/
theorem ResumesTo.of_wait {u t' : State} {j : Job}
    (h : ((u.withAnswers as bs).setEng (.busy j)).resume j = .next t') : ResumesTo as bs (u.wait j) t' := fun k hk => by
  cases hk; exact h

/-! The bit source. -/

theorem nextBitEnd_resumesTo {r r' : BitEnd × State} (h : GoesOn as bs r r') :
    ResumesTo as bs (nextBitEnd r) (nextBitEnd r') := by
  obtain ⟨e, u⟩ := r
  cases e with
  | waiting =>
    obtain rfl : r' = (u.withAnswers as bs).refillBit := h
    exact .of_wait (by rw [State.resume, setEng_refillBit, setEng_nextBitEnd])
  | _ => exact .of_idle rfl

theorem nextByteFrom_waiting_resumesTo (left : Nat) (v : Byte) (u : State) :
    ResumesTo as bs (nextByteFrom left v (.waiting, u)) (nextByteFrom left v (u.withAnswers as bs).refillBit) := by
  rw [nextByteFrom_waiting]
  exact .of_wait (by rw [State.resume, setEng_refillBit, setEng_nextByteFrom])

theorem nextByteFrom_resumesTo (left : Nat) (v : Byte) {r r' : BitEnd × State} (h : GoesOn as bs r r') :
    ResumesTo as bs (nextByteFrom left v r) (nextByteFrom left v r') := by
  induction left generalizing v r r' with
  | zero =>
    obtain ⟨e, u⟩ := r
    cases e with
    | waiting =>
      obtain rfl : r' = (u.withAnswers as bs).refillBit := h
      exact nextByteFrom_waiting_resumesTo _ v u
    | _ => exact .of_idle rfl
  | succ left ih =>
    obtain ⟨e, u⟩ := r
    cases e with
    | waiting =>
      obtain rfl : r' = (u.withAnswers as bs).refillBit := h
      exact nextByteFrom_waiting_resumesTo _ v u
    | bit b =>
      obtain rfl : r' = (.bit b, u.withAnswers as bs) := h
      exact ih (shiftIn v b) (nextBit_goesOn u as bs)
    | _ => exact .of_idle rfl

/-! Writes to port O, as `GoesOn` says it of reads. -/

/-- `r` is what a write answered and `r'` what it answers with the later answers: the same when it ended, and what it
goes on to when it waited. -/
def WriteGoesOn (as : List PortIAnswer) (bs : List PortOAnswer) (r r' : WriteEnd × Nat × State) : Prop :=
  if r.1 = .waiting then r' = (r.2.2.withAnswers as bs).portWrite else r' = (r.1, r.2.1, r.2.2.withAnswers as bs)

/-- The same of what PutBit answered. -/
def PutGoesOn (as : List PortIAnswer) (bs : List PortOAnswer) (r r' : PutEnd × State) : Prop :=
  if r.1 = .waiting then r' = putAfterWrite (r.2.withAnswers as bs).portWrite else r' = (r.1, r.2.withAnswers as bs)

theorem portWrite_waiting_iff (s : State) : s.portWrite.1 = .waiting ↔ s.portO = [] := by
  unfold State.portWrite
  split <;> simp [*]

theorem portWrite_goesOn (s : State) : WriteGoesOn as bs s.portWrite (s.withAnswers as bs).portWrite := by
  by_cases h : s.portO = []
  · rw [portWrite_waits h]; rfl
  · rw [WriteGoesOn, if_neg (mt (portWrite_waiting_iff s).1 h)]
    exact portWrite_withAnswers as bs h

theorem drain_goesOn (s : State) : WriteGoesOn as bs s.drain (s.withAnswers as bs).drain := by
  unfold State.drain
  rw [withAnswers_bsnk]
  split
  · rfl
  · exact portWrite_goesOn s

theorem putAfterWrite_goesOn {r r' : WriteEnd × Nat × State} (h : WriteGoesOn as bs r r') :
    PutGoesOn as bs (putAfterWrite r) (putAfterWrite r') := by
  obtain ⟨e, n, u⟩ := r
  cases e with
  | ok => obtain rfl : r' = (.ok, n, u.withAnswers as bs) := h; rfl
  | ioErr => obtain rfl : r' = (.ioErr, n, u.withAnswers as bs) := h; rfl
  | waiting => obtain rfl : r' = (u.withAnswers as bs).portWrite := h; rfl

theorem autoDrain_goesOn (s : State) : PutGoesOn as bs s.autoDrain (s.withAnswers as bs).autoDrain := by
  unfold State.autoDrain
  rw [withAnswers_bsnk]
  split
  · exact putAfterWrite_goesOn (drain_goesOn s)
  · rfl

theorem putBit_goesOn (s : State) (b : Bool) : PutGoesOn as bs (s.putBit b) ((s.withAnswers as bs).putBit b) := by
  unfold State.putBit
  rw [withAnswers_bsnk, withAnswers_cfg]
  split
  · rfl
  · split
    · rfl
    · exact autoDrain_goesOn _

theorem writeBitEnd_resumesTo (imm : Byte) {r r' : PutEnd × State} (h : PutGoesOn as bs r r') :
    ResumesTo as bs (writeBitEnd imm r) (writeBitEnd imm r') := by
  obtain ⟨e, u⟩ := r
  cases e with
  | waiting =>
    obtain rfl : r' = putAfterWrite (u.withAnswers as bs).portWrite := h
    exact .of_wait (by rw [State.resume, setEng_portWrite, setEng_putAfterWrite, setEng_writeBitEnd])
  | _ => exact .of_idle rfl

/-- SNK_WRITE_BYTE's job finds the bits to write again from the number of bits accepted. -/
theorem writeByteFrom_waiting_resumesTo (byte : Byte) {bits : List Bool} {done : Nat} (u : State)
    (hbits : bits = (byteBits byte).drop (done + 1)) :
    ResumesTo as bs (writeByteFrom byte bits done (.waiting, u))
      (writeByteFrom byte bits done (putAfterWrite (u.withAnswers as bs).portWrite)) := by
  rw [writeByteFrom_waiting, hbits]
  exact .of_wait (by rw [State.resume, setEng_portWrite, setEng_putAfterWrite, setEng_writeByteFrom])

theorem writeByteFrom_resumesTo (byte : Byte) (bits : List Bool) {done : Nat} {r r' : PutEnd × State}
    (hbits : bits = (byteBits byte).drop (done + 1)) (h : PutGoesOn as bs r r') :
    ResumesTo as bs (writeByteFrom byte bits done r) (writeByteFrom byte bits done r') := by
  induction bits generalizing done r r' with
  | nil =>
    obtain ⟨e, u⟩ := r
    cases e with
    | waiting =>
      obtain rfl : r' = putAfterWrite (u.withAnswers as bs).portWrite := h
      exact writeByteFrom_waiting_resumesTo byte u hbits
    | _ => exact .of_idle rfl
  | cons b bits ih =>
    obtain ⟨e, u⟩ := r
    cases e with
    | waiting =>
      obtain rfl : r' = putAfterWrite (u.withAnswers as bs).portWrite := h
      exact writeByteFrom_waiting_resumesTo byte u hbits
    | accepted =>
      obtain rfl : r' = (.accepted, u.withAnswers as bs) := h
      exact ih (by rw [← List.drop_drop, ← hbits, List.drop_one, List.tail_cons]) (putBit_goesOn u b)
    | _ => exact .of_idle rfl

/-! Flush. -/

theorem flushDone_idle (f : Finalize) (w : Nat) (s : State) : (flushDone f w s).eng = .idle := by
  cases f <;> rfl

theorem flushSecondEnd_resumesTo (f : Finalize) (w : Nat) {r r' : WriteEnd × Nat × State}
    (h : WriteGoesOn as bs r r') : ResumesTo as bs (flushSecondEnd f w r) (flushSecondEnd f w r') := by
  obtain ⟨e, n, u⟩ := r
  cases e with
  | ok => exact .of_idle (flushDone_idle f _ u)
  | ioErr => exact .of_idle rfl
  | waiting =>
    obtain rfl : r' = (u.withAnswers as bs).portWrite := h
    exact .of_wait (by rw [State.resume, setEng_portWrite, setEng_flushSecondEnd])

theorem flushSecond_resumesTo (f : Finalize) (w : Nat) (s : State) :
    ResumesTo as bs (flushSecond f w s) (flushSecond f w (s.withAnswers as bs)) := by
  unfold flushSecond
  rw [withAnswers_bsnk, withAnswers_setBsnk]
  split
  · exact .of_idle (flushDone_idle f w s)
  · exact flushSecondEnd_resumesTo f w (drain_goesOn _)

theorem flushFirstEnd_resumesTo (f : Finalize) {r r' : WriteEnd × Nat × State} (h : WriteGoesOn as bs r r') :
    ResumesTo as bs (flushFirstEnd f r) (flushFirstEnd f r') := by
  obtain ⟨e, n, u⟩ := r
  cases e with
  | ok => obtain rfl : r' = (.ok, n, u.withAnswers as bs) := h; exact flushSecond_resumesTo f n u
  | ioErr => exact .of_idle rfl
  | waiting =>
    obtain rfl : r' = (u.withAnswers as bs).portWrite := h
    exact .of_wait (by rw [State.resume, setEng_portWrite, setEng_flushFirstEnd])

theorem withAnswers_padIfRoom (s : State) : (s.withAnswers as bs).padIfRoom = s.padIfRoom.withAnswers as bs := by
  unfold State.padIfRoom
  rw [withAnswers_bsnk, withAnswers_cfg, withAnswers_setBsnk]
  exact (apply_ite (fun u : State => u.withAnswers as bs) _ _ _).symm

theorem flushFor_resumesTo (f : Finalize) (s : State) :
    ResumesTo as bs (flushFor f s) (flushFor f (s.withAnswers as bs)) := by
  rw [flushFor, flushFor, withAnswers_padIfRoom]
  exact flushFirstEnd_resumesTo f (drain_goesOn _)

/-! ### Every command -/

theorem srcNextBitBody_resumesTo (s : State) :
    ResumesTo as bs (srcNextBitBody s) (srcNextBitBody (s.withAnswers as bs)) := by
  unfold srcNextBitBody
  rw [withAnswers_bsrc]
  split
  · exact nextBitEnd_resumesTo (nextBit_goesOn s as bs)
  · exact .of_idle rfl

theorem srcNextByteBody_resumesTo (s : State) :
    ResumesTo as bs (srcNextByteBody s) (srcNextByteBody (s.withAnswers as bs)) := by
  unfold srcNextByteBody
  rw [withAnswers_bsrc]
  split
  · exact nextByteFrom_resumesTo 7 0 (nextBit_goesOn s as bs)
  · exact .of_idle rfl

theorem snkWriteBitBody_resumesTo (imm : Byte) (s : State) :
    ResumesTo as bs (snkWriteBitBody imm s) (snkWriteBitBody imm (s.withAnswers as bs)) := by
  unfold snkWriteBitBody
  rw [withAnswers_bsnk]
  split
  · exact writeBitEnd_resumesTo imm (putBit_goesOn s _)
  · exact .of_idle rfl

theorem snkWriteByteBody_resumesTo (byte : Byte) (s : State) :
    ResumesTo as bs (snkWriteByteBody byte s) (snkWriteByteBody byte (s.withAnswers as bs)) := by
  unfold snkWriteByteBody
  rw [withAnswers_bsnk]
  split
  · exact writeByteFrom_resumesTo byte _ rfl (putBit_goesOn s _)
  · exact .of_idle rfl

/-- SNK_FLUSH, SNK_OPEN and SNK_CLOSE flush an open sink (R138, R140, R141). -/
theorem finalizeBody_open (f : Finalize) {s : State} (h : s.bsnk.isOpen = true) :
    commandBody (finalizeCommand f) s = flushFor f s := by
  cases f <;> exact if_pos h

/-- With a closed sink they answer at once. -/
theorem finalizeBody_closed (f : Finalize) {s : State} (h : s.bsnk.isOpen = false) :
    (commandBody (finalizeCommand f) s).eng = .idle := by
  cases f with
  | flush => simp [finalizeCommand, commandBody, snkFlushBody, h]
  | reopen n => simp [finalizeCommand, commandBody, snkOpenBody, h, flushDone_idle]
  | close => simp [finalizeCommand, commandBody, snkCloseBody, h]

theorem finalizeBody_resumesTo (f : Finalize) (s : State) :
    ResumesTo as bs (commandBody (finalizeCommand f) s) (commandBody (finalizeCommand f) (s.withAnswers as bs)) := by
  cases h : s.bsnk.isOpen with
  | false => exact .of_idle (finalizeBody_closed f h)
  | true =>
    rw [finalizeBody_open f h, finalizeBody_open f (s := s.withAnswers as bs) h]
    exact flushFor_resumesTo f s

/-- A command waits only as one of its own jobs, so only the bit stream commands have to go on. -/
theorem commandBody_resumesTo {i : Instr} {s : State}
    (ho : operandError s.cfg (operandClass i) i.operands = none) :
    ResumesTo as bs (commandBody i s) (commandBody i (s.withAnswers as bs)) := by
  intro j hj
  obtain ⟨hidle, -⟩ | ⟨k, hk, hport, hi, -⟩ := (commandBody_runs ho).ends
  · cases hidle.symm.trans hj
  cases hk.symm.trans hj
  cases j with
  | started p => exact (hport.elim id id).elim
  | srcNextBit => cases hi; exact srcNextBitBody_resumesTo s _ hj
  | srcNextByte left v => cases hi; exact srcNextByteBody_resumesTo s _ hj
  | snkWriteBit bit => cases hi; exact snkWriteBitBody_resumesTo bit s _ hj
  | snkWriteByte byte done => cases hi; exact snkWriteByteBody_resumesTo byte s _ hj
  | snkFirstDrain f => cases hi; exact finalizeBody_resumesTo f s _ hj
  | snkSecondDrain f written => cases hi; exact finalizeBody_resumesTo f s _ hj

end Answers

section Outcomes

variable {s t : State} {j : Job} (as : List PortIAnswer) (bs : List PortOAnswer)

theorem exec_goesOn {i : Instr} (he : exec i s = .next t) (hj : t.eng = .busy j) :
    (t.withAnswers as bs).resume j = exec i (s.withAnswers as bs) := by
  obtain ⟨e, -, hx⟩ | ⟨ho, hx⟩ := exec_cases i s <;> cases hx.symm.trans he
  · cases hj
  · rw [exec_eq_checked i (s.withAnswers as bs), checked_ok _ (by exact ho)]
    exact commandBody_resumesTo ho j hj

theorem runPacket_goesOn {p : Packet} (he : s.runPacket p = .next t) (hj : t.eng = .busy j) :
    (t.withAnswers as bs).resume j = (s.withAnswers as bs).runPacket p := by
  cases hd : decode p with
  | ok i =>
    rw [runPacket_ok _ hd] at he ⊢
    exact exec_goesOn as bs he hj
  | error e =>
    rw [State.runPacket, hd] at he
    cases he
    cases hj

theorem resume_goesOn {k : Job} (he : s.resume k = .next t) (hj : t.eng = .busy j) :
    (t.withAnswers as bs).resume j = (s.withAnswers as bs).resume k := by
  cases k with
  | started p => exact runPacket_goesOn as bs he hj
  | srcNextBit => cases he; exact nextBitEnd_resumesTo (refillBit_goesOn s as bs) j hj
  | srcNextByte left v => cases he; exact nextByteFrom_resumesTo left v (refillBit_goesOn s as bs) j hj
  | snkWriteBit bit =>
    cases he; exact writeBitEnd_resumesTo bit (putAfterWrite_goesOn (portWrite_goesOn s)) j hj
  | snkWriteByte byte done =>
    cases he; exact writeByteFrom_resumesTo byte _ rfl (putAfterWrite_goesOn (portWrite_goesOn s)) j hj
  | snkFirstDrain f => cases he; exact flushFirstEnd_resumesTo f (portWrite_goesOn s) j hj
  | snkSecondDrain f written => cases he; exact flushSecondEnd_resumesTo f written (portWrite_goesOn s) j hj

theorem step_withAnswers_busy (hr : t.rst = false) (hj : t.eng = .busy j) :
    step (t.withAnswers as bs) = (t.withAnswers as bs).resume j := step_busy hr hj

theorem step_goesOn (hr : s.rst = false) (he : step s = .next t) (hj : t.eng = .busy j) :
    step (t.withAnswers as bs) = step (s.withAnswers as bs) := by
  obtain ⟨hrst, -⟩ | ⟨-, k, hk, hx⟩ | ⟨-, hidle, -, rfl⟩ | ⟨-, hidle, p, ps, hc, hx⟩ := step_cases he
  · cases hr.symm.trans hrst
  · rw [step_withAnswers_busy as bs ((resume_runs hx).rst.trans hr) hj, step_withAnswers_busy as bs hr hk]
    exact resume_goesOn as bs hx hj
  · cases hidle.symm.trans hj
  · have hstep : step (s.withAnswers as bs) = ({ s with cmds := ps }.withAnswers as bs).runPacket p :=
      step_idle hr hidle hc
    rw [step_withAnswers_busy as bs ((runPacket_runs hx).rst.trans hr) hj, hstep]
    exact runPacket_goesOn as bs hx hj

end Outcomes

/-- Settles O11: no move without an answer, a transaction with one, and every operation goes on as it would have. -/
theorem waitingCommandHasNoMove : Obligations.WaitingCommandHasNoMove := by
  refine ⟨fun s j hr hj => ⟨fun hn => ?_, fun hp ha => ?_⟩, fun i s t j as bs hr he hj => ?_,
    fun s t j as bs hr he hj => step_goesOn as bs hr he hj⟩
  · rw [step_busy hr hj, resume_noAnswer hj hn]
  · obtain ⟨t, ht, e, es, htr⟩ := resume_transacts hp ha
    exact ⟨t, e, es, (step_busy hr hj).trans ht, htr⟩
  · rw [step_withAnswers_busy as bs ((exec_runs he).rst.trans hr) hj]
    exact exec_goesOn as bs he hj

end Sys2Proof.Machine
end

section
/-! Packets, commands and responses on the wire (30_encoding.md R70 to R80). -/

namespace Sys2Proof.Machine

open Sys2Proof.Claims

/-! ### Encoding and decoding -/

/-- The packet of a command decodes to it, whatever its operands (R71, R78, R84). -/
theorem decode_encode (i : Instr) : decode (encode i) = .ok i := by
  obtain ⟨hreserved, hselect⟩ := Laws.Selection.of_opcode i
  rw [decode, if_neg (not_not.2 hreserved), hselect]

/-- Settles O1: the packet is read back from its bytes, and decodes to the command. -/
theorem decodeOfEncodeIsIdentity : Obligations.DecodeOfEncodeIsIdentity := by
  intro i
  rw [encodeBytes, decodeBytes, ofBytes_bytes]
  exact decode_encode i

/-- What a packet that decodes holds: no reserved bit, and the opcode and the operands of its command (R82). -/
theorem decode_eq_ok {p : Packet} {i : Instr} (h : decode p = .ok i) :
    p.w0.extractLsb' 16 16 = 0 ∧ i.opcode = p.w0.extractLsb' 0 8 ∧
      i.operands = ⟨p.w0.extractLsb' 8 8, p.w1, p.payload⟩ := by
  unfold decode at h
  split at h
  · cases h
  · next hreserved =>
    split at h
    · next hselect => cases h; exact ⟨not_not.1 hreserved, selectCommand_some hselect⟩
    · cases h

/-- Settles O2: the fields of the packet are those of its command, and its head word is made of them. -/
theorem encodeOfDecodedPacket : Obligations.EncodeOfDecodedPacket := by
  intro p i h
  obtain ⟨hreserved, hopcode, hoperands⟩ := decode_eq_ok h
  rw [encode, hopcode, hoperands, headWord_split _ hreserved]

/-- Settles O3: eight closed packets, each decoded by evaluation. -/
theorem specWordsDecode : Obligations.SpecWordsDecode := by
  unfold Obligations.SpecWordsDecode
  decide

/-! ### Packets that select no command (R79, R80) -/

theorem decode_reserved {p : Packet} (h : p.w0.extractLsb' 16 16 ≠ 0) : decode p = .error .reservedBits := if_pos h

/-- The opcode of every command is in the map (R78). -/
theorem opcode_mem_opcodes (i : Instr) : i.opcode.toNat ∈ opcodes := by
  cases i <;> simp [Instr.opcode, opcodes]

theorem decode_unknown {p : Packet} (h : (p.w0.extractLsb' 0 8).toNat ∉ opcodes) : ∃ e, decode p = .error e := by
  cases hd : decode p with
  | error e => exact ⟨e, rfl⟩
  | ok i =>
    obtain ⟨-, hopcode, -⟩ := decode_eq_ok hd
    exact (h (hopcode ▸ opcode_mem_opcodes i)).elim

/-- An IDLE engine answers a packet that selects no command with E_ILLEGAL_CMD, whatever the reason. -/
theorem step_rejects {s : State} {p : Packet} {ps : List Packet} {e : DecodeError} (hr : s.rst = false)
    (he : s.eng = .idle) (hc : s.cmds = p :: ps) (hd : decode p = .error e) :
    step s = .next { s with cmds := ps, resps := s.resps ++ [⟨0x10, 0, []⟩] } := by
  have hreject : { s with cmds := ps }.reject e = { s with cmds := ps, resps := s.resps ++ [⟨0x10, 0, []⟩] } := by
    cases s; cases he; cases e <;> rfl
  rw [step_idle hr he hc, State.runPacket, hd, ← hreject]

/-- Settles O4: such a packet does not decode. -/
theorem reservedBitsAreIllegal : Obligations.ReservedBitsAreIllegal :=
  fun _ _ _ hr he hc hw => step_rejects hr he hc (decode_reserved hw)

/-- Settles O5: such a packet does not decode, for one reason or the other. -/
theorem unknownOpcodesAreIllegal : Obligations.UnknownOpcodesAreIllegal := by
  intro s p ps hr he hc hw
  obtain ⟨e, hd⟩ := decode_unknown hw
  exact step_rejects hr he hc hd

/-! ### Responses (R75, 20_memory.md R53) -/

/-- The little-endian bytes of a word are its bit fields, the low one first. -/
theorem leBytes_word (w : Word) :
    leBytes 4 w.toNat = [w.extractLsb' 0 8, w.extractLsb' 8 8, w.extractLsb' 16 8, w.extractLsb' 24 8] := by
  have field (k : Nat) : BitVec.ofNat 8 (w.toNat / 2 ^ k) = w.extractLsb' k 8 := by
    apply BitVec.eq_of_toNat_eq
    rw [BitVec.extractLsb'_toNat, Nat.shiftRight_eq_div_pow, BitVec.toNat_ofNat]
  rw [← field 0, ← field 8, ← field 16, ← field 24]
  simp [leBytes, Nat.div_div_eq_div_mul]

/-- A response has the wire form of a packet of its two words. -/
theorem responseOfBytes_eq (bs : List Byte) :
    responseOfBytes bs = (Packet.ofBytes bs).map fun p => ⟨p.w0, p.w1, p.payload⟩ := by
  unfold responseOfBytes Packet.ofBytes
  split <;> rfl

/-- Settles O10: the bytes of the two words, and the bytes of a packet read back. -/
theorem responseWireForm : Obligations.ResponseWireForm := by
  intro r
  refine ⟨by simp [responseBytes, leBytes_word], ?_⟩
  have hbytes : responseBytes r = Packet.bytes ⟨r.status, r.res, r.payload⟩ := rfl
  rw [responseOfBytes_eq, hbytes, ofBytes_bytes]
  rfl

end Sys2Proof.Machine
end

section
/-! The operand checks (30_encoding.md R73, R74, R81). -/

namespace Sys2Proof.Machine

open Sys2Proof.Claims

/-! ### The classes of R73 as the statements name them -/

theorem usesImm_iff (i : Instr) : usesImm i ↔ (operandClass i).imm ≠ .unused := by
  cases i <;> simp [usesImm, operandClass]

theorem usesLen_iff (i : Instr) : usesLen i ↔ isLenClass (operandClass i).arg = true := by
  cases i <;> simp [usesLen, operandClass, isLenClass]

theorem uses_arg_iff (i : Instr) : usesParam i ∨ usesLen i ↔ (operandClass i).arg ≠ .unused := by
  cases i <;> simp [usesParam, usesLen, operandClass]

theorem csrNumber_eq_false (n : Byte) :
    WellFormed.csrNumber n = false ↔ (0x0C < n.toNat ∧ n.toNat < 0x10) ∨ 0x16 < n.toNat := by
  simp only [WellFormed.csrNumber, Bool.or_eq_false_iff, Bool.and_eq_false_iff, decide_eq_false_iff_not]
  omega

/-- A value out of range is one that fails the range check of its class. -/
theorem outOfRange_iff (c : Config) (i : Instr) :
    outOfRange c i ↔ immInRange (operandClass i).imm i.operands.imm = false ∨
      argInRange c (operandClass i).arg i.operands.arg = false := by
  cases i <;>
    simp [outOfRange, operandClass, immInRange, argInRange, Instr.operands, csrOfNumber_isSome, csrNumber_eq_false]
  case srcOpen o => omega

/-! ### When a check fails -/

section Check

variable (c : Config) (k : OperandClass) (o : Operands)

/-- One of the checks of R81 that end with E_ILLEGAL_ARG fails, told from the class of the command. -/
abbrev FailsCheck : Prop :=
  (k.imm = .unused ∧ o.imm ≠ 0) ∨ (k.arg = .unused ∧ o.arg ≠ 0) ∨ (isLenClass k.arg = false ∧ o.payload ≠ []) ∨
    (isLenClass k.arg = true ∧ o.payload.length ≠ o.arg.toNat) ∨ immInRange k.imm o.imm = false ∨
    argInRange c k.arg o.arg = false

/-- The checks that share an outcome, taken together. -/
theorem operandError_eq :
    operandError c k o =
      if FailsCheck c k o then some .eIllegalArg
      else if isLenClass k.arg = true ∧ c.cmdPayloadMax < o.arg.toNat then some .eCapacity else none := by
  simp only [operandError, FailsCheck, ite_or]

variable {c k o}

/-- The operand check passes exactly when no check fails and the payload is within the capacity. -/
theorem operandError_none_iff :
    operandError c k o = none ↔ ¬FailsCheck c k o ∧ (isLenClass k.arg = true → o.arg.toNat ≤ c.cmdPayloadMax) := by
  rw [operandError_eq]
  by_cases h : FailsCheck c k o
  · rw [if_pos h]; simp [h]
  · rw [if_neg h]; simp [h]

end Check

/-- The five conditions of R81, as the statements list them, are the checks of the command's class. -/
theorem badOperand_iff (c : Config) (i : Instr) : badOperand c i ↔ FailsCheck c (operandClass i) i.operands := by
  have harg := not_congr (uses_arg_iff i)
  rw [not_or, not_not] at harg
  rw [badOperand, FailsCheck, outOfRange_iff, usesImm_iff, not_not, ← and_assoc (a := ¬usesParam i), harg,
    usesLen_iff, Bool.not_eq_true]

/-- Settles O9: the operand check answers before any change. -/
theorem operandErrorsEndTheCommand : Obligations.OperandErrorsEndTheCommand := by
  intro i s
  rw [badOperand_iff]
  have raises {e : Status} (h : operandError s.cfg (operandClass i) i.operands = some e) :
      exec i s = .next (s.raise e 0) := (exec_eq_checked i s).trans (checked_error _ h)
  refine ⟨fun h => raises (e := .eIllegalArg) ?_, fun h hlen hmax => raises (e := .eCapacity) ?_⟩
  · rw [operandError_eq, if_pos h]
  · rw [operandError_eq, if_neg h, if_pos ⟨(usesLen_iff i).1 hlen, hmax⟩]

/-- Settles O8: class by class, the checks that must pass are the table's conditions. -/
theorem operandCheckIsWellFormed : Obligations.OperandCheckIsWellFormed := by
  intro c i
  rw [operandError_none_iff]
  cases i <;>
    simp [FailsCheck, operandClass, isLenClass, immInRange, argInRange, Instr.operands, WellFormed, WellFormed.bare,
      WellFormed.immOnly, WellFormed.argOnly, WellFormed.len, csrOfNumber_isSome,
      and_assoc]
  case treeBuild o => tauto

/-! ### The length of a command (R74) -/

theorem lenClassOpcode_eq (i : Instr) : lenClassOpcode i.opcode.toNat = isLenClass (operandClass i).arg := by
  cases i <;> rfl

theorem commandLength_encode (i : Instr) :
    commandLength (encode i).w0 (encode i).w1 =
      if isLenClass (operandClass i).arg then 8 + i.operands.arg.toNat else 8 := by
  rw [← lenClassOpcode_eq, commandLength, encode, headWord_opcode]

theorem encodeBytes_length (i : Instr) : (encodeBytes i).length = 8 + i.operands.payload.length := by
  simp [encodeBytes, encode, Packet.bytes]
  omega

/-- Settles O6: the operand check ties the payload's length to ARG. -/
theorem lengthFromOpcodeAndArg : Obligations.LengthFromOpcodeAndArg := by
  intro c i hwf
  have hcheck := (operandCheckIsWellFormed c i).2 hwf
  rw [commandLength_encode, encodeBytes_length, usesLen_iff]
  cases hlen : isLenClass (operandClass i).arg with
  | true =>
    obtain ⟨-, -, hpayload⟩ := operandError_none hcheck
    simp [encode, (hpayload hlen).1]
  | false =>
    obtain ⟨-, -, hpayload⟩ := operandError_unused hcheck
    simp [hpayload hlen]

end Sys2Proof.Machine
end

section
/-! The status word and the payload of every response (30_encoding.md R75, R76; 60_exceptions.md R302). -/

namespace Sys2Proof.Machine

open Sys2Proof.Claims

/-! ### The fields of a response -/

/-- The fields of a response to the command `i` (none for a packet that selects no command): a CODE of the table, zeros
above TRUNC, TRUNC only for a DEC_DECODE that ends OK, and no payload with an error. -/
def GoodFields (i : Option Instr) (r : Response) : Prop :=
  (r.status.extractLsb' 0 8).toNat ∈ codes ∧ r.status.extractLsb' 9 23 = 0 ∧
    (r.status.getLsbD 8 = true → r.status.extractLsb' 0 8 = 0 ∧ ∃ o, i = some (.decDecode o)) ∧
    (0x10 ≤ (r.status.extractLsb' 0 8).toNat → r.payload = [])

theorem statusWord_code (c : Status) (trunc : Bool) : (statusWord c trunc).extractLsb' 0 8 = statusCode c := by
  cases c <;> cases trunc <;> rfl

theorem statusWord_trunc (c : Status) (trunc : Bool) : (statusWord c trunc).getLsbD 8 = trunc := by
  cases c <;> cases trunc <;> rfl

theorem statusWord_high (c : Status) (trunc : Bool) : (statusWord c trunc).extractLsb' 9 23 = 0 := by
  cases c <;> cases trunc <;> rfl

theorem statusCode_mem_codes (c : Status) : (statusCode c).toNat ∈ codes := by
  cases c <;> decide

section Fields

variable {i : Option Instr} {c : Status} {trunc : Bool} {w : Word} {p : List Byte}

/-- What remains to be said of a response whose status word is made of a status and TRUNC. -/
theorem goodFields_of (ht : trunc = true → c = .ok ∧ ∃ o, i = some (.decDecode o))
    (hp : 0x10 ≤ (statusCode c).toNat → p = []) : GoodFields i ⟨statusWord c trunc, w, p⟩ := by
  simp only [GoodFields, statusWord_code, statusWord_trunc, statusWord_high]
  exact ⟨statusCode_mem_codes c, trivial, fun h => ⟨congrArg statusCode (ht h).1, (ht h).2⟩, hp⟩

theorem goodFields_empty : GoodFields i ⟨statusWord c false, w, []⟩ := goodFields_of (by simp) fun _ => rfl

theorem goodFields_ok : GoodFields i ⟨statusWord .ok false, w, p⟩ := goodFields_of (by simp) (by simp [statusCode])

theorem goodFields_decoded (o : Operands) : GoodFields (some (.decDecode o)) ⟨statusWord .ok trunc, w, p⟩ :=
  goodFields_of (fun _ => ⟨rfl, o, rfl⟩) (by simp [statusCode])

end Fields

/-! ### What a run of a command delivers -/

section Delivers

variable {s t u : State} {i : Option Instr}

/-- From `s` to `t` the command `i` delivered nothing, or one response with good fields. -/
def DeliversGood (i : Option Instr) (s t : State) : Prop :=
  t.resps = s.resps ∨ ∃ r, t.resps = s.resps ++ [r] ∧ GoodFields i r

theorem DeliversGood.fields {r : Response} (h : DeliversGood i s t) (hr : t.resps = s.resps ++ [r]) :
    GoodFields i r := by
  obtain e | ⟨r', e, hgood⟩ := h
  · simp [e] at hr
  · have hrr : r' = r := by simpa using e.symm.trans hr
    exact hrr ▸ hgood

theorem delivers_good {r : Response} (hu : u.resps = s.resps) (hr : GoodFields i r) : DeliversGood i s (u.deliver r) :=
  .inr ⟨r, by rw [State.deliver_resps, hu], hr⟩

theorem raise_good (hu : u.resps = s.resps) (c : Status) (w : Word) : DeliversGood i s (u.raise c w) :=
  delivers_good hu goodFields_empty

theorem respond_ok_good (hu : u.resps = s.resps) (w : Word) (p : List Byte) : DeliversGood i s (u.respond .ok w p) :=
  delivers_good hu goodFields_ok

theorem EndsOrWaits.good {j : Instr} {cs : List Status} (h : EndsOrWaits j cs u t) (hu : u.resps = s.resps) :
    DeliversGood i s t := by
  obtain ⟨c, -, w, rfl⟩ | ⟨k, -, -, rfl⟩ := h
  · exact raise_good hu c w
  · exact .inl hu

theorem FinalizeEnds.good {f : Finalize} (h : FinalizeEnds f u t) (hu : u.resps = s.resps) : DeliversGood i s t := by
  obtain ⟨w, rfl⟩ | ⟨w, rfl⟩ | ⟨k, -, -, rfl⟩ := h
  · exact respond_ok_good (u := u.setBsnk _) hu w []
  · exact raise_good hu .eIo w
  · exact .inl hu

/-! ### The bodies -/

theorem flushFor_good (f : Finalize) (s : State) : DeliversGood i s (flushFor f s) := by
  obtain ⟨u, hu, he⟩ := flushFor_ends f s
  exact he.good hu.kept.resps

theorem srcNextBitBody_good (s : State) : DeliversGood i s (srcNextBitBody s) := by
  unfold srcNextBitBody
  split
  · exact (nextBitEnd_ends s.nextBit).good (nextBit_moves s).kept.resps
  · exact raise_good rfl _ _

theorem srcNextByteBody_good (s : State) : DeliversGood i s (srcNextByteBody s) := by
  unfold srcNextByteBody
  split
  · obtain ⟨u, hu, he⟩ := nextByteFrom_ends 7 0 s.nextBit
    exact he.good ((nextBit_moves s).trans hu).kept.resps
  · exact raise_good rfl _ _

theorem srcTakeUnconsumedBody_good (s : State) : DeliversGood i s (srcTakeUnconsumedBody s) := by
  unfold srcTakeUnconsumedBody
  split
  · exact respond_ok_good rfl _ _
  · exact raise_good rfl _ _

theorem snkOpenBody_good (n : Word) (s : State) : DeliversGood i s (snkOpenBody n s) := by
  unfold snkOpenBody
  split
  · exact flushFor_good _ s
  · exact (flushDone_ends (.reopen n) 0 s).good rfl

theorem snkWriteBitBody_good (imm : Byte) (s : State) : DeliversGood i s (snkWriteBitBody imm s) := by
  unfold snkWriteBitBody
  split
  · exact (writeBitEnd_ends imm _).good (putBit_moves _ s).kept.resps
  · exact raise_good rfl _ _

theorem snkWriteByteBody_good (byte : Byte) (s : State) : DeliversGood i s (snkWriteByteBody byte s) := by
  unfold snkWriteByteBody
  split
  · obtain ⟨u, hu, he⟩ := writeByteFrom_ends byte ((byteBits byte).drop 1) 0 (s.putBit (byte.getLsbD 7))
    exact he.good ((putBit_moves _ s).trans hu).kept.resps
  · exact raise_good rfl _ _

theorem snkFlushBody_good (s : State) : DeliversGood i s (snkFlushBody s) := by
  unfold snkFlushBody
  split
  · exact flushFor_good _ s
  · exact raise_good rfl _ _

theorem snkCloseBody_good (s : State) : DeliversGood i s (snkCloseBody s) := by
  unfold snkCloseBody
  split
  · exact flushFor_good _ s
  · exact raise_good rfl _ _

theorem snkSetThresholdBody_good (n : Word) (s : State) : DeliversGood i s (snkSetThresholdBody n s) := by
  unfold snkSetThresholdBody
  split
  · exact respond_ok_good rfl _ _
  · exact raise_good rfl _ _

theorem csrReadBody_good (n : Byte) (s : State) : DeliversGood i s (csrReadBody n s) := by
  unfold csrReadBody
  split
  · exact respond_ok_good rfl _ _
  · exact raise_good rfl _ _

theorem treeBuildBody_good (p : List Byte) (s : State) : DeliversGood i s (treeBuildBody p s) := by
  unfold treeBuildBody
  split
  · exact raise_good rfl _ _
  · exact respond_ok_good rfl _ _

theorem treeSerializeBody_good (s : State) : DeliversGood i s (treeSerializeBody s) := by
  unfold treeSerializeBody
  split
  · exact raise_good rfl _ _
  · exact respond_ok_good rfl _ _

theorem treeDeserializeBody_good (p : List Byte) (s : State) : DeliversGood i s (treeDeserializeBody p s) := by
  unfold treeDeserializeBody
  split
  · exact raise_good rfl _ _
  · exact raise_good rfl _ _
  · exact respond_ok_good rfl _ _

theorem treeCodeTableBody_good (s : State) : DeliversGood i s (treeCodeTableBody s) := by
  unfold treeCodeTableBody
  split
  · exact raise_good rfl _ _
  · exact respond_ok_good rfl _ _

theorem encAddChunkBody_good (chunk : List Byte) (s : State) : DeliversGood i s (encAddChunkBody chunk s) := by
  unfold encAddChunkBody
  split
  · exact raise_good rfl _ _
  · split
    · exact raise_good rfl _ _
    · exact respond_ok_good rfl _ _

theorem encEncodeBody_good (s : State) : DeliversGood i s (encEncodeBody s) := by
  unfold encEncodeBody
  split
  · exact raise_good rfl _ _
  · split
    · exact raise_good rfl _ _
    · exact respond_ok_good rfl _ _

theorem decDecodeBody_good (o : Operands) (b : List Byte) (s : State) :
    DeliversGood (some (.decDecode o)) s (decDecodeBody b s) := by
  unfold decDecodeBody
  split
  · exact raise_good rfl _ _
  · exact delivers_good rfl (goodFields_decoded o)

theorem commandBody_good (i : Instr) (s : State) : DeliversGood (some i) s (commandBody i s) := by
  cases i with
  | csrRead o => exact csrReadBody_good _ s
  | srcOpen o => exact respond_ok_good rfl _ _
  | srcNextBit o => exact srcNextBitBody_good s
  | srcNextByte o => exact srcNextByteBody_good s
  | srcTakeUnconsumed o => exact srcTakeUnconsumedBody_good s
  | snkOpen o => exact snkOpenBody_good _ s
  | snkWriteBit o => exact snkWriteBitBody_good _ s
  | snkWriteByte o => exact snkWriteByteBody_good _ s
  | snkFlush o => exact snkFlushBody_good s
  | snkSetThreshold o => exact snkSetThresholdBody_good _ s
  | snkClose o => exact snkCloseBody_good s
  | treeBuild o => exact treeBuildBody_good _ s
  | treeSerialize o => exact treeSerializeBody_good s
  | treeDeserialize o => exact treeDeserializeBody_good _ s
  | treeCodeTable o => exact treeCodeTableBody_good s
  | encNew o => exact respond_ok_good rfl _ _
  | encAddChunk o => exact encAddChunkBody_good _ s
  | encEncode o => exact encEncodeBody_good s
  | decDecode o => exact decDecodeBody_good o _ s

/-! ### Commands, packets and steps -/

theorem exec_good {i : Instr} (he : exec i s = .next t) : DeliversGood (some i) s t := by
  obtain ⟨e, -, hx⟩ | ⟨-, hx⟩ := exec_cases i s <;> cases hx.symm.trans he
  · exact raise_good rfl _ _
  · exact commandBody_good i s

theorem runPacket_good {p : Packet} (he : s.runPacket p = .next t) : DeliversGood (decode p).toOption s t := by
  cases hd : decode p with
  | ok i => exact exec_good ((runPacket_ok s hd).symm.trans he)
  | error e =>
    rw [State.runPacket, hd] at he
    cases he
    exact raise_good rfl _ _

theorem resume_good {j : Job} (he : s.resume j = .next t) : DeliversGood (jobCommand j) s t := by
  by_cases hr : readsBits j
  · obtain ⟨i, cs, u, -, hu, hends⟩ := resume_reads hr he
    exact hends.good hu.kept.resps
  · by_cases hw : writesBits j
    · obtain ⟨u, hu, ⟨i, cs, -, hends⟩ | ⟨f, -, hends⟩⟩ := resume_writes hw he
      · exact hends.good hu.kept.resps
      · exact hends.good hu.kept.resps
    · cases j with
      | started p => exact runPacket_good he
      | srcNextBit => exact (hr trivial).elim
      | srcNextByte left v => exact (hr trivial).elim
      | _ => exact (hw trivial).elim

theorem step_good (he : step s = .next t) : DeliversGood (current s) s t := by
  obtain ⟨-, rfl⟩ | ⟨-, j, hj, hr⟩ | ⟨-, -, -, rfl⟩ | ⟨-, hidle, p, ps, hc, hr⟩ := step_cases he
  · exact .inl rfl
  · rw [show current s = jobCommand j by rw [current, hj]]
    exact resume_good hr
  · exact .inl rfl
  · rw [show current s = (decode p).toOption by rw [current, hidle, hc]; rfl]
    exact runPacket_good (s := { s with cmds := ps }) hr

end Delivers

/-- Settles O14: every run of a command, and every step, delivers nothing or one response with good fields. -/
theorem statusWordFields : Obligations.StatusWordFields :=
  ⟨fun _ _ _ _ he hr => (exec_good he).fields hr, fun _ _ _ he hr => (step_good he).fields hr⟩

end Sys2Proof.Machine
end

section
/-! The code table, and what the encoder makes of its data (43_tree.md R171 to R173, 44_encoder.md R203 to R206,
45_decoder.md R240, R241). -/

namespace Sys2Proof.Machine

open Sys2Proof.Claims

/-! ### Operands that pass their checks -/

/-- A command without operands runs its body. -/
theorem exec_bare {i : Instr} (hk : operandClass i = ⟨.unused, .unused⟩) (ho : i.operands = Operands.none)
    (s : State) : exec i s = .next (commandBody i s) := by
  have hcheck : operandError s.cfg (operandClass i) i.operands = none := by
    rw [hk, ho]
    simp [operandError, Operands.none, isLenClass, immInRange, argInRange]
  rw [exec_eq_checked, checked_ok _ hcheck]

theorem operandError_ofPayload {c : Config} {p : List Byte} (hc : c.cmdPayloadMax < 2 ^ 32)
    (hp : p.length ≤ c.cmdPayloadMax) : operandError c ⟨.unused, .len⟩ (Operands.ofPayload p) = none := by
  have hlen : (Operands.ofPayload p).arg.toNat = p.length := Nat.mod_eq_of_lt (hp.trans_lt hc)
  rw [operandError_none_iff, FailsCheck, hlen]
  simp [Operands.ofPayload, isLenClass, immInRange, argInRange, hp]

/-! ### TREE_CODE_TABLE -/

theorem codeEntry_none {t : FreqTree} {b : Byte} (h : codeOf t b = none) : codeEntry t b = [0xFF, 0xFF] := by
  rw [codeEntry, h]; rfl

theorem codeEntry_some {t : FreqTree} {b : Byte} {c : List Bool} (h : codeOf t b = some c) (hc : c.length < 65536) :
    codeEntry t b = [BitVec.ofNat 8 (c.length % 256), BitVec.ofNat 8 (c.length / 256)] ++ pack c := by
  have hlen : (codeLength c.length).toNat = c.length := by
    rw [codeLength, if_pos hc, BitVec.toNat_ofNat, Nat.mod_eq_of_lt hc]
  have hlow : BitVec.ofNat 8 c.length = BitVec.ofNat 8 (c.length % 256) := by
    apply BitVec.eq_of_toNat_eq; simp
  rw [codeEntry, h]
  simp only [hlen, leBytes, hlow]

/-- The number of codes is the number of byte values some Leaf holds (R171). -/
theorem codedCount_eq (t : FreqTree) :
    codedCount t = ((List.range 256).filter fun n => BitVec.ofNat 8 n ∈ (treeLeafList t).map (·.1)).length := by
  rw [codedCount, allBytes, List.countP_map, List.countP_eq_length_filter]
  congr 1
  refine List.filter_congr fun n _ => ?_
  rw [Function.comp_apply, Bool.eq_iff_iff, codeOf_isSome, decide_eq_true_iff]

theorem codedCount_le (t : FreqTree) : codedCount t ≤ 256 := by
  have h : codedCount t ≤ allBytes.length := List.countP_le_length
  simpa [allBytes] using h

/-- Settles O46: the table entry by entry. -/
theorem codeTableEntries : Obligations.CodeTableEntries := by
  refine ⟨fun s u hu hshort => ?_, fun s hs => ?_, rfl⟩
  · rw [exec_bare rfl rfl, commandBody, treeCodeTableBody, hu, ← codedCount_eq,
      ← resultWord_of_lt ((codedCount_le u).trans_lt (by decide))]
    have htable : codeTable u = (List.range 256).flatMap fun n => codeEntry u (BitVec.ofNat 8 n) := by
      rw [codeTable, allBytes, List.flatMap_map]
    have hentry (n : Nat) : codeEntry u (BitVec.ofNat 8 n) =
        match codeOf u (BitVec.ofNat 8 n) with
        | none => [0xFF, 0xFF]
        | some c => [BitVec.ofNat 8 (c.length % 256), BitVec.ofNat 8 (c.length / 256)] ++ pack c := by
      cases hc : codeOf u (BitVec.ofNat 8 n) with
      | none => exact codeEntry_none hc
      | some c => exact codeEntry_some hc (hshort _ c hc)
    simp only [htable, hentry]
    rfl
  · rw [exec_bare rfl rfl, commandBody, treeCodeTableBody, hs]
    rfl

/-! ### The tree of the data's counts -/

/-- The seed of a build, written over the byte values from `b` on (R161). -/
theorem seedLeaves_map (g : Nat → Count) (b n : Nat) :
    seedLeaves b ((List.range' b n).map g) =
      (List.range' b n).filterMap fun i =>
        if g i = 0 then none else some (.leaf (BitVec.ofNat 8 i) ((g i).zeroExtend 72)) := by
  induction n generalizing b with
  | zero => rfl
  | succ n ih =>
    rw [List.range'_succ, List.map_cons, List.filterMap_cons, seedLeaves, ih]
    split <;> rfl

/-- A count of the data as a count of the table. -/
theorem count_seed {x : Count} {n : Nat} (h : x.toNat = n) :
    (x = 0 ↔ n = 0) ∧ x.zeroExtend 72 = BitVec.ofNat 72 n := by
  subst h
  exact ⟨by rw [← BitVec.toNat_inj]; rfl, by apply BitVec.eq_of_toNat_eq; simp⟩

/-- A Leaf of a nonzero count is a nonzero weight of that value. -/
theorem weight_of_count {n : Nat} (hn : n < 2 ^ 72) (w : Weight) :
    (n ≠ 0 ∧ w = BitVec.ofNat 72 n) ↔ (w.toNat = n ∧ w ≠ 0) := by
  have hw : w = BitVec.ofNat 72 n ↔ w.toNat = n := by
    rw [← BitVec.toNat_inj, BitVec.toNat_ofNat, Nat.mod_eq_of_lt hn]
  have hzero : w = 0 ↔ w.toNat = 0 := by rw [← BitVec.toNat_inj]; rfl
  rw [hw, ne_eq, ne_eq, hzero]
  omega

/-- A legal encoder builds from the Leaves of its data's counts. -/
theorem seedLeaves_freq {c : Config} {e : Enc} (h : EncInv c e) :
    seedLeaves 0 e.freq.toList = leavesOf fun b => e.data.count (BitVec.ofNat 8 b) := by
  rw [freq_toList, List.range_eq_range', seedLeaves_map, leavesOf, List.range_eq_range']
  refine List.filterMap_congr fun n _ => ?_
  obtain ⟨hzero, hweight⟩ := count_seed (h.counts (BitVec.ofNat 8 n))
  simp only [hzero, hweight]

/-- A tree that R162's merges make of the Leaves of the counts of `d`, with what every such tree is (R161). -/
structure CountsTree (d : List Byte) (t : FreqTree) : Prop where
  merges : MergesTo (leavesOf fun b => d.count (BitVec.ofNat 8 b)) t
  built : BuiltTree t
  leaves : ∀ (b : Byte) (w : Weight), (b, w) ∈ treeLeafList t ↔ w.toNat = d.count b ∧ w ≠ 0
  holds : ∀ b ∈ d, b ∈ (treeLeafList t).map (·.1)
  small : treeLeaves t ≤ 256

section Data

variable {d : List Byte} {t : FreqTree}

/-- Two to 320 tree bytes (R205, R206). -/
theorem CountsTree.treeBytes (h : CountsTree d t) :
    2 ≤ (pack (serialize t)).length ∧ (pack (serialize t)).length ≤ 320 := by
  have hlen := serialize_length t
  have hpos := treeLeaves_pos t
  have hsmall := h.small
  rw [pack_length]
  omega

theorem CountsTree.nodes (h : CountsTree d t) : treeNodes t ≤ 511 := by
  have hnodes := treeNodes_eq t
  have hsmall := h.small
  omega

/-- Whatever the draws, the build of a legal encoder's counts makes a tree of them. -/
theorem countsTree_of_build {c : Config} {e : Enc} (h : EncInv c e) {draw : Nat → Nat} {k : Nat}
    (ht : (buildTree draw k e.freq.toList).1 = some t) : CountsTree e.data t := by
  obtain ⟨hbuilt, hcount, hmem⟩ := buildTree_some (by simp) ht
  have hget (b : Byte) : e.freq.toList[b.toNat]? = some (e.freq[b.toNat]'b.isLt) := by simp [b.isLt]
  have hleaf (b : Byte) (w : Weight) :
      (b, w) ∈ treeLeafList t ↔ e.data.count b ≠ 0 ∧ w = BitVec.ofNat 72 (e.data.count b) := by
    obtain ⟨hzero, hweight⟩ := count_seed (h.counts b)
    rw [hmem, ← hweight, ne_eq, ← hzero]
    simp [hget]
  have hlt (b : Byte) : e.data.count b < 2 ^ 72 := by
    have h64 := (e.freq[b.toNat]'b.isLt).isLt
    rw [h.counts b] at h64
    omega
  refine ⟨seedLeaves_freq h ▸ mergeLoop_merges draw _ k _ ht, hbuilt,
    fun b w => (hleaf b w).trans (weight_of_count (hlt b) w), fun b hb => ?_, ?_⟩
  · exact List.mem_map.2 ⟨_, (hleaf b _).2 ⟨(List.count_pos_iff.2 hb).ne', rfl⟩, rfl⟩
  · rw [hcount]
    exact List.countP_le_length.trans (by simp)

/-- EMPTY exactly when a legal encoder has no data (R203). -/
theorem build_none_iff {c : Config} {e : Enc} (h : EncInv c e) (draw : Nat → Nat) (k : Nat) :
    (buildTree draw k e.freq.toList).1 = none ↔ e.data = [] := by
  have hcount (b : Byte) : e.freq[b.toNat]'b.isLt = 0 ↔ b ∉ e.data := by
    rw [(count_seed (h.counts b)).1, List.count_eq_zero]
  rw [buildTree_none_iff, freq_toList, List.eq_nil_iff_forall_not_mem]
  constructor
  · intro hz b hb
    refine (hcount b).1 (hz _ (List.mem_map.2 ⟨b.toNat, List.mem_range.2 b.isLt, ?_⟩)) hb
    simp
  · intro hnil x hx
    obtain ⟨n, -, rfl⟩ := List.mem_map.1 hx
    exact (hcount _).2 (hnil _)

/-! ### The compressed buffer -/

theorem symBits_eq (t : FreqTree) : symBits t = symbolBits t := by
  funext x
  cases t <;> rfl

theorem compressed_eq_buffer {total : Count} (h : total.toNat = d.length) : compressed t d total = buffer t d := by
  rw [compressed, buffer, payloadBits, symBits_eq, h]

/-- DEC_DECODE of the buffer of a tree of the data's counts gives the data back (R240). -/
theorem exec_decDecode_buffer (h : CountsTree d t) (hd : d.length < 2 ^ 64) {u : State} (hu : u.cfg.Legal)
    (hb : (buffer t d).length ≤ u.cfg.cmdPayloadMax) :
    exec (.decDecode (Operands.ofPayload (buffer t d))) u = .next (answered u 0 0 d) := by
  have htotal : (BitVec.ofNat 64 d.length).toNat = d.length := Nat.mod_eq_of_lt hd
  have hdecode : decodeBuffer u.cfg.maxNodes (buffer t d) = .bytes d 0 := by
    rw [← compressed_eq_buffer htotal]
    exact decodeBuffer_compressed _ t d _ (h.nodes.trans hu.nodes_ge) (h.treeBytes.2.trans_lt (by decide)) htotal
      h.holds
  have hbody : decDecodeBody (buffer t d) u = answered u 0 0 d := by
    rw [decDecodeBody, hdecode]; rfl
  rw [exec_eq_checked, checked_ok _ (operandError_ofPayload hu.payload_lt hb), ← hbody]
  rfl

end Data

/-! ### ENC_ENCODE -/

theorem exec_encEncode_consumed {s : State} (h : s.enc.consumed = true) :
    exec (.encEncode Operands.none) s = .next (answered s 0x13 0 []) := by
  rw [exec_bare rfl rfl, commandBody, encEncodeBody, if_pos h]; rfl

/-- A live legal encoder with data answers the buffer of a tree of the data's counts, and is spent (R203, R208). -/
theorem exec_encEncode_data {s : State} (h : EncInv s.cfg s.enc) (hl : s.enc.consumed = false)
    (hd : s.enc.data ≠ []) :
    ∃ t k, CountsTree s.enc.data t ∧
      exec (.encEncode Operands.none) s =
        .next { answered s 0 0 (buffer t s.enc.data) with enc := Enc.spent, draws := k } := by
  match hb : buildTree Config.tieBreak s.draws s.enc.freq.toList with
  | (none, k) => exact (hd ((build_none_iff h _ _).1 (congrArg Prod.fst hb))).elim
  | (some t, k) =>
    refine ⟨t, k, countsTree_of_build h (congrArg Prod.fst hb), ?_⟩
    rw [exec_bare rfl rfl, commandBody, encEncodeBody, if_neg (by simp [hl]), hb, ← compressed_eq_buffer h.total]
    rfl

/-- Without data the build is EMPTY, and the encoder is spent too (R203, R208). -/
theorem exec_encEncode_empty {s : State} (h : EncInv s.cfg s.enc) (hl : s.enc.consumed = false)
    (hd : s.enc.data = []) :
    ∃ k, exec (.encEncode Operands.none) s = .next { answered s 0x20 0 [] with enc := Enc.spent, draws := k } := by
  match hb : buildTree Config.tieBreak s.draws s.enc.freq.toList with
  | (some t, k) => cases (congrArg Prod.fst hb).symm.trans ((build_none_iff h _ _).2 hd)
  | (none, k) =>
    refine ⟨k, ?_⟩
    rw [exec_bare rfl rfl, commandBody, encEncodeBody, if_neg (by simp [hl]), hb]
    rfl

/-- A spent encoder is consumed and holds nothing (10_state.md R28). -/
theorem spent_empty : Enc.spent.consumed = true ∧ Enc.spent.data = [] ∧ Enc.spent.total = 0 ∧
    ∀ b : Byte, Enc.spent.freq[b.toNat]'b.isLt = 0 :=
  ⟨rfl, rfl, rfl, fun b => by simp [Enc.spent, Enc.fresh]⟩

/-- Settles O50: the three endings of ENC_ENCODE. -/
theorem encodeReturnsTheBuffer : Obligations.EncodeReturnsTheBuffer := by
  refine ⟨fun s h hl hd => ?_, fun s h hl hd => ?_, fun s h => exec_encEncode_consumed h, rfl⟩
  · obtain ⟨t, k, ht, hx⟩ := exec_encEncode_data h.units.enc hl hd
    exact ⟨t, k, Enc.spent, hx, ht.merges, ht.built, ht.leaves, ht.treeBytes.1, ht.treeBytes.2, spent_empty⟩
  · obtain ⟨k, hx⟩ := exec_encEncode_empty h.units.enc hl hd
    exact ⟨k, Enc.spent, hx, spent_empty⟩

theorem EncInv.data_lt {c : Config} {e : Enc} (h : EncInv c e) : e.data.length < 2 ^ 64 := h.total ▸ e.total.isLt

/-- Settles O56: the buffer is that of a tree of the data's counts, which decodes to the data. -/
theorem decodeOfEncodeIsTheData : Obligations.DecodeOfEncodeIsTheData := by
  intro s u h hu hl hd
  obtain ⟨t, k, ht, hx⟩ := exec_encEncode_data h.units.enc hl hd
  exact ⟨_, _, hx, rfl, exec_decDecode_buffer ht h.units.enc.data_lt hu⟩

/-! ### Copies of one byte (R241) -/

/-- The tree of the counts of copies of one byte is its lone Leaf. -/
theorem CountsTree.leaf_of_replicate {n : Nat} {x : Byte} {t : FreqTree} (h : CountsTree (List.replicate n x) t) :
    ∃ w, t = .leaf x w := by
  have hkey (e : Byte × Weight) (he : e ∈ treeLeafList t) : e.1 = x := by
    obtain ⟨hcount, hne⟩ := (h.leaves e.1 e.2).1 he
    by_contra hx
    rw [List.count_replicate, if_neg (by simpa using fun hc => hx hc.symm)] at hcount
    exact hne (BitVec.eq_of_toNat_eq hcount)
  have hone : treeLeaves t ≤ 1 := by
    have hkeys : (treeLeafList t).map (·.1) = List.replicate (treeLeaves t) x := by
      rw [List.eq_replicate_iff, List.length_map, treeLeafList_length]
      exact ⟨rfl, by simpa using fun b w he => hkey (b, w) he⟩
    exact List.nodup_replicate.1 (hkeys ▸ h.built.distinct)
  cases t with
  | leaf s w => exact ⟨w, by rw [show s = x from hkey (s, w) (List.mem_singleton.2 rfl)]⟩
  | composite w l r =>
    have hl := treeLeaves_pos l
    have hr := treeLeaves_pos r
    rw [treeLeaves] at hone
    omega

/-- The two bytes of a serialized Leaf (R166). -/
theorem pack_serialize_leaf (x : Byte) (w : Weight) :
    pack (serialize (.leaf x w)) = [(0x80 : Byte) ||| (x >>> 1), x <<< 7] := by
  rw [serialize]
  revert x
  decide +kernel

theorem byteOfBits_replicate_false (m : Nat) : byteOfBits (List.replicate m false) = 0 :=
  congrArg (BitVec.ofNat 8) (bitsToNat_append_false 8 m [])

theorem packBytes_replicate_false (k m : Nat) : packBytes k (List.replicate m false) = List.replicate k 0 := by
  induction k generalizing m with
  | zero => rfl
  | succ k ih =>
    rw [packBytes, List.take_replicate, List.drop_replicate, ih, byteOfBits_replicate_false, List.replicate_succ]

/-- The buffer of copies of one byte (R241). -/
theorem buffer_replicate (n : Nat) (x : Byte) (w : Weight) :
    buffer (.leaf x w) (List.replicate n x) =
      ([2, 0, 0, 0] : List Byte) ++ leBytes 8 n ++ [(0x80 : Byte) ||| (x >>> 1), x <<< 7] ++
        List.replicate ((n + 7) / 8) 0 := by
  have hbits : (List.replicate n x).flatMap (symbolBits (.leaf x w)) = List.replicate n false := by
    induction n with
    | zero => rfl
    | succ n ih => rw [List.replicate_succ, List.flatMap_cons, ih]; rfl
  have hsize : leBytes 4 (1 + 1) = [2, 0, 0, 0] := by decide
  rw [buffer, hbits, pack_serialize_leaf, List.length_cons, List.length_singleton, hsize, pack,
    packBytes_replicate_false, List.length_replicate, List.length_replicate]

/-- Settles O57: the tree is a lone Leaf, its buffer is written out above, and it decodes as every buffer does. -/
theorem oneSymbolRoundTrip : Obligations.OneSymbolRoundTrip := by
  intro s u n x h hu hl hn hdata b
  have hd : s.enc.data ≠ [] := by rw [hdata]; simpa using Nat.one_le_iff_ne_zero.1 hn
  have hlt := h.units.enc.data_lt
  obtain ⟨t, k, ht, hx⟩ := exec_encEncode_data h.units.enc hl hd
  rw [hdata] at ht hx hlt
  obtain ⟨w, rfl⟩ := ht.leaf_of_replicate
  have hb : buffer (.leaf x w) (List.replicate n x) = b := buffer_replicate n x w
  rw [← hb]
  exact ⟨⟨_, hx, rfl⟩, exec_decDecode_buffer ht hlt hu⟩

end Sys2Proof.Machine
end

section
/-! The bit source (41_bitsource.md R101 to R110). -/

namespace Sys2Proof.Machine

open Sys2Proof.Claims

/-! ### Values of bit sequences -/

/-- The value of two sequences in a row, the first the more significant. -/
theorem bitsToNat_append (pre l : List Bool) (n : Nat) :
    bitsToNat (pre.length + n) (pre ++ l) = bitsToNat pre.length pre * 2 ^ n + bitsToNat n l := by
  induction pre with
  | nil => simp [bitsToNat]
  | cons b pre ih =>
    rw [List.length_cons, Nat.add_right_comm, List.cons_append, bitsToNat_cons, bitsToNat_cons, ih, pow_add]
    ring

/-- The value with one more bit, the least significant. -/
theorem bitsToNat_succ {n : Nat} {l rest : List Bool} {b : Bool} (h : l.drop n = b :: rest) :
    bitsToNat (n + 1) l = 2 * bitsToNat n l + if b then 1 else 0 := by
  induction n generalizing l with
  | zero => rw [List.drop_zero] at h; rw [h, bitsToNat_cons]; simp [bitsToNat]
  | succ n ih =>
    cases l with
    | nil => cases h
    | cons c l =>
      rw [bitsToNat_cons, ih h, bitsToNat_cons, pow_succ]
      ring

theorem bitWord_eq_num (b : Bool) : bitWord b = BitVec.ofNat 32 (num b) := bitWord_eq b

/-! ### Taking several buffered bits (R101) -/

/-- The source after its next `n` buffered bits were taken. -/
def skipBits (n : Nat) (b : Bsrc) : Bsrc :=
  { b with rpos := b.rpos + (b.bpos.toNat + n) / 8, bpos := BitVec.ofNat 3 (b.bpos.toNat + n) }

theorem skipBits_position (n : Nat) (b : Bsrc) :
    8 * (skipBits n b).rpos + (skipBits n b).bpos.toNat = 8 * b.rpos + b.bpos.toNat + n := by
  simp only [skipBits, BitVec.toNat_ofNat]
  omega

/-- A source is told by its position in bits and what a bit read keeps. -/
theorem bsrc_ext_position {b b' : Bsrc} (hopen : b.isOpen = b'.isOpen) (hbatch : b.batch = b'.batch)
    (hbuf : b.buf = b'.buf) (hpos : 8 * b.rpos + b.bpos.toNat = 8 * b'.rpos + b'.bpos.toNat) : b = b' := by
  have hrpos : b.rpos = b'.rpos := by omega
  have hbpos : b.bpos = b'.bpos := BitVec.eq_of_toNat_eq (by omega)
  cases b; cases b'; cases hopen; cases hbatch; cases hbuf; cases hrpos; cases hbpos; rfl

theorem skipBits_zero (b : Bsrc) : skipBits 0 b = b := bsrc_ext_position rfl rfl rfl (skipBits_position 0 b)

theorem advance_position (b : Bsrc) :
    8 * (advance b).rpos + (advance b).bpos.toNat = 8 * b.rpos + b.bpos.toNat + 1 := by
  unfold advance
  split
  · next h => simp only [h]; rfl
  · next h =>
    have hne : b.bpos.toNat ≠ 7 := fun e => h (BitVec.eq_of_toNat_eq e)
    have hlt := b.bpos.isLt
    have hsucc : (b.bpos + 1).toNat = b.bpos.toNat + 1 := by simp [BitVec.toNat_add]; omega
    simp only [hsucc, Nat.add_assoc]

theorem skipBits_skipBits (n m : Nat) (b : Bsrc) : skipBits n (skipBits m b) = skipBits (m + n) b := by
  refine bsrc_ext_position rfl rfl rfl ?_
  rw [skipBits_position, skipBits_position, skipBits_position, Nat.add_assoc]

theorem advance_eq_skipBits (b : Bsrc) : advance b = skipBits 1 b := by
  refine bsrc_ext_position (advance_isOpen b) (advance_batch b) (advance_buf b) ?_
  rw [advance_position, skipBits_position]

theorem sourceBits_skipBits (n : Nat) (b : Bsrc) : sourceBits (skipBits n b) = (sourceBits b).drop n := by
  rw [sourceBits, sourceBits, skipBits_position, List.drop_drop]
  rfl

/-- SRC_NEXT_BYTE takes the buffered bits it may take and goes on from there (R108). -/
theorem nextByteFrom_buffered {n left : Nat} (x : Nat) {s : State} (hl : n ≤ left)
    (hn : n ≤ (sourceBits s.bsrc).length) :
    nextByteFrom left (BitVec.ofNat 8 x) s.nextBit =
      nextByteFrom (left - n) (BitVec.ofNat 8 (x * 2 ^ n + bitsToNat n (sourceBits s.bsrc)))
        (s.setBsrc (skipBits n s.bsrc)).nextBit := by
  induction n generalizing left x s with
  | zero => rw [skipBits_zero, pow_zero, mul_one]; rfl
  | succ n ih =>
    obtain ⟨left, rfl⟩ := Nat.exists_eq_add_of_le' (Nat.le_trans (Nat.le_add_left 1 n) hl)
    obtain ⟨hnext, hbits⟩ := nextBit_buffered (s := s) (List.length_pos_iff.1 (Nat.lt_of_lt_of_le n.succ_pos hn))
    rw [hbits, List.length_cons] at hn
    have hvalue : (2 * x + if bitAt s.bsrc then 1 else 0) * 2 ^ n + bitsToNat n (sourceBits (advance s.bsrc)) =
        x * 2 ^ (n + 1) + bitsToNat (n + 1) (sourceBits s.bsrc) := by
      rw [hbits, bitsToNat_cons, pow_succ]
      ring
    calc nextByteFrom (left + 1) (BitVec.ofNat 8 x) s.nextBit
      _ = nextByteFrom left (BitVec.ofNat 8 (2 * x + if bitAt s.bsrc then 1 else 0))
            (s.setBsrc (advance s.bsrc)).nextBit := by rw [hnext, nextByteFrom, shiftIn_ofNat]
      _ = nextByteFrom (left + 1 - (n + 1))
            (BitVec.ofNat 8 (x * 2 ^ (n + 1) + bitsToNat (n + 1) (sourceBits s.bsrc)))
            (s.setBsrc (skipBits (n + 1) s.bsrc)).nextBit := by
        rw [ih _ (Nat.le_of_succ_le_succ hl) (Nat.le_of_succ_le_succ hn), State.setBsrc_bsrc, hvalue,
          advance_eq_skipBits, skipBits_skipBits, Nat.add_comm 1 n, Nat.add_sub_add_right]
        rfl

/-- With the bits it misses in the buffer, SRC_NEXT_BYTE answers the whole byte (R108). -/
theorem nextByteFrom_whole {left x v : Nat} {s : State} (h : left < (sourceBits s.bsrc).length)
    (hv : v = x * 2 ^ (left + 1) + bitsToNat (left + 1) (sourceBits s.bsrc)) (hlt : v < 256) :
    nextByteFrom left (BitVec.ofNat 8 x) s.nextBit =
      (s.setBsrc (skipBits (left + 1) s.bsrc)).respond .ok (BitVec.ofNat 32 (8 * 256 + v)) [] := by
  have hrest := sourceBits_skipBits left s.bsrc
  have hne : sourceBits (s.setBsrc (skipBits left s.bsrc)).bsrc ≠ [] := by
    rw [State.setBsrc_bsrc, hrest, Ne, List.drop_eq_nil_iff]; omega
  obtain ⟨hnext, hbits⟩ := nextBit_buffered hne
  rw [State.setBsrc_bsrc] at hnext hbits
  have hvalue : 2 * (x * 2 ^ left + bitsToNat left (sourceBits s.bsrc)) +
      (if bitAt (skipBits left s.bsrc) then 1 else 0) = v := by
    rw [hv, bitsToNat_succ (hrest.symm.trans hbits), pow_succ]
    ring
  rw [nextByteFrom_buffered x le_rfl h.le, Nat.sub_self, hnext, nextByteFrom, shiftIn_ofNat, hvalue,
    partialByteWord_eq le_rfl hlt, advance_eq_skipBits, skipBits_skipBits]
  rfl

/-! ### SRC_OPEN and SRC_TAKE_UNCONSUMED (R106, R109) -/

theorem argInRange_batch (c : Config) (n : Word) :
    argInRange c .batch n = true ↔ 1 ≤ n.toNat ∧ n.toNat ≤ c.srcBufCap := by
  simp [argInRange]

theorem operandError_srcOpen (c : Config) (n : Word) :
    operandError c ⟨.unused, .batch⟩ (Operands.ofArg n) =
      if 1 ≤ n.toNat ∧ n.toNat ≤ c.srcBufCap then none else some .eIllegalArg := by
  have hfails : FailsCheck c ⟨.unused, .batch⟩ (Operands.ofArg n) ↔ ¬(1 ≤ n.toNat ∧ n.toNat ≤ c.srcBufCap) := by
    rw [← argInRange_batch, Bool.not_eq_true]
    simp [FailsCheck, Operands.ofArg, isLenClass, immInRange]
  rw [operandError_eq, if_congr hfails rfl rfl, ite_not]
  rfl

theorem exec_srcOpen {s : State} {n : Word} (h1 : 1 ≤ n.toNat) (hn : n.toNat ≤ s.cfg.srcBufCap) :
    exec (.srcOpen (Operands.ofArg n)) s = .next { answered s 0 0 [] with bsrc := ⟨true, n, [], 0, 0⟩ } := by
  have hcheck := (operandError_srcOpen s.cfg n).trans (if_pos ⟨h1, hn⟩)
  rw [exec_eq_checked, checked_ok _ hcheck]
  rfl

/-- Settles O22: the operand check is the range of the batch. -/
theorem srcOpenOpensAFreshSource : Obligations.SrcOpenOpensAFreshSource := by
  refine ⟨fun s n h1 hn => exec_srcOpen h1 hn, fun s n hn => ?_,
    fun n => by simp [encode, Instr.opcode, Instr.operands, Operands.ofArg]⟩
  have hcheck := (operandError_srcOpen s.cfg n).trans (if_neg (by omega))
  rw [exec_eq_checked, checked_error _ hcheck]
  rfl

theorem exec_srcTakeUnconsumed_closed {s : State} (h : s.bsrc.isOpen = false) :
    exec (.srcTakeUnconsumed Operands.none) s = .next (answered s 0x12 0 []) := by
  rw [exec_bare rfl rfl, commandBody, srcTakeUnconsumedBody, if_neg (by simp [h])]
  rfl

/-- The whole bytes not consumed begin after a partly consumed one (R109). -/
theorem unconsumed_eq (b : Bsrc) :
    unconsumed b = b.buf.drop (b.rpos + if 0 < b.bpos.toNat then 1 else 0) := by
  have hpos : b.bpos = 0 ↔ ¬0 < b.bpos.toNat := by rw [← BitVec.toNat_inj]; simp
  rw [unconsumed, if_congr hpos rfl rfl, ite_not]

/-- Settles O27: the bytes left by dropping from the buffer what is consumed. -/
theorem takeUnconsumedReturnsWholeBytes : Obligations.TakeUnconsumedReturnsWholeBytes := by
  refine ⟨?_, fun s hc => exec_srcTakeUnconsumed_closed hc, rfl⟩
  intro s ho hlen start
  have hout : unconsumed s.bsrc = s.bsrc.buf.drop start := unconsumed_eq s.bsrc
  have hres : resultWord (s.bsrc.buf.drop start).length = BitVec.ofNat 32 (s.bsrc.buf.length - start) := by
    rw [List.length_drop, resultWord_of_lt (Nat.lt_of_le_of_lt (Nat.sub_le _ _) hlen)]
  rw [exec_bare rfl rfl, commandBody, srcTakeUnconsumedBody, if_pos ho, hout]
  dsimp only
  rw [hres]
  rfl

/-! ### Bit reads of an open source from its buffer (R107, R108) -/

theorem exec_srcNextBit_open {s : State} (h : s.bsrc.isOpen = true) :
    exec (.srcNextBit Operands.none) s = .next (nextBitEnd s.nextBit) := by
  rw [exec_bare rfl rfl, commandBody, srcNextBitBody, if_pos h]

theorem exec_srcNextByte_open {s : State} (h : s.bsrc.isOpen = true) :
    exec (.srcNextByte Operands.none) s = .next (nextByteFrom 7 (BitVec.ofNat 8 0) s.nextBit) := by
  rw [exec_bare rfl rfl, commandBody, srcNextByteBody, if_pos h]
  rfl

/-- Settles O23: NextBit takes the bit at the position and moves one on. -/
theorem nextBitFromBuffer : Obligations.NextBitFromBuffer := by
  intro s ho hr
  have hbits := sourceBits_take hr
  obtain ⟨hnext, -⟩ := nextBit_buffered (s := s) (by rw [hbits]; exact List.cons_ne_nil _ _)
  rw [advance_eq_skipBits] at hbits hnext
  refine ⟨bitAt s.bsrc, (skipBits 1 s.bsrc).rpos, (skipBits 1 s.bsrc).bpos, rfl, ?_, hbits, skipBits_position 1 _⟩
  rw [exec_srcNextBit_open ho, hnext, nextBitEnd, bitWord_eq_num]
  rfl

/-- Settles O25: the whole byte stands in the buffer. -/
theorem nextByteFromBuffer : Obligations.NextByteFromBuffer := by
  intro s ho hlen
  refine ⟨(skipBits 8 s.bsrc).rpos, (skipBits 8 s.bsrc).bpos, ?_, sourceBits_skipBits 8 _⟩
  rw [exec_srcNextByte_open ho, nextByteFrom_whole hlen rfl (by simpa using bitsToNat_lt 8 _), Nat.zero_mul,
    Nat.zero_add]
  rfl

/-! ### A closed source (R110) -/

theorem exec_srcNextBit_closed {s : State} (h : s.bsrc.isOpen = false) :
    exec (.srcNextBit Operands.none) s = .next (answered s 0x12 0 []) := by
  rw [exec_bare rfl rfl, commandBody, srcNextBitBody, if_neg (by simp [h])]
  rfl

theorem exec_srcNextByte_closed {s : State} (h : s.bsrc.isOpen = false) :
    exec (.srcNextByte Operands.none) s = .next (answered s 0x12 0 []) := by
  rw [exec_bare rfl rfl, commandBody, srcNextByteBody, if_neg (by simp [h])]
  rfl

section KeepsSource

variable {s t u : State}

theorem SnkMoves.bsrc (h : SnkMoves s t) : t.bsrc = s.bsrc := by
  obtain ⟨acc, nbits, buf, as, es, rfl, -⟩ := h; rfl

theorem EndsOrWaits.bsrc {i : Instr} {cs : List Status} (h : EndsOrWaits i cs u t) : t.bsrc = u.bsrc := by
  obtain ⟨e, rs, rfl⟩ := h.frame; rfl

theorem FinalizeEnds.bsrc {f : Finalize} (h : FinalizeEnds f u t) : t.bsrc = u.bsrc := by
  obtain ⟨e, rs, k, rfl, -⟩ := h.frame; rfl

theorem bsrc_of_delivers (h : ∃ r, t = s.deliver r) : t.bsrc = s.bsrc := by
  obtain ⟨r, rfl⟩ := h; rfl

theorem flushFor_bsrc (f : Finalize) (s : State) : (flushFor f s).bsrc = s.bsrc := by
  obtain ⟨u, hu, he⟩ := flushFor_ends f s
  exact he.bsrc.trans hu.bsrc

theorem snkOpenBody_bsrc (n : Word) (s : State) : (snkOpenBody n s).bsrc = s.bsrc := by
  unfold snkOpenBody
  split
  · exact flushFor_bsrc _ s
  · exact (flushDone_ends (.reopen n) 0 s).bsrc

theorem snkWriteBitBody_bsrc (imm : Byte) (s : State) : (snkWriteBitBody imm s).bsrc = s.bsrc := by
  unfold snkWriteBitBody
  split
  · exact (writeBitEnd_ends imm _).bsrc.trans (putBit_moves _ s).bsrc
  · rfl

theorem snkWriteByteBody_bsrc (byte : Byte) (s : State) : (snkWriteByteBody byte s).bsrc = s.bsrc := by
  unfold snkWriteByteBody
  split
  · obtain ⟨u, hu, he⟩ := writeByteFrom_ends byte ((byteBits byte).drop 1) 0 (s.putBit (byte.getLsbD 7))
    exact he.bsrc.trans ((putBit_moves _ s).trans hu).bsrc
  · rfl

theorem snkFlushBody_bsrc (s : State) : (snkFlushBody s).bsrc = s.bsrc := by
  unfold snkFlushBody
  split
  · exact flushFor_bsrc _ s
  · rfl

theorem snkSetThresholdBody_bsrc (n : Word) (s : State) : (snkSetThresholdBody n s).bsrc = s.bsrc := by
  unfold snkSetThresholdBody
  split <;> rfl

theorem snkCloseBody_bsrc (s : State) : (snkCloseBody s).bsrc = s.bsrc := by
  unfold snkCloseBody
  split
  · exact flushFor_bsrc _ s
  · rfl

theorem treeBuildBody_bsrc (p : List Byte) (s : State) : (treeBuildBody p s).bsrc = s.bsrc := by
  obtain ⟨t, k, r, e, -⟩ := treeBuildBody_cases p s
  rw [e]; rfl

theorem treeDeserializeBody_bsrc (p : List Byte) (s : State) : (treeDeserializeBody p s).bsrc = s.bsrc := by
  obtain ⟨t, r, e, -⟩ := treeDeserializeBody_cases p s
  rw [e]; rfl

theorem encAddChunkBody_bsrc (chunk : List Byte) (s : State) : (encAddChunkBody chunk s).bsrc = s.bsrc := by
  obtain ⟨r, e⟩ | ⟨-, -, e⟩ := encAddChunkBody_cases chunk s <;> rw [e] <;> rfl

theorem encEncodeBody_bsrc (s : State) : (encEncodeBody s).bsrc = s.bsrc := by
  obtain ⟨r, e⟩ | ⟨k, r, e, -⟩ := encEncodeBody_cases s <;> rw [e] <;> rfl

/-- Every command but SRC_OPEN keeps a closed source as it is (R110). -/
theorem commandBody_bsrc_closed {i : Instr} (hi : ∀ o, i ≠ .srcOpen o) (hc : s.bsrc.isOpen = false) :
    (commandBody i s).bsrc = s.bsrc := by
  cases i with
  | srcOpen o => exact (hi o rfl).elim
  | srcNextBit o => rw [commandBody, srcNextBitBody, if_neg (by simp [hc])]; rfl
  | srcNextByte o => rw [commandBody, srcNextByteBody, if_neg (by simp [hc])]; rfl
  | srcTakeUnconsumed o => rw [commandBody, srcTakeUnconsumedBody, if_neg (by simp [hc])]; rfl
  | csrRead o => exact bsrc_of_delivers (csrReadBody_delivers _ s)
  | snkOpen o => exact snkOpenBody_bsrc _ s
  | snkWriteBit o => exact snkWriteBitBody_bsrc _ s
  | snkWriteByte o => exact snkWriteByteBody_bsrc _ s
  | snkFlush o => exact snkFlushBody_bsrc s
  | snkSetThreshold o => exact snkSetThresholdBody_bsrc _ s
  | snkClose o => exact snkCloseBody_bsrc s
  | treeBuild o => exact treeBuildBody_bsrc _ s
  | treeSerialize o => exact bsrc_of_delivers (treeSerializeBody_delivers s)
  | treeDeserialize o => exact treeDeserializeBody_bsrc _ s
  | treeCodeTable o => exact bsrc_of_delivers (treeCodeTableBody_delivers s)
  | encNew o => rfl
  | encAddChunk o => exact encAddChunkBody_bsrc _ s
  | encEncode o => exact encEncodeBody_bsrc s
  | decDecode o => exact bsrc_of_delivers (decDecodeBody_delivers _ s)

theorem exec_bsrc_closed {i : Instr} (hi : ∀ o, i ≠ .srcOpen o) (hc : s.bsrc.isOpen = false)
    (he : exec i s = .next t) : t.bsrc = s.bsrc := by
  obtain ⟨e, -, hx⟩ | ⟨-, hx⟩ := exec_cases i s <;> cases hx.symm.trans he
  · rfl
  · exact commandBody_bsrc_closed hi hc

end KeepsSource

/-- Settles O28: a command that keeps a closed source does not open it. -/
theorem closedSourceAnswersClosed : Obligations.ClosedSourceAnswersClosed := by
  refine ⟨fun s hc => ⟨exec_srcNextBit_closed hc, exec_srcNextByte_closed hc, exec_srcTakeUnconsumed_closed hc⟩,
    fun i s t hc he ho => ?_, fun s n _ h1 hn => exec_srcOpen h1 hn, fun s hr => ⟨s.hardReset, if_pos hr, rfl⟩⟩
  by_contra hi
  rw [exec_bsrc_closed (not_exists.1 hi) hc he, hc] at ho
  cases ho

/-! ### The frame of the SRC commands (R100) -/

/-- A bit read moves the source, and then touches the engine and the responses only. -/
theorem exec_bitRead_frame {o : Operands} {i : Instr} {s t : State} (hi : i = .srcNextBit o ∨ i = .srcNextByte o)
    (he : exec i s = .next t) : ∃ u e rs, SrcMoves s u ∧ t = { u with eng := e, resps := rs } := by
  obtain ⟨e, -, hx⟩ | ⟨-, hx⟩ := exec_cases i s <;> cases hx.symm.trans he
  · exact ⟨s, _, _, SrcMoves.refl s, rfl⟩
  · obtain rfl | rfl := hi
    · rw [commandBody, srcNextBitBody]
      split
      · obtain ⟨e, rs, ht⟩ := (nextBitEnd_ends s.nextBit).frame
        exact ⟨_, e, rs, nextBit_moves s, ht⟩
      · exact ⟨s, _, _, SrcMoves.refl s, rfl⟩
    · rw [commandBody, srcNextByteBody]
      split
      · obtain ⟨u, hu, hends⟩ := nextByteFrom_ends 7 0 s.nextBit
        obtain ⟨e, rs, ht⟩ := hends.frame
        exact ⟨u, e, rs, (nextBit_moves s).trans hu, ht⟩
      · exact ⟨s, _, _, SrcMoves.refl s, rfl⟩

/-- SRC_OPEN and SRC_TAKE_UNCONSUMED touch the source, the engine and the responses only; the second keeps `batch`. -/
theorem exec_openOrTake_frame {o : Operands} {i : Instr} {s t : State}
    (hi : i = .srcOpen o ∨ i = .srcTakeUnconsumed o) (he : exec i s = .next t) :
    ∃ b e rs, t = { s with bsrc := b, eng := e, resps := rs } ∧ (i ≠ .srcOpen o → b.batch = s.bsrc.batch) := by
  obtain ⟨e, -, hx⟩ | ⟨-, hx⟩ := exec_cases i s <;> cases hx.symm.trans he
  · exact ⟨s.bsrc, _, _, rfl, fun _ => rfl⟩
  · obtain rfl | rfl := hi
    · exact ⟨_, _, _, rfl, fun h => (h rfl).elim⟩
    · rw [commandBody, srcTakeUnconsumedBody]
      split
      · exact ⟨_, _, _, rfl, fun _ => rfl⟩
      · exact ⟨s.bsrc, _, _, rfl, fun _ => rfl⟩

/-- Settles O29: two commands write the source only, and the two bit reads move it. -/
theorem srcCommandsFrame : Obligations.SrcCommandsFrame := by
  intro o i s t hi he
  have hcase : (i = .srcOpen o ∨ i = .srcTakeUnconsumed o) ∨ (i = .srcNextBit o ∨ i = .srcNextByte o) := by tauto
  obtain hi | hi := hcase
  · obtain ⟨b, e, rs, rfl, hbatch⟩ := exec_openOrTake_frame hi he
    refine ⟨rfl, rfl, rfl, rfl, rfl, rfl, rfl, rfl, rfl, rfl, rfl, fun _ => ⟨rfl, rfl⟩, fun hr => ?_, hbatch⟩
    obtain rfl | rfl := hi <;> simp at hr
  · obtain ⟨u, e, rs, ⟨buf, rpos, bpos, as, es, rfl, hes⟩, rfl⟩ := exec_bitRead_frame hi he
    refine ⟨rfl, rfl, rfl, rfl, rfl, rfl, rfl, rfl, rfl, rfl, portOTaken_reads _ _ hes, fun hr => ?_, fun _ => rfl,
      fun _ => rfl⟩
    obtain rfl | rfl := hi <;> simp at hr

/-! ### How a refill ends (R102, R104) -/

/-- The source inside a refill that holds the bytes `l`, none of them consumed. -/
def holding (b : Bsrc) (l : List Byte) : Bsrc := { b with buf := l, rpos := 0, bpos := 0 }

/-- `s` after a refill that holds the bytes `l`, left the answers `as`, and made the transactions `es`. -/
def State.refilled (s : State) (l : List Byte) (as : List PortIAnswer) (es : List PortEvent) : State :=
  { s with bsrc := holding s.bsrc l, portI := as, trace := s.trace ++ es }

section Refill

variable {s : State} {had b l : List Byte} {chunks : List (List Byte)} {as rest : List PortIAnswer}
  (hne : ∀ c ∈ chunks, c ≠ []) (hlt : had.length + chunks.flatten.length < s.bsrc.batch.toNat)

include hne hlt

/-- A refill whose first reads are answered by `chunks` ends as the rest of its answers end it. -/
theorem refill_chunks {e : FillEnd} {es : List PortEvent} (hp : s.portI = chunks.map .bytes ++ rest)
    (hr : fill s.bsrc.batch.toNat (had ++ chunks.flatten) rest = ⟨e, l, as, es⟩) :
    (s.setBsrc (holding s.bsrc had)).refill =
      (e, s.refilled l as (readEvents (s.bsrc.batch.toNat - had.length) chunks ++ es)) := by
  have hfill := fill_chunks _ had chunks rest hne hlt
  rw [← hp, hr] at hfill
  simp only [State.refill, State.setBsrc, holding, hfill, State.refilled]

/-- No answer: the refill waits. -/
theorem refillBit_waiting (hp : s.portI = chunks.map .bytes) :
    (s.setBsrc (holding s.bsrc had)).refillBit =
      (.waiting, s.refilled (had ++ chunks.flatten) [] (readEvents (s.bsrc.batch.toNat - had.length) chunks)) := by
  rw [State.refillBit, refill_chunks hne hlt (by rw [hp, List.append_nil]) (fill_none _ _), List.append_nil]

/-- Zero bytes, and none before: end of data. -/
theorem refillBit_eod (hp : s.portI = chunks.map .bytes ++ .bytes [] :: as) (hgot : had ++ chunks.flatten = []) :
    (s.setBsrc (holding s.bsrc had)).refillBit =
      (.eod, s.refilled [] as [.read (s.bsrc.batch.toNat - (had ++ chunks.flatten).length) (.bytes [])]) := by
  have hchunks : chunks = [] :=
    List.eq_nil_iff_forall_not_mem.2 fun c hc =>
      hne c hc (List.flatten_eq_nil_iff.1 (List.append_eq_nil_iff.1 hgot).2 c hc)
  have hfill := fill_eod s.bsrc.batch.toNat (had ++ chunks.flatten) as
  rw [if_pos (List.isEmpty_iff.2 hgot)] at hfill
  rw [State.refillBit, refill_chunks hne hlt hp hfill, hgot, hchunks]
  rfl

/-- Zero bytes after some: the batch is short, and a bit is taken. -/
theorem refillBit_short (hp : s.portI = chunks.map .bytes ++ .bytes [] :: as) (hgot : had ++ chunks.flatten ≠ []) :
    (s.setBsrc (holding s.bsrc had)).refillBit =
      (s.refilled (had ++ chunks.flatten) as (readEvents (s.bsrc.batch.toNat - had.length) chunks ++
        [.read (s.bsrc.batch.toNat - (had ++ chunks.flatten).length) (.bytes [])])).takeBit := by
  have hfill := fill_eod s.bsrc.batch.toNat (had ++ chunks.flatten) as
  rw [if_neg (mt List.isEmpty_iff.1 hgot)] at hfill
  rw [State.refillBit, refill_chunks hne hlt hp hfill]

/-- The bytes missing: the batch is full, and a bit is taken. -/
theorem refillBit_full (hp : s.portI = chunks.map .bytes ++ .bytes b :: as)
    (hb : b.length = s.bsrc.batch.toNat - (had ++ chunks.flatten).length) :
    (s.setBsrc (holding s.bsrc had)).refillBit =
      (s.refilled (had ++ chunks.flatten ++ b) as (readEvents (s.bsrc.batch.toNat - had.length) chunks ++
        [.read (s.bsrc.batch.toNat - (had ++ chunks.flatten).length) (.bytes b)])).takeBit := by
  have hgot : (had ++ chunks.flatten).length < s.bsrc.batch.toNat := List.length_append.trans_lt hlt
  have hbytes : b ≠ [] := List.length_pos_iff.1 (hb ▸ Nat.sub_pos_of_lt hgot)
  have hroom : s.bsrc.batch.toNat ≤ (had ++ chunks.flatten).length + b.length := by omega
  have hfill := fill_full as hbytes hroom
  rw [← hb, List.take_length, answersAfterRead, if_pos le_rfl] at hfill
  rw [State.refillBit, refill_chunks hne hlt hp hfill, hb]

/-- An I/O error: the bytes stay. -/
theorem refillBit_ioErr (hp : s.portI = chunks.map .bytes ++ .ioErr :: as) :
    (s.setBsrc (holding s.bsrc had)).refillBit =
      (.ioErr, s.refilled (had ++ chunks.flatten) as (readEvents (s.bsrc.batch.toNat - had.length) chunks ++
        [.read (s.bsrc.batch.toNat - (had ++ chunks.flatten).length) .ioErr])) := by
  rw [State.refillBit, refill_chunks hne hlt hp (fill_ioErr _ _ _)]

end Refill

/-- A source at the start of its buffer is inside a refill that holds it. -/
theorem setBsrc_holding_self {s : State} (hr : s.bsrc.rpos = 0) (hb : s.bsrc.bpos = 0) :
    s.setBsrc (holding s.bsrc s.bsrc.buf) = s := by
  have hsource : holding s.bsrc s.bsrc.buf = s.bsrc := bsrc_ext_position rfl rfl rfl (by rw [hr, hb]; rfl)
  rw [hsource]
  rfl

/-! ### SRC_NEXT_BIT in a refill (R107) -/

/-- Begun now or gone on with, SRC_NEXT_BIT ends as its refill ends it. -/
theorem bitRun_eq {had : List Byte} {s : State} {out : Host.Outcome State Fault Refusal} (h : bitRun had s out) :
    out = .next (nextBitEnd (s.setBsrc (holding s.bsrc had)).refillBit) := by
  obtain ⟨rfl, ho, hx, rfl⟩ | ⟨rfl, hr, hj, hrpos, hbpos, rfl⟩ := h
  · rw [exec_srcNextBit_open ho, State.nextBit, if_pos (show exhausted s.bsrc = true from decide_eq_true hx)]
    rfl
  · rw [step_busy hr hj, State.resume, setBsrc_holding_self hrpos hbpos]

/-- The first bit of the bytes a refill brought (R101, R107). -/
theorem nextBitEnd_takeBit_refilled (s : State) (l : List Byte) (as : List PortIAnswer) (es : List PortEvent) :
    nextBitEnd (s.refilled l as es).takeBit =
      { answered s 0 (BitVec.ofNat 32 (num ((l.getD 0 0).getLsbD 7))) [] with
        bsrc := { s.bsrc with buf := l, rpos := 0, bpos := 1 }, portI := as, trace := s.trace ++ es } := by
  rw [State.takeBit, nextBitEnd, bitWord_eq_num]
  rfl

/-- Settles O24: the refill's five endings, each with what NextBit makes of it. -/
theorem refillEndings : Obligations.RefillEndings := by
  intro s out had chunks as b hrun hne hlt got missing reads first
  obtain rfl := bitRun_eq hrun
  refine ⟨fun hp => ?_, fun hp hgot => ?_, fun hp hgot => ?_, fun hp hb => ?_, fun hp => ?_⟩
  · rw [refillBit_waiting hne hlt hp]; rfl
  · rw [refillBit_eod hne hlt hp hgot]; rfl
  · rw [refillBit_short hne hlt hp hgot, nextBitEnd_takeBit_refilled]
  · rw [refillBit_full hne hlt hp hb, nextBitEnd_takeBit_refilled]
  · rw [refillBit_ioErr hne hlt hp]; rfl

/-! ### SRC_NEXT_BYTE across a refill (R108) -/

/-- Begun now or gone on with, SRC_NEXT_BYTE has the bits `pre` and goes on as its refill ends. -/
theorem byteRun_eq {pre : List Bool} {had : List Byte} {s : State} {out : Host.Outcome State Fault Refusal}
    (h : byteRun pre had s out) (hk : pre.length < 8) :
    out = .next (nextByteFrom (7 - pre.length) (BitVec.ofNat 8 (bitsToNat pre.length pre))
      (s.setBsrc (holding s.bsrc had)).refillBit) := by
  obtain ⟨rfl, ho, rfl, rfl⟩ | ⟨rfl, hr, hj, hrpos, hbpos, rfl⟩ := h
  · have hempty : sourceBits (s.setBsrc (skipBits (sourceBits s.bsrc).length s.bsrc)).bsrc = [] := by
      rw [State.setBsrc_bsrc, sourceBits_skipBits, List.drop_length]
    rw [exec_srcNextByte_open ho, nextByteFrom_buffered 0 (Nat.le_of_lt_succ hk) le_rfl, Nat.zero_mul, Nat.zero_add,
      nextBit_empty hempty]
    rfl
  · rw [step_busy hr hj, State.resume, setBsrc_holding_self hrpos hbpos]

section Byte

variable {pre : List Bool} (hk : pre.length < 8)

include hk

/-- The result word of a byte cut short after the bits `pre` (R108). -/
theorem partialByteWord_pre :
    partialByteWord (7 - (7 - pre.length)) (BitVec.ofNat 8 (bitsToNat pre.length pre)) =
      BitVec.ofNat 32 (pre.length * 256 + bitsToNat pre.length pre) := by
  have hlt : bitsToNat pre.length pre < 256 :=
    (bitsToNat_lt _ _).trans_le (Nat.pow_le_pow_right (n := 2) (by decide) hk.le)
  rw [Nat.sub_sub_self (Nat.le_of_lt_succ hk), partialByteWord_eq hk.le hlt]

theorem nextByteFrom_eod (s : State) :
    nextByteFrom (7 - pre.length) (BitVec.ofNat 8 (bitsToNat pre.length pre)) (.eod, s) =
      s.respond .eod (BitVec.ofNat 32 (pre.length * 256 + bitsToNat pre.length pre)) [] := by
  rw [← partialByteWord_pre hk]
  cases 7 - pre.length <;> rfl

theorem nextByteFrom_ioErr (s : State) :
    nextByteFrom (7 - pre.length) (BitVec.ofNat 8 (bitsToNat pre.length pre)) (.ioErr, s) =
      s.respond .eIo (BitVec.ofNat 32 (pre.length * 256 + bitsToNat pre.length pre)) [] := by
  rw [← partialByteWord_pre hk]
  cases 7 - pre.length <;> rfl

/-- With bytes from its refill, SRC_NEXT_BYTE takes the bits it misses from them (R108). -/
theorem nextByteFrom_takeBit_refilled (s : State) {l : List Byte} (hl : l ≠ []) (as : List PortIAnswer)
    (es : List PortEvent) :
    nextByteFrom (7 - pre.length) (BitVec.ofNat 8 (bitsToNat pre.length pre)) (s.refilled l as es).takeBit =
      { answered s 0 (BitVec.ofNat 32 (8 * 256 + bitsToNat 8 (pre ++ unpack l))) [] with
        bsrc := { s.bsrc with buf := l, rpos := (8 - pre.length) / 8, bpos := BitVec.ofNat 3 (8 - pre.length) },
        portI := as, trace := s.trace ++ es } := by
  have hbits : sourceBits (s.refilled l as es).bsrc = unpack l := rfl
  have hlen : 8 ≤ (unpack l).length := by
    have := List.length_pos_iff.2 hl
    rw [unpack_length]; omega
  have hmiss : 7 - pre.length + 1 = 8 - pre.length := by omega
  have hnext : (s.refilled l as es).takeBit = (s.refilled l as es).nextBit :=
    (nextBit_buffered (by rw [hbits]; exact List.length_pos_iff.1 (by omega))).1.symm
  have hvalue : bitsToNat 8 (pre ++ unpack l) =
      bitsToNat pre.length pre * 2 ^ (7 - pre.length + 1) +
        bitsToNat (7 - pre.length + 1) (sourceBits (s.refilled l as es).bsrc) := by
    rw [hbits, ← bitsToNat_append, hmiss, Nat.add_sub_cancel' hk.le]
  have hskip : skipBits (8 - pre.length) (holding s.bsrc l) =
      { s.bsrc with buf := l, rpos := (8 - pre.length) / 8, bpos := BitVec.ofNat 3 (8 - pre.length) } := by
    simp [skipBits, holding]
  rw [hnext, nextByteFrom_whole (by rw [hbits]; omega) hvalue (bitsToNat_lt 8 _), hmiss, ← hskip]
  rfl

end Byte

/-- Settles O26: the refill's five endings, each with what SRC_NEXT_BYTE makes of it. -/
theorem nextByteAcrossARefill : Obligations.NextByteAcrossARefill := by
  intro s out pre had chunks as b hrun hk hne hlt got missing reads k v cut whole
  obtain rfl := byteRun_eq hrun hk
  refine ⟨fun hp => ?_, fun hp hgot => ?_, fun hp hgot => ?_, fun hp hb => ?_, fun hp => ?_⟩
  · rw [refillBit_waiting hne hlt hp, nextByteFrom_waiting]; rfl
  · rw [refillBit_eod hne hlt hp hgot, nextByteFrom_eod hk]; rfl
  · rw [refillBit_short hne hlt hp hgot, nextByteFrom_takeBit_refilled hk s hgot]
  · have hmissing : 0 < missing := Nat.sub_pos_of_lt (List.length_append.trans_lt hlt)
    have hbytes : got ++ b ≠ [] := List.append_ne_nil_of_right_ne_nil _ (List.length_pos_iff.1 (hb ▸ hmissing))
    rw [refillBit_full hne hlt hp hb, nextByteFrom_takeBit_refilled hk s hbytes]
  · rw [refillBit_ioErr hne hlt hp, nextByteFrom_ioErr hk]; rfl

end Sys2Proof.Machine
end

section
/-! The bit sink (42_bitsink.md R130 to R145). -/

namespace Sys2Proof.Machine

open Sys2Proof.Claims

/-! ### Operands that pass their checks -/

/-- A command that uses IMM8 only runs its body when IMM8 is in its range. -/
theorem exec_ofImm {i : Instr} {k : ImmClass} {imm : Byte} (hk : operandClass i = ⟨k, .unused⟩)
    (ho : i.operands = Operands.ofImm imm) (hne : k ≠ .unused) (himm : immInRange k imm = true) (s : State) :
    exec i s = .next (commandBody i s) := by
  have hcheck : operandError s.cfg (operandClass i) i.operands = none := by
    rw [hk, ho, operandError_none_iff]
    simp [FailsCheck, Operands.ofImm, isLenClass, argInRange, hne, himm]
  rw [exec_eq_checked, checked_ok _ hcheck]

theorem argInRange_threshold (c : Config) (n : Word) : argInRange c .threshold n = true ↔ n.toNat ≤ c.snkBufCap := by
  simp [argInRange]

theorem operandError_threshold (c : Config) (n : Word) :
    operandError c ⟨.unused, .threshold⟩ (Operands.ofArg n) =
      if n.toNat ≤ c.snkBufCap then none else some .eIllegalArg := by
  have hfails : FailsCheck c ⟨.unused, .threshold⟩ (Operands.ofArg n) ↔ ¬n.toNat ≤ c.snkBufCap := by
    rw [← argInRange_threshold, Bool.not_eq_true]
    simp [FailsCheck, Operands.ofArg, isLenClass, immInRange]
  rw [operandError_eq, if_congr hfails rfl rfl, ite_not]
  rfl

section Exec

variable {s : State}

/-- A command whose ARG is a threshold runs its body when the threshold is in its range. -/
theorem exec_ofArg {i : Instr} {n : Word} (hk : operandClass i = ⟨.unused, .threshold⟩)
    (ho : i.operands = Operands.ofArg n) (hn : n.toNat ≤ s.cfg.snkBufCap) : exec i s = .next (commandBody i s) := by
  have hcheck : operandError s.cfg (operandClass i) i.operands = none := by
    rw [hk, ho, operandError_threshold, if_pos hn]
  rw [exec_eq_checked, checked_ok _ hcheck]

theorem exec_snkWriteBit (b : Bool) (s : State) :
    exec (.snkWriteBit (Operands.ofImm (BitVec.ofNat 8 (num b)))) s =
      .next (snkWriteBitBody (BitVec.ofNat 8 (num b)) s) :=
  exec_ofImm rfl rfl (by decide) (by cases b <;> rfl) s

theorem exec_snkWriteByte (v : Byte) (s : State) :
    exec (.snkWriteByte (Operands.ofImm v)) s = .next (snkWriteByteBody v s) :=
  exec_ofImm rfl rfl (by decide) rfl s

theorem getLsbD_zero_num (b : Bool) : (BitVec.ofNat 8 (num b)).getLsbD 0 = b := by cases b <;> rfl

theorem exec_snkWriteBit_open (b : Bool) (h : s.bsnk.isOpen = true) :
    exec (.snkWriteBit (Operands.ofImm (BitVec.ofNat 8 (num b)))) s =
      .next (writeBitEnd (BitVec.ofNat 8 (num b)) (s.putBit b)) := by
  rw [exec_snkWriteBit, snkWriteBitBody, if_pos h, getLsbD_zero_num]

theorem exec_snkSetThreshold_open {n : Word} (h : s.bsnk.isOpen = true) (hn : n.toNat ≤ s.cfg.snkBufCap) :
    exec (.snkSetThreshold (Operands.ofArg n)) s =
      .next { answered s 0 0 [] with bsnk := { s.bsnk with thresh := n } } := by
  rw [exec_ofArg rfl rfl hn, commandBody, snkSetThresholdBody, if_pos (show s.bsnk.isOpen = true from h)]
  rfl

/-- A finalizing command of an open sink flushes it (R138, R140, R141). -/
theorem exec_finalizeCommand {f : Finalize} (h : s.bsnk.isOpen = true)
    (hf : ∀ t, f = .reopen t → t.toNat ≤ s.cfg.snkBufCap) : exec (finalizeCommand f) s = .next (flushFor f s) := by
  cases f with
  | flush => rw [finalizeCommand, exec_bare rfl rfl, commandBody, snkFlushBody, if_pos h]
  | reopen t =>
    rw [finalizeCommand, exec_ofArg rfl rfl (hf t rfl), commandBody, snkOpenBody, if_pos h]
    rfl
  | close => rw [finalizeCommand, exec_bare rfl rfl, commandBody, snkCloseBody, if_pos h]

/-! ### A closed sink (R142) -/

variable (hc : s.bsnk.isOpen = false)

include hc

theorem exec_snkWriteBit_closed (b : Bool) :
    exec (.snkWriteBit (Operands.ofImm (BitVec.ofNat 8 (num b)))) s = .next (answered s 0x12 0 []) := by
  rw [exec_snkWriteBit, snkWriteBitBody, if_neg (by simp [hc])]
  rfl

theorem exec_snkWriteByte_closed (v : Byte) :
    exec (.snkWriteByte (Operands.ofImm v)) s = .next (answered s 0x12 0 []) := by
  rw [exec_snkWriteByte, snkWriteByteBody, if_neg (by simp [hc])]
  rfl

theorem exec_snkFlush_closed : exec (.snkFlush Operands.none) s = .next (answered s 0x12 0 []) := by
  rw [exec_bare rfl rfl, commandBody, snkFlushBody, if_neg (by simp [hc])]
  rfl

theorem exec_snkClose_closed : exec (.snkClose Operands.none) s = .next (answered s 0x12 0 []) := by
  rw [exec_bare rfl rfl, commandBody, snkCloseBody, if_neg (by simp [hc])]
  rfl

theorem exec_snkSetThreshold_closed {n : Word} (hn : n.toNat ≤ s.cfg.snkBufCap) :
    exec (.snkSetThreshold (Operands.ofArg n)) s = .next (answered s 0x12 0 []) := by
  rw [exec_ofArg rfl rfl hn, commandBody, snkSetThresholdBody, if_neg (by simp [hc])]
  rfl

/-- SNK_OPEN of a closed sink has nothing to finalize (R140). -/
theorem exec_snkOpen_closed {n : Word} (hn : n.toNat ≤ s.cfg.snkBufCap) :
    exec (.snkOpen (Operands.ofArg n)) s = .next { answered s 0 0 [] with bsnk := ⟨true, n, 0, 0, []⟩ } := by
  rw [exec_ofArg rfl rfl hn, commandBody, snkOpenBody, if_neg (by simp [hc]), flushDone,
    resultWord_of_lt (by decide)]
  rfl

end Exec

section KeepsSink

variable {s t : State}

theorem srcCommands_bsnk {o : Operands} {i : Instr}
    (hi : i = .srcOpen o ∨ i = .srcNextBit o ∨ i = .srcNextByte o ∨ i = .srcTakeUnconsumed o)
    (he : exec i s = .next t) : t.bsnk = s.bsnk := by
  obtain ⟨-, hbsnk, -⟩ := srcCommandsFrame o i s t hi he
  exact hbsnk

theorem bsnk_of_delivers (h : ∃ r, t = s.deliver r) : t.bsnk = s.bsnk := by
  obtain ⟨r, rfl⟩ := h; rfl

theorem treeBuildBody_bsnk (p : List Byte) (s : State) : (treeBuildBody p s).bsnk = s.bsnk := by
  obtain ⟨t, k, r, e, -⟩ := treeBuildBody_cases p s
  rw [e]; rfl

theorem treeDeserializeBody_bsnk (p : List Byte) (s : State) : (treeDeserializeBody p s).bsnk = s.bsnk := by
  obtain ⟨t, r, e, -⟩ := treeDeserializeBody_cases p s
  rw [e]; rfl

theorem encAddChunkBody_bsnk (chunk : List Byte) (s : State) : (encAddChunkBody chunk s).bsnk = s.bsnk := by
  obtain ⟨r, e⟩ | ⟨-, -, e⟩ := encAddChunkBody_cases chunk s <;> rw [e] <;> rfl

theorem encEncodeBody_bsnk (s : State) : (encEncodeBody s).bsnk = s.bsnk := by
  obtain ⟨r, e⟩ | ⟨k, r, e, -⟩ := encEncodeBody_cases s <;> rw [e] <;> rfl

/-- Every command but SNK_OPEN keeps a closed sink as it is (R142). -/
theorem exec_bsnk_closed {i : Instr} (hi : ∀ o, i ≠ .snkOpen o) (hc : s.bsnk.isOpen = false)
    (he : exec i s = .next t) : t.bsnk = s.bsnk := by
  obtain ⟨e, -, hx⟩ | ⟨-, hx⟩ := exec_cases i s <;> cases hx.symm.trans he
  · rfl
  · cases i with
    | srcOpen o => exact srcCommands_bsnk (.inl rfl) he
    | srcNextBit o => exact srcCommands_bsnk (.inr (.inl rfl)) he
    | srcNextByte o => exact srcCommands_bsnk (.inr (.inr (.inl rfl))) he
    | srcTakeUnconsumed o => exact srcCommands_bsnk (.inr (.inr (.inr rfl))) he
    | snkOpen o => exact (hi o rfl).elim
    | snkWriteBit o => rw [commandBody, snkWriteBitBody, if_neg (by simp [hc])]; rfl
    | snkWriteByte o => rw [commandBody, snkWriteByteBody, if_neg (by simp [hc])]; rfl
    | snkFlush o => rw [commandBody, snkFlushBody, if_neg (by simp [hc])]; rfl
    | snkSetThreshold o => rw [commandBody, snkSetThresholdBody, if_neg (by simp [hc])]; rfl
    | snkClose o => rw [commandBody, snkCloseBody, if_neg (by simp [hc])]; rfl
    | csrRead o => exact bsnk_of_delivers (csrReadBody_delivers _ s)
    | treeBuild o => exact treeBuildBody_bsnk _ s
    | treeSerialize o => exact bsnk_of_delivers (treeSerializeBody_delivers s)
    | treeDeserialize o => exact treeDeserializeBody_bsnk _ s
    | treeCodeTable o => exact bsnk_of_delivers (treeCodeTableBody_delivers s)
    | encNew o => rfl
    | encAddChunk o => exact encAddChunkBody_bsnk _ s
    | encEncode o => exact encEncodeBody_bsnk s
    | decDecode o => exact bsnk_of_delivers (decDecodeBody_delivers _ s)

end KeepsSink

/-- Settles O36: a command that keeps a closed sink does not open it. -/
theorem closedSinkAnswersClosed : Obligations.ClosedSinkAnswersClosed := by
  refine ⟨fun s b v n hc hn => ⟨exec_snkWriteBit_closed hc b, exec_snkWriteByte_closed hc v, exec_snkFlush_closed hc,
    exec_snkSetThreshold_closed hc hn, exec_snkClose_closed hc⟩, fun i s t hc he ho => ?_,
    fun s n hc hn => exec_snkOpen_closed hc hn⟩
  by_contra hi
  rw [exec_bsnk_closed (not_exists.1 hi) hc he, hc] at ho
  cases ho

/-! ### The frame of the SNK commands (R130) -/

section Frame

variable {s t : State}

/-- From `s` the command `i` moved the sink, and then touched the engine, the responses and, as a command that opens or
closes may, the sink's settings. -/
def SinkFrame (i : Instr) (s t : State) : Prop :=
  ∃ u e rs k, SnkMoves s u ∧ t = { u with eng := e, resps := rs, bsnk := k } ∧ KeepsSinkSetting (some i) u.bsnk k

theorem sinkFrame_raise (i : Instr) (s : State) (c : Status) (w : Word) : SinkFrame i s (s.raise c w) :=
  ⟨s, _, _, s.bsnk, SnkMoves.refl s, rfl, .refl _ _⟩

theorem EndsOrWaits.sinkFrame {i : Instr} {cs : List Status} {u : State} (h : EndsOrWaits i cs u t)
    (hu : SnkMoves s u) : SinkFrame i s t := by
  obtain ⟨e, rs, rfl⟩ := h.frame
  exact ⟨u, e, rs, u.bsnk, hu, rfl, .refl _ _⟩

theorem FinalizeEnds.sinkFrame {f : Finalize} {u : State} (h : FinalizeEnds f u t) (hu : SnkMoves s u) :
    SinkFrame (finalizeCommand f) s t := by
  obtain ⟨e, rs, k, rfl, hk⟩ := h.frame
  exact ⟨u, e, rs, k, hu, rfl, hk⟩

theorem flushFor_sinkFrame (f : Finalize) (s : State) : SinkFrame (finalizeCommand f) s (flushFor f s) := by
  obtain ⟨u, hu, hends⟩ := flushFor_ends f s
  exact hends.sinkFrame hu

theorem snkOpenBody_sinkFrame (n : Word) (s : State) :
    SinkFrame (.snkOpen (Operands.ofArg n)) s (snkOpenBody n s) := by
  unfold snkOpenBody
  split
  · exact flushFor_sinkFrame (.reopen n) s
  · exact (flushDone_ends (.reopen n) 0 s).sinkFrame (SnkMoves.refl s)

theorem snkWriteBitBody_sinkFrame (imm : Byte) (s : State) :
    SinkFrame (.snkWriteBit (Operands.ofImm imm)) s (snkWriteBitBody imm s) := by
  unfold snkWriteBitBody
  split
  · exact (writeBitEnd_ends imm _).sinkFrame (putBit_moves _ s)
  · exact sinkFrame_raise _ s _ _

theorem snkWriteByteBody_sinkFrame (byte : Byte) (s : State) :
    SinkFrame (.snkWriteByte (Operands.ofImm byte)) s (snkWriteByteBody byte s) := by
  unfold snkWriteByteBody
  split
  · obtain ⟨u, hu, hends⟩ := writeByteFrom_ends byte ((byteBits byte).drop 1) 0 (s.putBit (byte.getLsbD 7))
    exact hends.sinkFrame ((putBit_moves _ s).trans hu)
  · exact sinkFrame_raise _ s _ _

theorem snkFlushBody_sinkFrame (s : State) : SinkFrame (.snkFlush Operands.none) s (snkFlushBody s) := by
  unfold snkFlushBody
  split
  · exact flushFor_sinkFrame .flush s
  · exact sinkFrame_raise _ s _ _

theorem snkCloseBody_sinkFrame (s : State) : SinkFrame (.snkClose Operands.none) s (snkCloseBody s) := by
  unfold snkCloseBody
  split
  · exact flushFor_sinkFrame .close s
  · exact sinkFrame_raise _ s _ _

variable {i : Instr} {o : Operands}

/-- The frame of the SNK commands but SNK_SET_THRESHOLD, in every form. -/
theorem exec_sinkFrame
    (hi : i = .snkOpen o ∨ i = .snkWriteBit o ∨ i = .snkWriteByte o ∨ i = .snkFlush o ∨ i = .snkClose o)
    (he : exec i s = .next t) : SinkFrame i s t := by
  obtain ⟨e, -, hx⟩ | ⟨ho, hx⟩ := exec_cases i s <;> cases hx.symm.trans he
  · exact sinkFrame_raise i s _ _
  · obtain rfl | rfl | rfl | rfl | rfl := hi
    · rw [show o = _ from operands_eq_ofArg ho]; exact snkOpenBody_sinkFrame _ s
    · rw [show o = _ from operands_eq_ofImm ho]; exact snkWriteBitBody_sinkFrame _ s
    · rw [show o = _ from operands_eq_ofImm ho]; exact snkWriteByteBody_sinkFrame _ s
    · rw [show o = _ from operands_eq_none ho]; exact snkFlushBody_sinkFrame s
    · rw [show o = _ from operands_eq_none ho]; exact snkCloseBody_sinkFrame s

/-- SNK_SET_THRESHOLD touches the threshold, the engine and the responses only. -/
theorem exec_snkSetThreshold_frame (he : exec (.snkSetThreshold o) s = .next t) :
    ∃ n e rs, t = { s with eng := e, resps := rs, bsnk := { s.bsnk with thresh := n } } := by
  obtain ⟨e, -, hx⟩ | ⟨-, hx⟩ := exec_cases (.snkSetThreshold o) s <;> cases hx.symm.trans he
  · exact ⟨s.bsnk.thresh, _, _, rfl⟩
  · rw [commandBody, snkSetThresholdBody]
    split
    · exact ⟨_, _, _, rfl⟩
    · exact ⟨s.bsnk.thresh, _, _, rfl⟩

end Frame

/-- Settles O37: SNK_SET_THRESHOLD writes one field, and the other five commands move the sink. -/
theorem snkCommandsFrame : Obligations.SnkCommandsFrame := by
  intro o i s t hi he
  have hcase : i = .snkSetThreshold o ∨
      (i = .snkOpen o ∨ i = .snkWriteBit o ∨ i = .snkWriteByte o ∨ i = .snkFlush o ∨ i = .snkClose o) := by tauto
  obtain rfl | hi := hcase
  · obtain ⟨n, e, rs, rfl⟩ := exec_snkSetThreshold_frame he
    exact ⟨rfl, rfl, rfl, rfl, rfl, rfl, rfl, rfl, rfl, rfl, rfl, fun _ h => (h rfl).elim, fun _ _ => rfl,
      fun _ => ⟨rfl, rfl, rfl⟩⟩
  · obtain ⟨u, e, rs, k, ⟨acc, nbits, buf, as, es, rfl, hes⟩, rfl, hthresh, hopen⟩ := exec_sinkFrame hi he
    refine ⟨rfl, rfl, rfl, rfl, rfl, rfl, rfl, rfl, rfl, rfl, portIGiven_writes _ _ hes, fun ho _ => hthresh ?_,
      fun ho hc => hopen ?_, fun h => ?_⟩
    all_goals obtain rfl | rfl | rfl | rfl | rfl := hi <;> simp_all

/-! ### A write to port O (R134) -/

section PutBit

variable {s : State} {as : List PortOAnswer}

/-- `s` after port O answered the write of the buffer with `a` and the answers `as` are left. -/
def State.wrote (s : State) (a : PortOAnswer) (as : List PortOAnswer) : State :=
  { s with portO := as, trace := s.trace ++ [.write s.bsnk.buf a] }

theorem portWrite_ok (hp : s.portO = .ok :: as) :
    s.portWrite = (.ok, s.bsnk.buf.length, (s.wrote .ok as).setBsnk { s.bsnk with buf := [] }) := by
  rw [State.portWrite, hp]; rfl

theorem portWrite_ioErr (hp : s.portO = .ioErr :: as) : s.portWrite = (.ioErr, 0, s.wrote .ioErr as) := by
  rw [State.portWrite, hp]; rfl

theorem drain_nonempty (hb : s.bsnk.buf ≠ []) : s.drain = s.portWrite :=
  if_neg (by simpa using hb)

/-! ### The outcomes of PutBit (R131 to R133) -/

variable {b : Bool}

theorem putBit_accumulates (hn : s.bsnk.nbits ≠ 7) :
    s.putBit b =
      (.accepted, s.setBsnk { s.bsnk with acc := accWith s.bsnk.acc b, nbits := s.bsnk.nbits + 1 }) := if_pos hn

theorem putBit_full (hn : s.bsnk.nbits = 7) (hfull : s.cfg.snkBufCap ≤ s.bsnk.buf.length) :
    s.putBit b = (.full, s) := by
  rw [State.putBit, if_neg (not_not.2 hn), if_pos hfull]

theorem withByte_length (k : Bsnk) (b : Bool) : (withByte k b).buf.length = k.buf.length + 1 :=
  List.length_append

variable (hn : s.bsnk.nbits = 7) (hroom : s.bsnk.buf.length < s.cfg.snkBufCap)

include hn hroom

theorem putBit_below (hthresh : s.bsnk.buf.length + 1 < s.bsnk.thresh.toNat) :
    s.putBit b = (.accepted, s.setBsnk (withByte s.bsnk b)) := by
  rw [State.putBit, if_neg (not_not.2 hn), if_neg (Nat.not_le.2 hroom), State.autoDrain]
  exact if_neg (by rw [State.setBsnk_bsnk, withByte_length]; exact Nat.not_le.2 hthresh)

/-- At the threshold the bit that completes a byte writes the whole buffer. -/
theorem putBit_drains (hthresh : s.bsnk.thresh.toNat ≤ s.bsnk.buf.length + 1) :
    s.putBit b = putAfterWrite (s.setBsnk (withByte s.bsnk b)).portWrite := by
  rw [State.putBit, if_neg (not_not.2 hn), if_neg (Nat.not_le.2 hroom), State.autoDrain,
    drain_nonempty (by simp [withByte])]
  exact if_pos (by rw [State.setBsnk_bsnk, withByte_length]; exact hthresh)

variable (hthresh : s.bsnk.thresh.toNat ≤ s.bsnk.buf.length + 1)

include hthresh

theorem putBit_drained (hp : s.portO = .ok :: as) :
    s.putBit b =
      (.accepted, ((s.setBsnk (withByte s.bsnk b)).wrote .ok as).setBsnk { withByte s.bsnk b with buf := [] }) := by
  rw [putBit_drains hn hroom hthresh, portWrite_ok (by exact hp)]; rfl

/-- A failed drain keeps the bit (R134). -/
theorem putBit_drainFailed (hp : s.portO = .ioErr :: as) :
    s.putBit b = (.acceptedIoErr, (s.setBsnk (withByte s.bsnk b)).wrote .ioErr as) := by
  rw [putBit_drains hn hroom hthresh, portWrite_ioErr (by exact hp)]; rfl

theorem putBit_drainWaits (hp : s.portO = []) : s.putBit b = (.waiting, s.setBsnk (withByte s.bsnk b)) := by
  rw [putBit_drains hn hroom hthresh, portWrite_waits (by exact hp)]; rfl

end PutBit

/-! ### SNK_WRITE_BIT (R136) -/

theorem nbits_eq_seven {k : Bsnk} (h : k.nbits.toNat = 7) : k.nbits = 7 := BitVec.eq_of_toNat_eq h

theorem nbits_ne_seven {k : Bsnk} (h : k.nbits.toNat < 7) : k.nbits ≠ 7 := fun e => by simp [e] at h

theorem accWith_num (a : Byte) (b : Bool) : accWith a b = (a <<< 1) ||| BitVec.ofNat 8 (num b) := by cases b <;> rfl

/-- Settles O30: one equation of PutBit per clause. -/
theorem writeBitOutcomes : Obligations.WriteBitOutcomes := by
  refine ⟨fun s b as ho => ?_, fun s imm as hr hj => ?_⟩
  · intro imm i v full kept
    have hout : exec i s = .next (writeBitEnd imm (s.putBit b)) := exec_snkWriteBit_open b ho
    have hv : accWith s.bsnk.acc b = v := accWith_num s.bsnk.acc b
    have hkept : withByte s.bsnk b = kept := by rw [withByte, hv]
    have hlen : full.length = s.bsnk.buf.length + 1 := List.length_append
    rw [hout, hlen]
    refine ⟨fun hn => ?_, fun hn hfull => ?_, fun hn hroom => ?_⟩
    · rw [putBit_accumulates (nbits_ne_seven hn), hv]; rfl
    · rw [putBit_full (nbits_eq_seven hn) hfull]; rfl
    · refine ⟨fun ht => ?_, fun ht hp => ?_, fun ht hp => ?_, fun ht hp => ?_⟩
      · rw [putBit_below (nbits_eq_seven hn) hroom ht, hkept]; rfl
      · rw [putBit_drained (nbits_eq_seven hn) hroom ht hp, hkept]; rfl
      · rw [putBit_drainFailed (nbits_eq_seven hn) hroom ht hp, hkept]; rfl
      · rw [putBit_drainWaits (nbits_eq_seven hn) hroom ht hp, hkept]; rfl
  · rw [step_busy hr hj, State.resume]
    refine ⟨fun hp => ?_, fun hp => ?_⟩
    · rw [portWrite_ok hp]; rfl
    · rw [portWrite_ioErr hp]; rfl

/-- Settles O35: the threshold alone is written, and the bit that then completes a byte drains at it. -/
theorem setThresholdDrainsNothing : Obligations.SetThresholdDrainsNothing := by
  refine ⟨fun s n ho hn => exec_snkSetThreshold_open ho hn, fun s n hc hn => exec_snkSetThreshold_closed hc hn,
    fun s n hn => ?_, fun n => by simp [encode, Instr.opcode, Instr.operands, Operands.ofArg],
    fun s n b as ho hnbits hroom hn hp => ?_⟩
  · have hcheck := (operandError_threshold s.cfg n).trans (if_neg (Nat.not_le.2 hn))
    rw [exec_eq_checked, checked_error _ hcheck]
    rfl
  · intro imm
    have hcap : n.toNat ≤ s.cfg.snkBufCap := hn.trans hroom
    have hset := exec_snkSetThreshold_open ho hcap
    obtain ⟨hbit, -⟩ := writeBitOutcomes
    obtain ⟨-, -, hcompletes⟩ := hbit { answered s 0 0 [] with bsnk := { s.bsnk with thresh := n } } b as ho
    obtain ⟨-, hdrains, -⟩ := hcompletes hnbits hroom
    exact ⟨_, _, hset, hdrains (by simpa using hn) hp, by rw [← ho], rfl⟩

/-! ### Several bits in a row (R131, R137) -/

/-- The sink after the bits `l`, when none of them completes a byte. -/
def pushBits (k : Bsnk) (l : List Bool) : Bsnk :=
  { k with acc := l.foldl accWith k.acc, nbits := k.nbits + BitVec.ofNat 3 l.length }

theorem accWith_shift_or (a x : Byte) (n : Nat) (b : Bool) :
    accWith ((a <<< n) ||| x) b = (a <<< (n + 1)) ||| accWith x b := by
  rw [accWith, accWith, BitVec.shiftLeft_or_distrib, BitVec.shiftLeft_add, BitVec.or_assoc]

theorem foldl_accWith_shift_or (a x : Byte) (n : Nat) (l : List Bool) :
    l.foldl accWith ((a <<< n) ||| x) = (a <<< (n + l.length)) ||| l.foldl accWith x := by
  induction l generalizing n x with
  | nil => rfl
  | cons b l ih =>
    rw [List.foldl_cons, List.foldl_cons, accWith_shift_or, ih, List.length_cons, Nat.add_right_comm, Nat.add_assoc]

/-- Accumulating bits shifts what was there and brings in the value of the bits. -/
theorem foldl_accWith (a : Byte) (l : List Bool) :
    l.foldl accWith a = (a <<< l.length) ||| l.foldl accWith 0 := by
  simpa using foldl_accWith_shift_or a 0 0 l

/-! A byte's bits from its bit `n` on: taken bit by bit they make the byte shifted right, or cut to its low bits. -/

theorem byteBits_take_succ (v : Byte) {n : Nat} (hn : n < 8) :
    (byteBits v).take (8 - n) = (byteBits v).take (7 - n) ++ [v.getLsbD n] := by
  interval_cases n <;> rfl

theorem byteBits_drop_succ (v : Byte) {n : Nat} (hn : n < 8) :
    (byteBits v).drop (7 - n) = v.getLsbD n :: (byteBits v).drop (8 - n) := by
  interval_cases n <;> rfl

/-- The bits of a byte: those before its bit `n`, it, and the `n` below it. -/
theorem byteBits_split (v : Byte) {n : Nat} (hn : n < 8) :
    byteBits v = (byteBits v).take (7 - n) ++ v.getLsbD n :: (byteBits v).drop (8 - n) := by
  rw [← byteBits_drop_succ v hn, List.take_append_drop]

theorem accWith_shiftRight (v : Byte) (n : Nat) : accWith (v >>> (n + 1)) (v.getLsbD n) = v >>> n := by
  apply BitVec.eq_of_getLsbD_eq
  intro i hi
  cases i with
  | zero => cases h : v.getLsbD n <;> simp [accWith, h]
  | succ i => cases v.getLsbD n <;> simp [accWith, hi, Nat.add_assoc, Nat.add_comm 1]

/-- The low `n` bits of a byte, bit by bit. -/
theorem getLsbD_low (v : Byte) (n : Nat) {i : Nat} (hi : i < 8) :
    (v &&& BitVec.ofNat 8 (2 ^ n - 1)).getLsbD i = (v.getLsbD i && decide (i < n)) := by
  rw [BitVec.getLsbD_and, BitVec.getLsbD_ofNat, Nat.testBit_two_pow_sub_one, decide_eq_true hi, Bool.true_and]

theorem accWith_low (v : Byte) (n : Nat) :
    (accWith 0 (v.getLsbD n) <<< n) ||| (v &&& BitVec.ofNat 8 (2 ^ n - 1)) =
      v &&& BitVec.ofNat 8 (2 ^ (n + 1) - 1) := by
  apply BitVec.eq_of_getLsbD_eq
  intro i hi
  rw [BitVec.getLsbD_or, getLsbD_low v n hi, getLsbD_low v (n + 1) hi]
  obtain hlt | rfl | hgt := Nat.lt_trichotomy i n
  · simp [hlt, Nat.lt_succ_of_lt hlt]
  · cases v.getLsbD i <;> simp [accWith, hi]
  · have hne : i - n ≠ 0 := Nat.sub_ne_zero_of_lt hgt
    cases v.getLsbD n <;> simp [accWith, hne, hi, Nat.not_lt.2 hgt.le, Nat.not_lt.2 hgt]

theorem foldl_accWith_take (v : Byte) {n : Nat} (hn : n ≤ 8) :
    ((byteBits v).take (8 - n)).foldl accWith 0 = v >>> n := by
  induction hn using Nat.decreasingInduction with
  | of_succ n hn ih =>
    rw [Nat.succ_sub_succ] at ih
    rw [byteBits_take_succ v hn, List.foldl_append, ih, List.foldl_cons, List.foldl_nil, accWith_shiftRight]
  | self => exact (BitVec.ushiftRight_eq_zero le_rfl).symm

theorem foldl_accWith_drop (v : Byte) {n : Nat} (hn : n ≤ 8) :
    ((byteBits v).drop (8 - n)).foldl accWith 0 = v &&& BitVec.ofNat 8 (2 ^ n - 1) := by
  induction n with
  | zero => simp [byteBits]
  | succ n ih =>
    have hlen : ((byteBits v).drop (8 - n)).length = n := by rw [List.length_drop, byteBits_length]; omega
    rw [Nat.succ_sub_succ, byteBits_drop_succ v hn, List.foldl_cons, foldl_accWith, hlen, ih (Nat.le_of_succ_le hn),
      accWith_low]

theorem foldl_accWith_first (a v : Byte) {n : Nat} (hn : n ≤ 8) :
    ((byteBits v).take (8 - n)).foldl accWith a = (a <<< (8 - n)) ||| (v >>> n) := by
  have hlen : ((byteBits v).take (8 - n)).length = 8 - n := by simp
  rw [foldl_accWith, hlen, foldl_accWith_take v hn]

/-- SNK_WRITE_BYTE with the bits `bits` still to write and `done` bits accepted. -/
def writeBits (byte : Byte) : List Bool → Nat → State → State
  | [], done, s => s.respond .ok (resultWord done) []
  | b :: bs, done, s => writeByteFrom byte bs done (s.putBit b)

theorem writeByteFrom_accepted (byte : Byte) (bits : List Bool) (done : Nat) (s : State) :
    writeByteFrom byte bits done (.accepted, s) = writeBits byte bits (done + 1) s := by
  cases bits <;> rfl

theorem writeByteFrom_ioErr (byte : Byte) (bits : List Bool) (done : Nat) (s : State) :
    writeByteFrom byte bits done (.acceptedIoErr, s) = s.respond .eIo (resultWord (done + 1)) [] := by
  cases bits <;> rfl

theorem writeByteFrom_full (byte : Byte) (bits : List Bool) (done : Nat) (s : State) :
    writeByteFrom byte bits done (.full, s) = s.respond .eCapacity (resultWord done) [] := by
  cases bits <;> rfl

theorem exec_snkWriteByte_open (v : Byte) {s : State} (h : s.bsnk.isOpen = true) :
    exec (.snkWriteByte (Operands.ofImm v)) s = .next (writeBits v (byteBits v) 0 s) := by
  rw [exec_snkWriteByte, snkWriteByteBody, if_pos h]
  rfl

/-- Bits that complete no byte are accumulated. -/
theorem writeBits_append (byte : Byte) {l : List Bool} (rest : List Bool) (done : Nat) {s : State}
    (h : s.bsnk.nbits.toNat + l.length ≤ 7) :
    writeBits byte (l ++ rest) done s = writeBits byte rest (done + l.length) (s.setBsnk (pushBits s.bsnk l)) := by
  induction l generalizing done s with
  | nil => simp [pushBits, State.setBsnk]
  | cons b l ih =>
    rw [List.length_cons] at h
    have hsucc : (s.bsnk.nbits + 1).toNat = s.bsnk.nbits.toNat + 1 := by
      rw [BitVec.toNat_add]; simp; omega
    have hpush : pushBits { s.bsnk with acc := accWith s.bsnk.acc b, nbits := s.bsnk.nbits + 1 } l =
        pushBits s.bsnk (b :: l) := by
      have hone : BitVec.ofNat 3 (b :: l).length = 1 + BitVec.ofNat 3 l.length := by
        rw [List.length_cons, Nat.add_comm, BitVec.ofNat_add]
        rfl
      rw [pushBits, pushBits, hone, ← BitVec.add_assoc]
      rfl
    calc writeBits byte (b :: (l ++ rest)) done s
      _ = writeBits byte (l ++ rest) (done + 1)
            (s.setBsnk { s.bsnk with acc := accWith s.bsnk.acc b, nbits := s.bsnk.nbits + 1 }) := by
        rw [writeBits, putBit_accumulates (nbits_ne_seven (by omega)), writeByteFrom_accepted]
      _ = writeBits byte rest (done + (b :: l).length) (s.setBsnk (pushBits s.bsnk (b :: l))) := by
        rw [ih _ (by rw [State.setBsnk_bsnk, hsucc]; omega), State.setBsnk_bsnk, hpush, List.length_cons,
          Nat.add_assoc, Nat.add_comm 1]
        rfl

/-! ### SNK_WRITE_BYTE (R137) -/

/-- A sink with `n` bits pending after the first `7 - n` bits of a byte: one bit short of a byte. -/
def toSeven (k : Bsnk) (v : Byte) : Bsnk :=
  { k with acc := (k.acc <<< (7 - k.nbits.toNat)) ||| (v >>> (k.nbits.toNat + 1)), nbits := 7 }

theorem pushBits_take (k : Bsnk) (v : Byte) : pushBits k ((byteBits v).take (7 - k.nbits.toNat)) = toSeven k v := by
  have hn := k.nbits.isLt
  have hlen : ((byteBits v).take (7 - k.nbits.toNat)).length = 7 - k.nbits.toNat := by simp; omega
  have hfirst := foldl_accWith_first k.acc v hn
  rw [Nat.succ_sub_succ] at hfirst
  have hseven : k.nbits + BitVec.ofNat 3 (7 - k.nbits.toNat) = 7 := by
    apply BitVec.eq_of_toNat_eq
    simp
    omega
  rw [pushBits, hlen, hfirst, hseven, toSeven]

/-- The next bit completes the byte of the pending bits and the first `8 - n` bits (R131). -/
theorem withByte_toSeven (k : Bsnk) (v : Byte) :
    withByte (toSeven k v) (v.getLsbD k.nbits.toNat) =
      { k with buf := k.buf ++ [(k.acc <<< (8 - k.nbits.toNat)) ||| (v >>> k.nbits.toNat)], acc := 0, nbits := 0 } := by
  have hn := k.nbits.isLt
  have hacc : accWith (toSeven k v).acc (v.getLsbD k.nbits.toNat) =
      (k.acc <<< (8 - k.nbits.toNat)) ||| (v >>> k.nbits.toNat) := by
    have hfirst := foldl_accWith_first k.acc v hn.le
    rw [byteBits_take_succ v hn, List.foldl_append] at hfirst
    rw [← pushBits_take]
    exact hfirst
  rw [withByte, hacc]
  rfl

/-- SNK_WRITE_BYTE of an open sink comes to the bit that completes a byte. -/
theorem exec_snkWriteByte_eighth (v : Byte) {s : State} (h : s.bsnk.isOpen = true) :
    exec (.snkWriteByte (Operands.ofImm v)) s =
      .next (writeByteFrom v ((byteBits v).drop (7 - s.bsnk.nbits.toNat + 1)) (7 - s.bsnk.nbits.toNat)
        ((s.setBsnk (toSeven s.bsnk v)).putBit (v.getLsbD s.bsnk.nbits.toNat))) := by
  have hn := s.bsnk.nbits.isLt
  have hlen : ((byteBits v).take (7 - s.bsnk.nbits.toNat)).length = 7 - s.bsnk.nbits.toNat := by simp; omega
  have hrest : 7 - s.bsnk.nbits.toNat + 1 = 8 - s.bsnk.nbits.toNat := by omega
  rw [exec_snkWriteByte_open v h, byteBits_split v hn, writeBits_append v _ 0 (by rw [hlen]; omega), pushBits_take,
    hlen, Nat.zero_add, ← byteBits_split v hn, hrest, writeBits]

/-- After the bit that completed a byte, the bits left are pending and the command ends. -/
theorem writeByteFrom_rest (v : Byte) {done : Nat} {u : State} (hd : done ≤ 7) (hacc : u.bsnk.acc = 0)
    (hn : u.bsnk.nbits = 0) :
    writeByteFrom v ((byteBits v).drop (done + 1)) done (.accepted, u) =
      (u.setBsnk { u.bsnk with acc := v &&& BitVec.ofNat 8 (2 ^ (7 - done) - 1),
                               nbits := BitVec.ofNat 3 (7 - done) }).respond .ok 8 [] := by
  have hlen : ((byteBits v).drop (done + 1)).length = 7 - done := by simp
  have hdrop : done + 1 = 8 - (7 - done) := by omega
  have hpush : pushBits u.bsnk ((byteBits v).drop (done + 1)) =
      { u.bsnk with acc := v &&& BitVec.ofNat 8 (2 ^ (7 - done) - 1), nbits := BitVec.ofNat 3 (7 - done) } := by
    rw [pushBits, hlen, hacc, hn, hdrop, foldl_accWith_drop v (by omega), zero_add]
  have hall := writeBits_append v [] (done + 1) (l := (byteBits v).drop (done + 1)) (s := u) (by rw [hn, hlen]; simp)
  rw [List.append_nil] at hall
  rw [writeByteFrom_accepted, hall, hpush, hlen, show done + 1 + (7 - done) = 8 by omega]
  rfl

/-- Settles O32: one equation of PutBit per clause, at the bit that completes the byte. -/
theorem writeByteOutcomes : Obligations.WriteByteOutcomes := by
  refine ⟨fun s v as ho => ?_, fun s v done as hr hj hd hacc hnbits => ?_⟩
  · intro out n full low
    have hn : n < 8 := s.bsnk.nbits.isLt
    have hout : out = .next (writeByteFrom v ((byteBits v).drop (7 - n + 1)) (7 - n)
      ((s.setBsnk (toSeven s.bsnk v)).putBit (v.getLsbD n))) := exec_snkWriteByte_eighth v ho
    have hbyte : withByte (toSeven s.bsnk v) (v.getLsbD n) = { s.bsnk with buf := full, acc := 0, nbits := 0 } :=
      withByte_toSeven s.bsnk v
    have hlen : full.length = s.bsnk.buf.length + 1 := List.length_append
    have hback : 7 - (7 - n) = n := by omega
    have hpending : BitVec.ofNat 3 n = s.bsnk.nbits := BitVec.ofNat_toNat ..
    have hseven : (s.setBsnk (toSeven s.bsnk v)).bsnk.nbits = 7 := rfl
    rw [hlen, hout]
    refine ⟨fun hfull => ?_, fun hroom ht => ?_, fun hroom ht hp => ?_, fun hroom ht hp => ?_, fun hroom ht hp => ?_⟩
    · rw [putBit_full hseven hfull, writeByteFrom_full, resultWord_of_lt (by omega)]; rfl
    · rw [putBit_below hseven hroom ht, State.setBsnk_bsnk, hbyte, writeByteFrom_rest v (Nat.sub_le 7 n) rfl rfl, hback,
        hpending]
      rfl
    · rw [putBit_drained hseven hroom ht hp, State.setBsnk_bsnk, hbyte, writeByteFrom_rest v (Nat.sub_le 7 n) rfl rfl,
        hback, hpending]
      rfl
    · rw [putBit_drainFailed hseven hroom ht hp, State.setBsnk_bsnk, hbyte, writeByteFrom_ioErr,
        resultWord_of_lt (by omega), show 7 - n + 1 = 8 - n by omega]
      rfl
    · rw [putBit_drainWaits hseven hroom ht hp, State.setBsnk_bsnk, hbyte, writeByteFrom_waiting]; rfl
  · rw [step_busy hr hj, State.resume]
    refine ⟨fun hp => ?_, fun hp => ?_⟩
    · rw [portWrite_ok hp, putAfterWrite, writeByteFrom_rest v hd (by exact hacc) (by exact hnbits)]; rfl
    · rw [portWrite_ioErr hp, putAfterWrite, writeByteFrom_ioErr, resultWord_of_lt (by omega)]; rfl

/-! ### The stream of bits (R145) -/

section Stream

variable {s u t : State}

/-- A write moves the bytes of the buffer to what port O has taken, or leaves them. -/
theorem portWrite_stream (s : State) : s.portWrite.2.2.sinkStream = s.sinkStream := by
  unfold State.portWrite
  split
  · rfl
  · simp [State.sinkStream, sinkBits, pendingBits, portOTaken, bytesTaken]
  · simp [State.sinkStream, sinkBits, pendingBits, portOTaken, bytesTaken]

theorem putAfterWrite_stream (s : State) : (putAfterWrite s.portWrite).2.sinkStream = s.sinkStream := by
  rw [putAfterWrite_state, portWrite_stream]

theorem putAfterWrite_ne_full (r : WriteEnd × Nat × State) : (putAfterWrite r).1 ≠ .full := by
  obtain ⟨e, n, v⟩ := r
  cases e <;> simp [putAfterWrite]

/-- A bit refused for a full buffer changes nothing (R132). -/
theorem putBit_state_of_full {b : Bool} (h : (s.putBit b).1 = .full) : (s.putBit b).2 = s := by
  unfold State.putBit State.autoDrain at *
  split at h
  · cases h
  · split at h
    · next hn hfull => rw [if_neg hn, if_pos hfull]
    · split at h
      · exact (putAfterWrite_ne_full _ h).elim
      · cases h

theorem EndsOrWaits.stream {i : Instr} {cs : List Status} (h : EndsOrWaits i cs u t) :
    t.sinkStream = u.sinkStream := by
  obtain ⟨e, rs, rfl⟩ := h.frame
  rfl

/-- With `done` bits accepted before it, `bits` still to write: nothing was delivered, or one response counts the bits
accepted, and those of `bits` among them come next in the stream. -/
def CountsBits (bits : List Bool) (done : Nat) (s t : State) : Prop :=
  t.resps = s.resps ∨ ∃ c k, done ≤ k ∧ k ≤ 8 ∧ t.resps = s.resps ++ [⟨c, BitVec.ofNat 32 k, []⟩] ∧
    t.sinkStream = s.sinkStream ++ bits.take (k - done)

/-- A response that counts no bit of `bits`. -/
theorem countsBits_respond (bits : List Bool) {done : Nat} (hd : done ≤ 8) (s : State) (c : Status) :
    CountsBits bits done s (s.respond c (resultWord done) []) := by
  refine .inr ⟨statusWord c false, done, le_rfl, hd, ?_, ?_⟩
  · rw [State.respond_resps, resultWord_of_lt (by omega)]
  · rw [Nat.sub_self, List.take_zero, List.append_nil]
    rfl

theorem CountsBits.cons {b : Bool} {bits : List Bool} {done : Nat} (h : CountsBits bits (done + 1) u t)
    (hr : u.resps = s.resps) (hs : u.sinkStream = s.sinkStream ++ [b]) : CountsBits (b :: bits) done s t := by
  obtain h | ⟨c, k, hk, h8, hresps, hstream⟩ := h
  · exact .inl (h.trans hr)
  · refine .inr ⟨c, k, by omega, h8, hr ▸ hresps, ?_⟩
    rw [hstream, hs, List.append_assoc, show k - done = k - (done + 1) + 1 by omega, List.take_succ_cons]
    rfl

theorem CountsBits.stream {bits : List Bool} {done : Nat} {c w : Word} (h : CountsBits bits done s t)
    (hr : t.resps = s.resps ++ [⟨c, w, []⟩]) : t.sinkStream = s.sinkStream ++ bits.take (w.toNat - done) := by
  obtain h | ⟨c', k, -, h8, hresps, hstream⟩ := h
  · simp [h] at hr
  · obtain ⟨-, rfl⟩ : c' = c ∧ BitVec.ofNat 32 k = w := by simpa using hresps.symm.trans hr
    rwa [BitVec.toNat_ofNat, Nat.mod_eq_of_lt (by omega)]

/-- SNK_WRITE_BYTE counts the bits it accepts, however it ends (R137). -/
theorem writeBits_counts (byte : Byte) (bits : List Bool) {done : Nat} (hd : done + bits.length ≤ 8) (s : State) :
    CountsBits bits done s (writeBits byte bits done s) := by
  induction bits generalizing done s with
  | nil => exact countsBits_respond [] hd s .ok
  | cons b bits ih =>
    rw [List.length_cons] at hd
    have hresps := (putBit_moves b s).kept.resps
    have hstream := putBit_stream s b
    have hfull := putBit_state_of_full (s := s) (b := b)
    rw [writeBits]
    generalize s.putBit b = r at hresps hstream hfull ⊢
    obtain ⟨e, u⟩ := r
    cases e with
    | accepted =>
      rw [writeByteFrom_accepted]
      exact (ih (by omega) u).cons hresps (hstream (by simp))
    | acceptedIoErr =>
      rw [writeByteFrom_ioErr]
      exact (countsBits_respond bits (by omega) u .eIo).cons hresps (hstream (by simp))
    | full =>
      obtain rfl : u = s := hfull rfl
      rw [writeByteFrom_full]
      exact countsBits_respond _ (by omega) u .eCapacity
    | waiting =>
      rw [writeByteFrom_waiting]
      exact .inl hresps

/-- The same from a bit that PutBit has not refused on. -/
theorem writeByteFrom_counts (byte : Byte) (bits : List Bool) {done : Nat} (hd : done + 1 + bits.length ≤ 8)
    {r : PutEnd × State} (hr : r.1 ≠ .full) : CountsBits bits (done + 1) r.2 (writeByteFrom byte bits done r) := by
  obtain ⟨e, u⟩ := r
  cases e with
  | accepted => rw [writeByteFrom_accepted]; exact writeBits_counts byte bits hd u
  | acceptedIoErr => rw [writeByteFrom_ioErr]; exact countsBits_respond bits (by omega) u .eIo
  | full => exact (hr rfl).elim
  | waiting => rw [writeByteFrom_waiting]; exact .inl rfl

end Stream

theorem exec_snkWriteByte_counts (v : Byte) {s t : State} (he : exec (.snkWriteByte (Operands.ofImm v)) s = .next t) :
    CountsBits (byteBits v) 0 s t := by
  cases ho : s.bsnk.isOpen with
  | true =>
    cases (exec_snkWriteByte_open v ho).symm.trans he
    exact writeBits_counts v (byteBits v) le_rfl s
  | false =>
    cases (exec_snkWriteByte_closed ho v).symm.trans he
    exact countsBits_respond (byteBits v) (Nat.zero_le 8) s .eClosed

/-- A response with result 1 says that SNK_WRITE_BIT accepted its bit (R136). -/
theorem exec_snkWriteBit_accepted {s t : State} {b : Bool} {c : Word}
    (he : exec (.snkWriteBit (Operands.ofImm (BitVec.ofNat 8 (num b)))) s = .next t)
    (hr : t.resps = s.resps ++ [⟨c, 1, []⟩]) :
    (s.putBit b).1 ≠ .full ∧ t = writeBitEnd (BitVec.ofNat 8 (num b)) (s.putBit b) := by
  cases ho : s.bsnk.isOpen with
  | true =>
    cases (exec_snkWriteBit_open b ho).symm.trans he
    refine ⟨fun hfull => ?_, rfl⟩
    rw [show s.putBit b = (.full, s) from Prod.ext hfull (putBit_state_of_full hfull)] at hr
    simp [writeBitEnd] at hr
  | false =>
    cases (exec_snkWriteBit_closed ho b).symm.trans he
    simp [answered] at hr

/-- Settles O31: PutBit adds to the stream each bit it does not refuse, and SNK_WRITE_BYTE counts them. -/
theorem acceptedBitComesNext : Obligations.AcceptedBitComesNext := by
  refine ⟨fun s t b c he hr => ?_, fun s t v c w he hr => ?_, fun s t imm hrst hj he => ?_,
    fun s t v done c w hrst hj hd he hr => ?_⟩
  · obtain ⟨hfull, rfl⟩ := exec_snkWriteBit_accepted he hr
    rw [(writeBitEnd_ends _ _).stream, putBit_stream s b hfull]
  · simpa using (exec_snkWriteByte_counts v he).stream hr
  · rw [step_busy hrst hj] at he
    cases he
    rw [(writeBitEnd_ends _ _).stream, putAfterWrite_stream]
  · rw [step_busy hrst hj] at he
    cases he
    have hlen : done + 1 + ((byteBits v).drop (done + 1)).length ≤ 8 := by simp; omega
    have hcounts := writeByteFrom_counts v _ hlen (putAfterWrite_ne_full s.portWrite)
    have hstream := hcounts.stream (by rw [hr, (putAfterWrite_moves s).kept.resps])
    rwa [putAfterWrite_stream, ← List.drop_take] at hstream

/-! ### Flush (R135, R138, R140, R141) -/

/-- The sink with the bytes `l` to write and no bit pending. -/
def heldBytes (k : Bsnk) (l : List Byte) : Bsnk := { k with acc := 0, nbits := 0, buf := l }

section Held

variable {k : Bsnk}

theorem pendingBits_length (k : Bsnk) : (pendingBits k).length = k.nbits.toNat := by
  have := k.nbits.isLt
  rw [pendingBits, List.length_drop, byteBits_length]
  omega

theorem sinkBits_eq_nil (k : Bsnk) : sinkBits k = [] ↔ k.buf = [] ∧ k.nbits = 0 := by
  have hbuf : unpack k.buf = [] ↔ k.buf = [] := by simp [← List.length_eq_zero_iff]
  have hpending : pendingBits k = [] ↔ k.nbits = 0 := by
    rw [← List.length_eq_zero_iff, pendingBits_length, ← BitVec.toNat_inj]
    rfl
  rw [sinkBits, List.append_eq_nil_iff, hbuf, hpending]

/-- A legal sink with no bit pending holds its bytes only. -/
theorem heldBytes_self {c : Config} (h : BsnkInv c k) (hn : k.nbits = 0) : heldBytes k k.buf = k := by
  have hacc := acc_zero h hn
  cases k; cases hn; cases hacc; rfl

theorem pack_pendingBits (hn : k.nbits ≠ 0) : pack (pendingBits k) = [paddedByte k] :=
  (padded_pending k.acc k.nbits hn).symm

/-- Padding the partial byte packs the bits held (R135, R143). -/
theorem padded_eq_heldBytes (hn : k.nbits ≠ 0) : padded k = heldBytes k (pack (sinkBits k)) := by
  rw [pack_sinkBits, pack_pendingBits hn]
  rfl

end Held

section Flush

variable {s : State} {as : List PortOAnswer} {f : Finalize} {out : Host.Outcome State Fault Refusal}

/-- What a finalizing command leaves of a sink with nothing held (R138, R140, R141). -/
theorem flushDone_empty (f : Finalize) (w : Nat) (s : State) (k : Bsnk) :
    flushDone f w (s.setBsnk (heldBytes k [])) =
      { answered s 0 (resultWord w) [] with bsnk := finalized k f } := by
  cases f <;> rfl

theorem padIfRoom_oneWrite (hk : BsnkInv s.cfg s.bsnk) (h : oneWrite s) :
    s.padIfRoom = s.setBsnk (heldBytes s.bsnk (pack (sinkBits s.bsnk))) := by
  by_cases hn : s.bsnk.nbits = 0
  · rw [pack_sinkBits, pendingBits_zero _ hn, pack_nil, List.append_nil, heldBytes_self hk hn]
    exact if_neg (by simp [hn])
  · rw [← padded_eq_heldBytes hn]
    exact if_pos ⟨hn, h.resolve_left hn⟩

theorem padIfRoom_twoWrites (h : twoWrites s) : s.padIfRoom = s := if_neg (by simp [h.2])

theorem flushFirstEnd_ok_held {n : Nat} {k : Bsnk} :
    flushFirstEnd f (.ok, n, s.setBsnk (heldBytes k [])) =
      { answered s 0 (resultWord n) [] with bsnk := finalized k f } := by
  rw [flushFirstEnd, flushSecond, if_pos (by rfl), flushDone_empty]

/-- A partial byte that had no room is padded and written now. -/
theorem flushSecond_pending (w : Nat) (hn : s.bsnk.nbits ≠ 0) :
    flushSecond f w s =
      flushSecondEnd f w (s.setBsnk (heldBytes s.bsnk (pack (pendingBits s.bsnk)))).portWrite := by
  rw [flushSecond, if_neg hn, drain_nonempty (by simp), pack_pendingBits hn]
  rfl

/-- With nothing held a finalizing command makes no transaction. -/
theorem flushRun_nothing (h : flushRun f s out) (hb : sinkBits s.bsnk = []) :
    out = .next { answered s 0 0 [] with bsnk := finalized s.bsnk f } := by
  obtain ⟨hk, -, ⟨rfl, ho, hf⟩ | ⟨-, -, -, hne, -⟩⟩ := h
  · obtain ⟨hbuf, hn⟩ := (sinkBits_eq_nil _).1 hb
    have hself : s.setBsnk (heldBytes s.bsnk []) = s := by rw [← hbuf, heldBytes_self hk hn]; rfl
    have hpad : s.padIfRoom = s := if_neg (by simp [hn])
    rw [exec_finalizeCommand ho hf, flushFor, hpad, drain_empty hbuf]
    conv_lhs => rw [← hself]
    rw [flushFirstEnd_ok_held, resultWord_of_lt (by decide)]
    rfl
  · exact (hne ((sinkBits_eq_nil _).1 hb).1).elim

/-- With bits held, run now or gone on with, a finalizing command pads if there is room, and goes on as port O answers
the write. -/
theorem flushRun_eq (h : flushRun f s out) (hb : sinkBits s.bsnk ≠ []) :
    out = .next (flushFirstEnd f s.padIfRoom.portWrite) := by
  obtain ⟨-, hcap, ⟨rfl, ho, hf⟩ | ⟨rfl, hr, hj, -, hnroom⟩⟩ := h
  · rw [exec_finalizeCommand ho hf, flushFor, drain_nonempty]
    unfold State.padIfRoom
    split
    · simp [padded]
    · next hroom =>
      intro hbuf
      by_cases hn : s.bsnk.nbits = 0
      · exact hb ((sinkBits_eq_nil _).2 ⟨hbuf, hn⟩)
      · exact hroom ⟨hn, by rw [hbuf]; exact hcap⟩
  · have hpad : s.padIfRoom = s := if_neg fun ⟨hn, hroom⟩ => hroom.ne (hnroom.resolve_left hn)
    rw [step_busy hr hj, State.resume, hpad]

theorem flushRun_oneWrite (h : flushRun f s out) (hb : sinkBits s.bsnk ≠ []) (h1 : oneWrite s) :
    out = .next (flushFirstEnd f (s.setBsnk (heldBytes s.bsnk (pack (sinkBits s.bsnk)))).portWrite) := by
  rw [flushRun_eq h hb, padIfRoom_oneWrite h.1 h1]

theorem flushRun_twoWrites (h : flushRun f s out) (h2 : twoWrites s) : out = .next (flushFirstEnd f s.portWrite) := by
  rw [flushRun_eq h fun hb => h2.1 ((sinkBits_eq_nil _).1 hb).2, padIfRoom_twoWrites h2]

/-- After a first write that port O took, the padded byte is written (R135). -/
theorem flushFirstEnd_twoWrites (hn : s.bsnk.nbits ≠ 0) (hp : s.portO = .ok :: as) :
    flushFirstEnd f s.portWrite =
      flushSecondEnd f s.bsnk.buf.length
        ((s.wrote .ok as).setBsnk (heldBytes s.bsnk (pack (pendingBits s.bsnk)))).portWrite := by
  rw [portWrite_ok hp, flushFirstEnd]
  exact flushSecond_pending _ hn

end Flush

/-- Settles O33: one or two writes that port O takes, and the sink is done. -/
theorem finalizingDeliversEveryBit : Obligations.FinalizingDeliversEveryBit := by
  refine ⟨fun s out f as h => ?_, fun s f written as hr hj hacc hn hp hlt ho => ?_,
    fun s n hc hn => exec_snkOpen_closed hc hn⟩
  · intro w
    refine ⟨fun hb => flushRun_nothing h hb, fun hb h1 hp hw => ?_, fun h2 hp hw => ?_⟩
    · rw [flushRun_oneWrite h hb h1, portWrite_ok (by exact hp), ← resultWord_of_lt hw]
      exact congrArg Host.Outcome.next flushFirstEnd_ok_held
    · have hpack : w = s.bsnk.buf ++ pack (pendingBits s.bsnk) := pack_sinkBits s.bsnk
      refine ⟨?_, hpack⟩
      rw [flushRun_twoWrites h h2, flushFirstEnd_twoWrites h2.1 hp, portWrite_ok (by rfl), ← resultWord_of_lt hw, hpack,
        List.length_append, List.append_cons s.trace]
      exact congrArg Host.Outcome.next (flushDone_empty f _ _ s.bsnk)
  · rw [step_busy hr hj, State.resume, portWrite_ok hp, ← resultWord_of_lt hlt]
    have hheld : { s.bsnk with buf := [] } = heldBytes s.bsnk [] := by rw [heldBytes, ← hacc, ← hn]
    rw [hheld]
    exact congrArg Host.Outcome.next (flushDone_empty f _ _ s.bsnk)

/-- Settles O34: each write that fails, or is not answered, leaves the bits where they are. -/
theorem failedFinalizingKeepsEveryBit : Obligations.FailedFinalizingKeepsEveryBit := by
  refine ⟨fun s out f as h => ?_, fun s f written as hr hj hlt hp => ?_⟩
  · intro w p
    refine ⟨fun hb h1 => ⟨fun hp => ?_, fun hp => ?_⟩,
      fun h2 => ⟨fun hp => ?_, fun hp => ?_, fun hp hlt => ?_, fun hp => ?_⟩⟩
    · rw [flushRun_oneWrite h hb h1, portWrite_ioErr (by exact hp), flushFirstEnd, resultWord_of_lt (by decide)]
      rfl
    · rw [flushRun_oneWrite h hb h1, portWrite_waits (by exact hp)]
      rfl
    · rw [flushRun_twoWrites h h2, portWrite_ioErr hp, flushFirstEnd, resultWord_of_lt (by decide)]
      rfl
    · rw [flushRun_twoWrites h h2, portWrite_waits hp]
      rfl
    · rw [flushRun_twoWrites h h2, flushFirstEnd_twoWrites h2.1 hp, portWrite_ioErr (by rfl), flushSecondEnd,
        Nat.add_zero, resultWord_of_lt hlt, List.append_cons s.trace]
      rfl
    · rw [flushRun_twoWrites h h2, flushFirstEnd_twoWrites h2.1 hp, portWrite_waits (by rfl)]
      rfl
  · rw [step_busy hr hj, State.resume, portWrite_ioErr hp, flushSecondEnd, Nat.add_zero, resultWord_of_lt hlt]
    rfl

end Sys2Proof.Machine
end

section
/-! Serialized trees and codes: what a parse makes of the bits it is given, and where the code of a byte value stands
among the paths (43_tree.md R166 to R175). -/

namespace Sys2Proof.Machine

open Sys2Proof.Claims

/-! ### TREE_SERIALIZE -/

theorem serialize_length_eq (t : FreqTree) : (serialize t).length = 10 * treeLeaves t - 1 := by
  have h := serialize_length t
  omega

/-- Settles O41: the length of the bits, that of their bytes, and the padding of the last byte. -/
theorem serializedSize : Obligations.SerializedSize := by
  intro t
  refine ⟨serialize_length_eq t, ?_, _, unpack_pack (serialize t), ?_⟩
  · rw [pack_length, serialize_length_eq]
  · omega

/-- The nine bits of a lone Leaf, packed (R168). -/
theorem pack_leafBits (b : Byte) : pack (true :: byteBits b) = [(0x80 : Byte) ||| (b >>> 1), (b &&& 1) <<< 7] := by
  revert b; decide +kernel

/-- Settles O40: with no operand to fail a check, the body answers as the tree store says. -/
theorem serializeReturnsTheTree : Obligations.SerializeReturnsTheTree := by
  refine ⟨fun s u hu hlt => ?_, fun s hs => ?_, rfl, fun b w => ⟨rfl, pack_leafBits b⟩⟩
  · rw [exec_bare rfl rfl, commandBody, treeSerializeBody, hu, ← resultWord_of_lt hlt]
    rfl
  · rw [exec_bare rfl rfl, commandBody, treeSerializeBody, hs]
    rfl

/-! ### TREE_DESERIALIZE of a whole tree -/

/-- A payload within the capacity passes the operand checks of TREE_DESERIALIZE. -/
theorem exec_treeDeserialize {s : State} {p : List Byte} (hc : s.cfg.cmdPayloadMax < 2 ^ 32)
    (hp : p.length ≤ s.cfg.cmdPayloadMax) :
    exec (.treeDeserialize (Operands.ofPayload p)) s = .next (treeDeserializeBody p s) := by
  rw [exec_eq_checked, checked_ok _ (operandError_ofPayload hc hp)]
  rfl

/-- Bits that begin with a serialized tree that fits are parsed to it (R169, R175). -/
theorem deserialize_prefix {max : Nat} {t : FreqTree} {p : List Byte} {rest : List Bool} (hn : treeNodes t ≤ max)
    (hp : unpack p = serialize t ++ rest) : deserialize max p = .tree (zeroWeights t) rest (treeNodes t) := by
  rw [deserialize, hp, parseTree_serialize max t max 0 rest hn (by omega), Nat.zero_add]

/-- Settles O42: the parse reads the tree's bits and leaves the rest, and the padded bytes begin with the bits. -/
theorem deserializeOfSerialize : Obligations.DeserializeOfSerialize := by
  intro s u hn hc hlt parsed
  have hparsed : ∀ p : List Byte, serialize u <+: unpack p → p.length ≤ s.cfg.cmdPayloadMax →
      exec (.treeDeserialize (Operands.ofPayload p)) s = parsed := by
    rintro p ⟨rest, hrest⟩ hp
    have hread : 8 * p.length - rest.length = (serialize u).length := by
      have hlen := congrArg List.length hrest
      rw [List.length_append, unpack_length] at hlen
      omega
    have hres : resultWord (8 * p.length - rest.length) = BitVec.ofNat 32 (10 * treeLeaves u - 1) := by
      rw [hread, resultWord_of_lt hlt, serialize_length_eq]
    rw [exec_treeDeserialize hc hp, treeDeserializeBody, deserialize_prefix hn hrest.symm]
    simp only [hres]
    rfl
  refine ⟨hparsed, fun more hmore => hparsed _ ?_ hmore⟩
  rw [unpack_append, unpack_pack, List.append_assoc]
  exact List.prefix_append _ _

/-! ### Nodes in pre-order -/

/-- An initial part of two lists one after the other ends in the first, or holds it and ends in the second. -/
theorem prefix_append_cases {α : Type} {us as bs : List α} (h : us <+: as ++ bs) :
    us <+: as ∨ ∃ ws, us = as ++ ws ∧ ws <+: bs := by
  obtain hl | ⟨ws, rfl⟩ := List.prefix_or_prefix_of_prefix h (List.prefix_append as bs)
  · exact .inl hl
  · exact .inr ⟨ws, rfl, (List.prefix_append_right_inj as).1 h⟩

/-- The nodes of a tree in pre-order: `none` a Composite, a byte a Leaf. -/
def preorder : FreqTree → List (Option Byte)
  | .leaf b _ => [some b]
  | .composite _ l r => none :: (preorder l ++ preorder r)

/-- The serialized form is the bits of the nodes in pre-order (R166). -/
theorem serialize_eq_flatMap (t : FreqTree) : serialize t = (preorder t).flatMap nodeBits := by
  induction t with
  | leaf b w => simp [serialize, preorder, nodeBits]
  | composite w l r ihl ihr => simp [serialize, preorder, nodeBits, ihl, ihr]

theorem preorder_length (t : FreqTree) : (preorder t).length = treeNodes t := by
  induction t with
  | leaf b w => rfl
  | composite w l r ihl ihr => simp [preorder, treeNodes, ihl, ihr]; omega

/-- A whole tree has one Leaf more than Composites. -/
theorem preorder_excess (t : FreqTree) : (preorder t).countP (·.isSome) = (preorder t).count none + 1 := by
  induction t with
  | leaf b w => rfl
  | composite w l r ihl ihr => simp [preorder, ihl, ihr]; omega

/-- No initial part of a tree's nodes has more than one Leaf more than Composites. -/
theorem preorder_prefix_excess {t : FreqTree} {us : List (Option Byte)} (h : us <+: preorder t) :
    us.countP (·.isSome) ≤ us.count none + 1 := by
  induction t generalizing us with
  | leaf b w =>
    have hlen : us.countP (·.isSome) ≤ us.length := List.countP_le_length
    have hone : us.length ≤ 1 := h.length_le
    omega
  | composite w l r ihl ihr =>
    obtain rfl | ⟨vs, rfl, hvs⟩ := List.prefix_cons_iff.1 h
    · exact Nat.zero_le _
    · obtain hl | ⟨ws, rfl, hws⟩ := prefix_append_cases hvs
      · have := ihl hl
        simp; omega
      · have := ihr hws
        simp [preorder_excess]; omega

/-- The nodes of a tree whose parse has begun and is not done: it has not begun its root, or it is in the left child,
or in the right child behind a whole left one. -/
inductive PartialTree : List (Option Byte) → Prop
  | root : PartialTree []
  | left {ns : List (Option Byte)} : PartialTree ns → PartialTree (none :: ns)
  | right (l : FreqTree) {ns : List (Option Byte)} : PartialTree ns → PartialTree (none :: (preorder l ++ ns))

theorem PartialTree.unfinished {ns : List (Option Byte)} (h : PartialTree ns) : unfinished ns := by
  induction h with
  | root =>
    intro us hus
    rw [List.prefix_nil.1 hus]
    exact Nat.zero_le _
  | left _ ih =>
    intro us hus
    obtain rfl | ⟨vs, rfl, hvs⟩ := List.prefix_cons_iff.1 hus
    · exact Nat.zero_le _
    · have := ih vs hvs
      simp; omega
  | right l _ ih =>
    intro us hus
    obtain rfl | ⟨vs, rfl, hvs⟩ := List.prefix_cons_iff.1 hus
    · exact Nat.zero_le _
    · obtain hl | ⟨ws, rfl, hws⟩ := prefix_append_cases hvs
      · have := preorder_prefix_excess hl
        simp; omega
      · have := ih ws hws
        simp [preorder_excess]; omega

/-- Nodes in pre-order begin with a whole tree or make none yet. -/
theorem whole_or_partialTree (ns : List (Option Byte)) : (∃ t, preorder t <+: ns) ∨ PartialTree ns := by
  induction hk : ns.length using Nat.strong_induction_on generalizing ns with
  | _ k ih =>
    match ns with
    | [] => exact .inr .root
    | some b :: ms => exact .inl ⟨.leaf b 0, by simp [preorder]⟩
    | none :: ms =>
      obtain ⟨l, ls, rfl⟩ | hl := ih ms.length (by simp [← hk]) ms rfl
      · obtain ⟨r, rs, rfl⟩ | hr := ih ls.length (by simp [← hk]) ls rfl
        · exact .inl ⟨.composite 0 l r, rs, by simp [preorder]⟩
        · exact .inr (.right l hr)
      · exact .inr (.left hl)

/-- Nodes that make no whole tree yet, as the statements count them, are a part of a tree (R169). -/
theorem unfinished_iff (ns : List (Option Byte)) : unfinished ns ↔ PartialTree ns := by
  refine ⟨fun h => (whole_or_partialTree ns).resolve_left ?_, PartialTree.unfinished⟩
  rintro ⟨t, ht⟩
  have hle := h _ ht
  rw [preorder_excess] at hle
  omega

/-! ### TREE_DESERIALIZE of a part of a tree -/

/-- A parse that has read a part of a tree within the capacity ends as it ends on the bits that follow, when it fails on
them (R169). -/
theorem parseTree_partialTree {max fuel n : Nat} {ns : List (Option Byte)} {rest : List Bool} {e : ParseEnd}
    (h : PartialTree ns) (he : ∀ t bits m, e ≠ .tree t bits m) (hn : n + ns.length ≤ max) (hf : max ≤ n + fuel)
    (hrest : ∀ fuel, max ≤ n + ns.length + fuel → parseTree max fuel rest (n + ns.length) = e) :
    parseTree max fuel (ns.flatMap nodeBits ++ rest) n = e := by
  induction h generalizing n fuel with
  | root => exact hrest fuel hf
  | @left ms _ ih =>
    simp only [List.length_cons] at hn hrest
    obtain ⟨fuel, rfl⟩ : ∃ k, fuel = k + 1 := ⟨fuel - 1, by omega⟩
    have hleft : parseTree max fuel (ms.flatMap nodeBits ++ rest) (n + 1) = e :=
      ih (by omega) (by omega) (by rwa [Nat.add_right_comm])
    simp only [List.flatMap_cons, nodeBits, List.cons_append, List.nil_append, parseTree,
      if_neg (show ¬max < n + 1 by omega), Bool.false_eq_true, if_false, hleft]
  | @right l ms _ ih =>
    simp only [List.length_cons, List.length_append, preorder_length] at hn hrest
    obtain ⟨fuel, rfl⟩ : ∃ k, fuel = k + 1 := ⟨fuel - 1, by omega⟩
    have hleft := parseTree_serialize max l fuel (n + 1) (ms.flatMap nodeBits ++ rest) (by omega) (by omega)
    have hright : parseTree max fuel (ms.flatMap nodeBits ++ rest) (n + 1 + treeNodes l) = e :=
      ih (by omega) (by omega) (by
        rwa [show n + 1 + treeNodes l + ms.length = n + (treeNodes l + ms.length + 1) by omega])
    simp only [List.flatMap_cons, List.flatMap_append, ← serialize_eq_flatMap, nodeBits, List.cons_append,
      List.nil_append, List.append_assoc, parseTree, if_neg (show ¬max < n + 1 by omega), Bool.false_eq_true, if_false,
      hleft, hright]

/-- A Leaf that may begin and whose bits run out is malformed (R169). -/
theorem parseTree_cutLeaf {max fuel n : Nat} {rest : List Bool} (hn : n < max) (hf : max ≤ n + fuel)
    (hhead : rest.head? = some true) (hlen : rest.length < 9) : parseTree max fuel rest n = .malformed := by
  obtain ⟨fuel, rfl⟩ : ∃ k, fuel = k + 1 := ⟨fuel - 1, by omega⟩
  obtain ⟨bits, rfl⟩ := List.head?_eq_some_iff.1 hhead
  simp only [List.length_cons] at hlen
  simp only [parseTree, if_neg (show ¬max < n + 1 by omega), if_true, readByte, if_pos (show bits.length < 8 by omega)]

/-- A node more than the capacity allows is refused (R169). -/
theorem parseTree_full {max : Nat} (fuel : Nat) {bits : List Bool} (h : bits ≠ []) :
    parseTree max fuel bits max = .treeCapacity := by
  match fuel, bits, h with
  | 0, _ :: _, _ => rfl
  | _ + 1, _ :: _, _ => simp [parseTree]

/-- A parse of a payload whose bits begin with a part of a tree. -/
theorem deserialize_partialTree {max : Nat} {p : List Byte} {ns : List (Option Byte)} {rest : List Bool} {e : ParseEnd}
    (hp : unpack p = ns.flatMap nodeBits ++ rest) (h : PartialTree ns) (he : ∀ t bits m, e ≠ .tree t bits m)
    (hn : ns.length ≤ max) (hrest : ∀ fuel, max ≤ ns.length + fuel → parseTree max fuel rest ns.length = e) :
    deserialize max p = e := by
  rw [deserialize, hp]
  exact parseTree_partialTree h he (by omega) (by omega) (by simpa only [Nat.zero_add] using hrest)

/-- How bits behind `len` nodes of a part of a tree fail: they end there, or inside a Leaf that may begin, or one
node more than `max` begins (R169). -/
def Stuck (max len : Nat) (rest : List Bool) : Prop :=
  (len ≤ max ∧ rest = []) ∨ (len < max ∧ rest.head? = some true ∧ rest.length < 9) ∨
    (len = max ∧ rest ≠ [])

/-- Nodes before the part count with it. -/
theorem Stuck.shift {max len max' len' : Nat} {rest : List Bool} (h : Stuck max len rest) (k : Nat)
    (hmax : max' = max + k) (hlen : len' = len + k) : Stuck max' len' rest := by
  subst hmax hlen
  simpa [Stuck] using h

/-- Bits begin with a serialized tree that fits, or with a part of one behind which they fail. -/
theorem fits_or_stuck (max : Nat) (bits : List Bool) :
    (∃ u, treeNodes u ≤ max ∧ serialize u <+: bits) ∨
      ∃ ns rest, bits = ns.flatMap nodeBits ++ rest ∧ PartialTree ns ∧ Stuck max ns.length rest := by
  induction max using Nat.strong_induction_on generalizing bits with
  | _ max ih =>
    match max, bits with
    | max, [] => exact .inr ⟨[], [], rfl, .root, .inl ⟨Nat.zero_le _, rfl⟩⟩
    | 0, b :: bits => exact .inr ⟨[], b :: bits, rfl, .root, .inr (.inr ⟨rfl, List.cons_ne_nil _ _⟩)⟩
    | max + 1, true :: bits =>
      by_cases hlen : bits.length < 8
      · exact .inr ⟨[], true :: bits, rfl, .root,
          .inr (.inl ⟨Nat.succ_pos _, rfl, by simp only [List.length_cons]; omega⟩)⟩
      · have hbyte : readByte bits = some (byteOfBits bits, bits.drop 8) := if_neg hlen
        exact .inl ⟨.leaf (byteOfBits bits) 0, Nat.le_add_left _ _, bits.drop 8, by
          rw [serialize, List.cons_append, ← readByte_eq_some hbyte]⟩
    | max + 1, false :: bits =>
      obtain ⟨l, hl, bits, rfl⟩ | ⟨ns, rest, rfl, hpart, hstuck⟩ := ih max (Nat.lt_succ_self _) bits
      · obtain ⟨r, hr, bits, rfl⟩ | ⟨ns, rest, rfl, hpart, hstuck⟩ := ih (max - treeNodes l) (by omega) bits
        · exact .inl ⟨.composite 0 l r, by rw [treeNodes]; omega, bits, by simp [serialize]⟩
        · exact .inr ⟨none :: (preorder l ++ ns), rest, by simp [nodeBits, serialize_eq_flatMap], .right l hpart,
            hstuck.shift (treeNodes l + 1) (by omega) (by simp [preorder_length]; omega)⟩
      · exact .inr ⟨none :: ns, rest, by simp [nodeBits], .left hpart, hstuck.shift 1 rfl rfl⟩

/-- Settles O43: the parse fails on the bits behind the part of a tree, and every payload is such a part or a tree. -/
theorem deserializeFailures : Obligations.DeserializeFailures := by
  refine ⟨fun s p ns rest hc hp hbits hns => ?_, fun max p => ?_⟩
  · have hpart := (unfinished_iff ns).1 hns
    rw [exec_treeDeserialize hc hp, treeDeserializeBody]
    refine ⟨fun hn hrest => ?_, fun hn hhead hlen => ?_, fun hn hrest => ?_⟩
    · rw [deserialize_partialTree (e := .malformed) hbits hpart nofun hn fun fuel _ => by
        rw [hrest]; cases fuel <;> rfl]
      rfl
    · rw [deserialize_partialTree (e := .malformed) hbits hpart nofun hn.le fun fuel hf =>
        parseTree_cutLeaf hn hf hhead hlen]
      rfl
    · rw [deserialize_partialTree (e := .treeCapacity) hbits hpart nofun hn.le fun fuel _ => by
        rw [hn]; exact parseTree_full fuel hrest]
      rfl
  · simpa only [unfinished_iff, Stuck] using fits_or_stuck max (unpack p)

/-! ### Codes -/

/-- Where a path leads to a Leaf that holds a byte value, that value has a code, and the path is it or comes after it
(R171). -/
theorem codeOf_first {t : FreqTree} {b : Byte} {q : List Bool} {w : Weight} (h : nodeAt t q = some (.leaf b w)) :
    ∃ p, codeOf t b = some p ∧ (q = p ∨ before p q) := by
  induction t generalizing q with
  | leaf s v =>
    cases q with
    | nil => cases h; exact ⟨[], if_pos rfl, .inl rfl⟩
    | cons c q => cases h
  | composite v l r ihl ihr =>
    match q, h with
    | false :: q, h =>
      obtain ⟨p, hp, hq⟩ := ihl h
      refine ⟨false :: p, by rw [codeOf, hp], hq.imp (congrArg _) ?_⟩
      rintro ⟨d, p', q', rfl, rfl⟩
      exact ⟨false :: d, p', q', rfl, rfl⟩
    | true :: q, h =>
      cases hl : codeOf l b with
      | some p => exact ⟨false :: p, by rw [codeOf, hl], .inr ⟨[], p, q, rfl, rfl⟩⟩
      | none =>
        obtain ⟨p, hp, hq⟩ := ihr h
        refine ⟨true :: p, by rw [codeOf, hl, hp]; rfl, hq.imp (congrArg _) ?_⟩
        rintro ⟨d, p', q', rfl, rfl⟩
        exact ⟨true :: d, p', q', rfl, rfl⟩

/-- Settles O44: a code leads to its Leaf, and every such path is the code or comes after it. -/
theorem codesAreLeafPaths : Obligations.CodesAreLeafPaths := by
  refine ⟨fun t b => ⟨fun hnone q w hq => ?_, fun hpaths => ?_⟩,
    fun t b p hp => ⟨codeOf_leads hp, codeOf_length hp, ?_⟩, fun b w => if_pos rfl⟩
  · obtain ⟨p, hp, -⟩ := codeOf_first hq
    rw [hnone] at hp
    cases hp
  · rw [Option.eq_none_iff_forall_ne_some]
    intro p hp
    obtain ⟨w, hw⟩ := codeOf_leads hp
    exact hpaths p w hw
  · intro q w hq
    obtain ⟨p', hp', hfirst⟩ := codeOf_first hq
    cases hp.symm.trans hp'
    exact hfirst

/-- Settles O45: a code that began another would lead to the same Leaf. -/
theorem codesArePrefixFree : Obligations.CodesArePrefixFree := by
  intro t a b p q ha hb hne hpre
  obtain ⟨v, hv⟩ := codeOf_leads ha
  obtain ⟨w, hw⟩ := codeOf_leads hb
  have hpath : p = q := nodeAt_leaf_prefix hv hw hpre
  rw [hpath, hw] at hv
  cases hv
  exact hne rfl

end Sys2Proof.Machine
end

section
/-! The tree that TREE_BUILD stores, and the frame of the TREE commands (43_tree.md R160 to R165). -/

namespace Sys2Proof.Machine

open Sys2Proof.Claims

/-! ### The table's counts -/

theorem tableCount_lt (p : List Byte) (b : Nat) : tableCount p b < 2 ^ 64 :=
  (fromLe_lt _).trans_le (Nat.pow_le_pow_right (n := 256) (by decide) (List.length_take_le 8 _))

/-- The counts of the table in the order of the byte values (30_encoding.md R91). -/
theorem tableCounts_eq_map (n : Nat) (p : List Byte) :
    tableCounts n p = (List.range n).map fun b => BitVec.ofNat 64 (tableCount p b) := by
  refine List.ext_getElem? fun b => ?_
  by_cases hb : b < n
  · rw [tableCounts_get n p b hb, List.getElem?_map, List.getElem?_range hb]
    rfl
  · rw [List.getElem?_eq_none (by rw [tableCounts_length]; omega), List.getElem?_eq_none (by simp; omega)]

/-- A table's count is nonzero as a word, and a weight, as it is as a number. -/
theorem tableCount_seed (p : List Byte) (b : Nat) :
    (BitVec.ofNat 64 (tableCount p b) = 0 ↔ tableCount p b = 0) ∧
      (BitVec.ofNat 64 (tableCount p b)).zeroExtend 72 = BitVec.ofNat 72 (tableCount p b) :=
  count_seed (Nat.mod_eq_of_lt (tableCount_lt p b))

/-- A build of a table starts from the Leaves of its nonzero counts (R161). -/
theorem seedLeaves_tableCounts (p : List Byte) : seedLeaves 0 (tableCounts 256 p) = leavesOf (tableCount p) := by
  rw [tableCounts_eq_map, List.range_eq_range', seedLeaves_map, leavesOf, List.range_eq_range']
  refine List.filterMap_congr fun b _ => ?_
  obtain ⟨hzero, hweight⟩ := tableCount_seed p b
  simp only [hzero, hweight]

/-- The Leaves of a tree built of a table hold the nonzero counts, each at its byte value (R161). -/
theorem mem_treeLeafList_built {draw : Nat → Nat} {k : Nat} {p : List Byte} {u : FreqTree}
    (hu : (buildTree draw k (tableCounts 256 p)).1 = some u) (b : Byte) (w : Weight) :
    (b, w) ∈ treeLeafList u ↔ w.toNat = tableCount p b.toNat ∧ w ≠ 0 := by
  obtain ⟨-, -, hmem⟩ := buildTree_some (tableCounts_length 256 p).le hu
  obtain ⟨hzero, hweight⟩ := tableCount_seed p b.toNat
  have hlt : tableCount p b.toNat < 2 ^ 72 := (tableCount_lt p _).trans (by decide)
  rw [hmem, ← weight_of_count hlt, ← hweight, ne_eq, ← hzero, tableCounts_get 256 p b.toNat b.isLt]
  simp [tableCount]

/-- A build of a table is EMPTY exactly when every count is 0 (R164). -/
theorem buildTree_tableCounts_none (draw : Nat → Nat) (k : Nat) (p : List Byte) :
    (buildTree draw k (tableCounts 256 p)).1 = none ↔ ∀ b < 256, tableCount p b = 0 := by
  rw [buildTree_none_iff, tableCounts_eq_map, List.forall_mem_map]
  simp only [List.mem_range, (tableCount_seed p _).1]

/-! ### TREE_BUILD -/

/-- A payload of 2048 bytes passes the operand checks of TREE_BUILD. -/
theorem exec_treeBuild {s : State} {p : List Byte} (hc : 2048 ≤ s.cfg.cmdPayloadMax) (hp : p.length = 2048) :
    exec (.treeBuild (Operands.ofPayload p)) s = .next (treeBuildBody p s) := by
  have hcheck : operandError s.cfg ⟨.unused, .tableLen⟩ (Operands.ofPayload p) = none := by
    rw [operandError_none_iff]
    simp [FailsCheck, Operands.ofPayload, isLenClass, immInRange, argInRange, hp, hc]
  rw [exec_eq_checked, checked_ok _ hcheck]
  rfl

/-- A payload that is no frequency table fails an operand check (30_encoding.md R81). -/
theorem exec_treeBuild_badLength {s : State} {p : List Byte} (hp : p.length ≠ 2048) :
    exec (.treeBuild (Operands.ofPayload p)) s = .next (answered s 0x11 0 []) := by
  refine (operandErrorsEndTheCommand _ s).1 ?_
  by_cases harg : (Operands.ofPayload p).arg.toNat = 2048
  · exact .inr (.inr (.inr (.inl ⟨trivial, fun hlen => hp (hlen.trans harg)⟩)))
  · exact .inr (.inr (.inr (.inr harg)))

/-- Settles O38: the body stores what the build of the table's counts answers, a tree of R162's merges or none. -/
theorem treeBuildStoresABuiltTree : Obligations.TreeBuildStoresABuiltTree := by
  refine ⟨fun s p hc hp hcounts => ?_, fun s p hc hp hzero => ?_, fun s p hp => exec_treeBuild_badLength hp,
    fun p hp => ?_⟩
  · match hb : buildTree Config.tieBreak s.draws (tableCounts 256 p) with
    | (none, k) =>
      obtain ⟨b, hlt, hne⟩ := hcounts
      exact (hne ((buildTree_tableCounts_none _ _ p).1 (congrArg Prod.fst hb) b hlt)).elim
    | (some u, k) =>
      have hu := congrArg Prod.fst hb
      obtain ⟨⟨hdistinct, -, hsums⟩, hleaves, -⟩ := buildTree_some (tableCounts_length 256 p).le hu
      have hsmall : treeLeaves u ≤ 256 := by
        rw [hleaves]
        exact List.countP_le_length.trans (tableCounts_length 256 p).le
      have hmerges : MergesTo (leavesOf (tableCount p)) u := seedLeaves_tableCounts p ▸ mergeLoop_merges _ _ _ _ hu
      refine ⟨u, k, ?_, hmerges, mem_treeLeafList_built hu, hdistinct, hsums, hsmall, treeNodes_eq u⟩
      rw [exec_treeBuild hc hp, treeBuildBody, hb, ← resultWord_of_lt (by omega)]
      rfl
  · have hseed : seedLeaves 0 (tableCounts 256 p) = [] := by
      rw [seedLeaves_tableCounts, leavesOf, List.filterMap_eq_nil_iff]
      exact fun b hb => if_pos (hzero b (List.mem_range.1 hb))
    have hbuild : buildTree Config.tieBreak s.draws (tableCounts 256 p) = (none, s.draws) := by
      rw [buildTree, hseed]; rfl
    rw [exec_treeBuild hc hp, treeBuildBody, hbuild]
    rfl
  · simp [encode, Instr.operands, Instr.opcode, Operands.ofPayload, hp]

/-! ### The frame of the TREE commands -/

/-- TREE_BUILD writes the tree store and the draws, and stores NONE when it fails (R165). -/
theorem treeBuildBody_stores (p : List Byte) (s : State) :
    ∃ u k r, treeBuildBody p s = ((s.setTree u).setDraws k).deliver r ∧ (r.status ≠ 0 → u = none) := by
  unfold treeBuildBody
  split
  · exact ⟨none, _, _, rfl, fun _ => rfl⟩
  · exact ⟨_, _, _, rfl, fun h => (h statusWord_ok).elim⟩

/-- TREE_DESERIALIZE writes the tree store, and stores NONE when it fails (R170). -/
theorem treeDeserializeBody_stores (p : List Byte) (s : State) :
    ∃ u r, treeDeserializeBody p s = (s.setTree u).deliver r ∧ (r.status ≠ 0 → u = none) := by
  unfold treeDeserializeBody
  split
  · exact ⟨none, _, rfl, fun _ => rfl⟩
  · exact ⟨none, _, rfl, fun _ => rfl⟩
  · exact ⟨_, _, rfl, fun h => (h statusWord_ok).elim⟩

/-- Settles O47: a failing operand check only answers, and so do the two commands that read the tree store. -/
theorem treeCommandsFrame : Obligations.TreeCommandsFrame := by
  intro o i s t hi he
  obtain ⟨e, hcheck, hx⟩ | ⟨-, hx⟩ := exec_cases i s <;> cases hx.symm.trans he
  · refine ⟨⟨s.draws, _, rfl, fun _ => rfl, fun hwf => ?_⟩, fun _ => rfl⟩
    rw [(operandCheckIsWellFormed s.cfg i).2 hwf] at hcheck
    cases hcheck
  · obtain rfl | rfl | rfl | rfl := hi
    · obtain ⟨u, k, r, hbody, hfail⟩ := treeBuildBody_stores o.payload s
      rw [commandBody, hbody]
      exact ⟨⟨k, r, rfl, fun hne => (hne rfl).elim, fun _ _ => hfail⟩, nofun⟩
    · obtain ⟨r, hbody⟩ := treeSerializeBody_delivers s
      rw [commandBody, hbody]
      exact ⟨⟨s.draws, r, rfl, fun _ => rfl, nofun⟩, fun _ => rfl⟩
    · obtain ⟨u, r, hbody, hfail⟩ := treeDeserializeBody_stores o.payload s
      rw [commandBody, hbody]
      exact ⟨⟨s.draws, r, rfl, fun _ => rfl, fun _ _ => hfail⟩, nofun⟩
    · obtain ⟨r, hbody⟩ := treeCodeTableBody_delivers s
      rw [commandBody, hbody]
      exact ⟨⟨s.draws, r, rfl, fun _ => rfl, nofun⟩, fun _ => rfl⟩

end Sys2Proof.Machine
end

section
/-! The encoder (44_encoder.md R200 to R202, R208). -/

namespace Sys2Proof.Machine

open Sys2Proof.Claims

/-! ### Counting a chunk (R202) -/

/-- The encoder with a chunk appended, its bytes counted and its length added to the total. -/
def Enc.added (e : Enc) (c : List Byte) : Enc :=
  ⟨e.consumed, e.data ++ c, countBytes e.freq c, e.total + BitVec.ofNat 64 c.length⟩

@[simp] theorem Enc.added_nil (e : Enc) : e.added [] = e := by simp [Enc.added, countBytes]

theorem countBytes_append (f : Vector Count 256) (c d : List Byte) :
    countBytes f (c ++ d) = countBytes (countBytes f c) d := List.foldl_append

theorem Enc.added_append (e : Enc) (c d : List Byte) : e.added (c ++ d) = (e.added c).added d := by
  simp [Enc.added, countBytes_append, BitVec.ofNat_add, BitVec.add_assoc]

theorem Enc.added_total {e : Enc} {c : List Byte} (h : e.total.toNat + c.length < 2 ^ 64) :
    (e.added c).total.toNat = e.total.toNat + c.length := by
  rw [Enc.added, BitVec.toNat_add, BitVec.toNat_ofNat, Nat.mod_eq_of_lt (a := c.length) (by omega), Nat.mod_eq_of_lt h]

/-! ### ENC_ADD_CHUNK (R202) -/

/-- A payload whose length ARG can hold fails none of R81's E_ILLEGAL_ARG checks. -/
theorem not_failsCheck_ofPayload (cfg : Config) {c : List Byte} (h : c.length < 2 ^ 32) :
    ¬FailsCheck cfg ⟨.unused, .len⟩ (Operands.ofPayload c) := by
  have harg : (Operands.ofPayload c).arg.toNat = c.length := Nat.mod_eq_of_lt h
  rw [FailsCheck, harg]
  simp [Operands.ofPayload, isLenClass, immInRange, argInRange]

section AddChunk

variable {s : State} {c : List Byte}

/-- A chunk within the payload capacity passes the operand checks. -/
theorem exec_encAddChunk (hc : c.length < 2 ^ 32) (hp : c.length ≤ s.cfg.cmdPayloadMax) :
    exec (.encAddChunk (Operands.ofPayload c)) s = .next (encAddChunkBody c s) := by
  have harg : (Operands.ofPayload c).arg.toNat = c.length := Nat.mod_eq_of_lt hc
  have hcheck : operandError s.cfg ⟨.unused, .len⟩ (Operands.ofPayload c) = none :=
    operandError_none_iff.2 ⟨not_failsCheck_ofPayload _ hc, fun _ => harg ▸ hp⟩
  rw [exec_eq_checked, checked_ok _ hcheck]
  rfl

theorem exec_encAddChunk_overPayload (hc : c.length < 2 ^ 32) (hp : s.cfg.cmdPayloadMax < c.length) :
    exec (.encAddChunk (Operands.ofPayload c)) s = .next (answered s 0x24 0 []) := by
  have harg : (Operands.ofPayload c).arg.toNat = c.length := Nat.mod_eq_of_lt hc
  exact (operandErrorsEndTheCommand (.encAddChunk (Operands.ofPayload c)) s).2
    (mt (badOperand_iff _ _).1 (not_failsCheck_ofPayload _ hc)) trivial (hp.trans_eq harg.symm)

theorem encAddChunkBody_consumed (c : List Byte) (h : s.enc.consumed = true) :
    encAddChunkBody c s = answered s 0x13 0 [] := by
  rw [encAddChunkBody, if_pos h]; rfl

theorem encAddChunkBody_overCap (hl : s.enc.consumed = false) (h : s.cfg.chunkCap < s.enc.total.toNat + c.length) :
    encAddChunkBody c s = answered s 0x24 0 [] := by
  rw [encAddChunkBody, if_neg (by simp [hl]), if_pos h]; rfl

/-- `s` after it answered OK to the chunk `c`. -/
def State.chunkAdded (s : State) (c : List Byte) : State := { answered s 0 0 [] with enc := s.enc.added c }

theorem exec_encAddChunk_fits (hc : c.length < 2 ^ 32) (hp : c.length ≤ s.cfg.cmdPayloadMax)
    (hl : s.enc.consumed = false) (hcap : s.enc.total.toNat + c.length ≤ s.cfg.chunkCap) :
    exec (.encAddChunk (Operands.ofPayload c)) s = .next (s.chunkAdded c) := by
  rw [exec_encAddChunk hc hp, encAddChunkBody, if_neg (by simp [hl]), if_neg (by omega)]; rfl

end AddChunk

/-- Settles O49: one equation of ENC_ADD_CHUNK per clause; adding no bytes is adding nothing. -/
theorem addChunkCountsEveryByte : Obligations.AddChunkCountsEveryByte := by
  refine ⟨fun s c hc hp => ⟨fun hl hcap => ⟨countBytes s.enc.freq c, ?_, countBytes_get s.enc.freq c⟩, fun h => ?_,
      fun hl hcap => ?_, fun hl hnil hcap => ?_⟩,
    fun s c hc hp => exec_encAddChunk_overPayload hc hp, fun c => ?_⟩
  · rw [exec_encAddChunk_fits hc hp hl hcap, State.chunkAdded, Enc.added, hl]
  · rw [exec_encAddChunk hc hp, encAddChunkBody_consumed c h]
  · rw [exec_encAddChunk hc hp, encAddChunkBody_overCap hl hcap]
  · subst hnil
    rw [exec_encAddChunk_fits hc hp hl hcap, State.chunkAdded, Enc.added_nil]
    rfl
  · simp [encode, Instr.operands, Instr.opcode, Operands.ofPayload]

/-- Settles O51: the first chunk leaves room for the second, and two chunks add what their concatenation adds. -/
theorem chunksConcatenate : Obligations.ChunksConcatenate := by
  intro s c d hl hlt hp hcap h64
  have hlen : (c ++ d).length = c.length + d.length := List.length_append
  have htotal : (s.chunkAdded c).enc.total.toNat = s.enc.total.toNat + c.length := Enc.added_total (by omega)
  have hroom : (s.chunkAdded c).enc.total.toNat + d.length ≤ s.cfg.chunkCap := by omega
  have hd : d.length ≤ s.cfg.cmdPayloadMax := by omega
  exact ⟨s.chunkAdded c, (s.chunkAdded c).chunkAdded d, s.chunkAdded (c ++ d),
    exec_encAddChunk_fits (by omega) (by omega) hl (by omega), exec_encAddChunk_fits (by omega) hd hl hroom,
    exec_encAddChunk_fits hlt hp hl hcap, (Enc.added_append s.enc c d).symm, rfl, rfl, rfl, rfl⟩

/-! ### The encoder is used once (R208) -/

theorem encEncodeBody_enc_consumed (s : State) : (encEncodeBody s).enc.consumed = true := by
  unfold encEncodeBody
  split
  · assumption
  · split <;> rfl

section KeepsEncoder

variable {s t : State}

theorem enc_of_delivers (h : ∃ r, t = s.deliver r) : t.enc = s.enc := by
  obtain ⟨r, rfl⟩ := h; rfl

variable {o : Operands} {i : Instr}

theorem srcCommands_enc
    (hi : i = .srcOpen o ∨ i = .srcNextBit o ∨ i = .srcNextByte o ∨ i = .srcTakeUnconsumed o)
    (he : exec i s = .next t) : t.enc = s.enc := by
  obtain ⟨-, -, henc, -⟩ := srcCommandsFrame o i s t hi he
  exact henc

theorem snkCommands_enc
    (hi : i = .snkOpen o ∨ i = .snkWriteBit o ∨ i = .snkWriteByte o ∨ i = .snkFlush o ∨ i = .snkSetThreshold o ∨
      i = .snkClose o)
    (he : exec i s = .next t) : t.enc = s.enc := by
  obtain ⟨-, -, henc, -⟩ := snkCommandsFrame o i s t hi he
  exact henc

theorem treeCommands_enc
    (hi : i = .treeBuild o ∨ i = .treeSerialize o ∨ i = .treeDeserialize o ∨ i = .treeCodeTable o)
    (he : exec i s = .next t) : t.enc = s.enc := by
  obtain ⟨⟨k, r, ht, -⟩, -⟩ := treeCommandsFrame o i s t hi he
  rw [ht]

/-- Every command but ENC_NEW keeps a consumed encoder as it is (R208). -/
theorem exec_enc_consumed (hi : ∀ o, i ≠ .encNew o) (hc : s.enc.consumed = true) (he : exec i s = .next t) :
    t.enc = s.enc := by
  obtain ⟨e, -, hx⟩ | ⟨-, hx⟩ := exec_cases i s <;> cases hx.symm.trans he
  · rfl
  · cases i with
    | csrRead o => exact enc_of_delivers (csrReadBody_delivers _ s)
    | srcOpen o => exact srcCommands_enc (.inl rfl) he
    | srcNextBit o => exact srcCommands_enc (.inr (.inl rfl)) he
    | srcNextByte o => exact srcCommands_enc (.inr (.inr (.inl rfl))) he
    | srcTakeUnconsumed o => exact srcCommands_enc (.inr (.inr (.inr rfl))) he
    | snkOpen o => exact snkCommands_enc (.inl rfl) he
    | snkWriteBit o => exact snkCommands_enc (.inr (.inl rfl)) he
    | snkWriteByte o => exact snkCommands_enc (.inr (.inr (.inl rfl))) he
    | snkFlush o => exact snkCommands_enc (.inr (.inr (.inr (.inl rfl)))) he
    | snkSetThreshold o => exact snkCommands_enc (.inr (.inr (.inr (.inr (.inl rfl))))) he
    | snkClose o => exact snkCommands_enc (.inr (.inr (.inr (.inr (.inr rfl))))) he
    | treeBuild o => exact treeCommands_enc (.inl rfl) he
    | treeSerialize o => exact treeCommands_enc (.inr (.inl rfl)) he
    | treeDeserialize o => exact treeCommands_enc (.inr (.inr (.inl rfl))) he
    | treeCodeTable o => exact treeCommands_enc (.inr (.inr (.inr rfl))) he
    | encNew o => exact (hi o rfl).elim
    | encAddChunk o => rw [commandBody, encAddChunkBody_consumed _ hc]; rfl
    | encEncode o => rw [commandBody, encEncodeBody, if_pos hc]; rfl
    | decDecode o => exact enc_of_delivers (decDecodeBody_delivers _ s)

end KeepsEncoder

/-- Settles O52: ENC_ENCODE consumes the encoder on every way out, and a command that keeps a consumed one does not make
it live again. -/
theorem encoderIsSingleUse : Obligations.EncoderIsSingleUse := by
  refine ⟨fun s => ⟨_, exec_bare rfl rfl s, encEncodeBody_enc_consumed s⟩,
    fun s c hs hc hp => ⟨?_, exec_encEncode_consumed hs⟩, fun i s t hc he hlive => ?_⟩
  · rw [exec_encAddChunk hc hp, encAddChunkBody_consumed c hs]
  · by_contra hi
    rw [exec_enc_consumed (not_exists.1 hi) hc he, hc] at hlive
    cases hlive

/-- Settles O53: a failing operand check only answers, and the bodies write the encoder and, ENC_ENCODE alone, the
draws. -/
theorem encCommandsFrame : Obligations.EncCommandsFrame := by
  intro o i s t hi he
  obtain ⟨e, -, hx⟩ | ⟨-, hx⟩ := exec_cases i s <;> cases hx.symm.trans he
  · exact ⟨s.draws, _, rfl, le_rfl, fun _ => rfl⟩
  · obtain rfl | rfl | rfl := hi
    · exact ⟨s.draws, _, rfl, le_rfl, fun _ => rfl⟩
    · obtain ⟨r, hbody⟩ | ⟨-, -, hbody⟩ := encAddChunkBody_cases o.payload s <;> rw [commandBody, hbody]
      · exact ⟨s.draws, r, rfl, le_rfl, fun _ => rfl⟩
      · exact ⟨s.draws, _, rfl, le_rfl, fun _ => rfl⟩
    · obtain ⟨r, hbody⟩ | ⟨k, r, hbody, hk⟩ := encEncodeBody_cases s <;> rw [commandBody, hbody]
      · exact ⟨s.draws, r, rfl, le_rfl, fun _ => rfl⟩
      · exact ⟨k, r, rfl, hk, fun h => (h rfl).elim⟩

/-! ### ENC_NEW (R201) -/

/-- A fresh encoder is live and holds nothing (R341). -/
theorem fresh_empty : Enc.fresh.consumed = false ∧ Enc.fresh.data = [] ∧ Enc.fresh.total = 0 ∧
    ∀ b : Byte, Enc.fresh.freq[b.toNat]'b.isLt = 0 :=
  ⟨rfl, rfl, rfl, fun b => by simp [Enc.fresh]⟩

/-- Settles O48: with no operand to fail a check, the body writes a fresh encoder. -/
theorem encNewStartsFresh : Obligations.EncNewStartsFresh :=
  ⟨fun s => ⟨Enc.fresh, exec_bare rfl rfl s, fresh_empty⟩, rfl⟩

end Sys2Proof.Machine
end

section
/-! The decoder command, and the frame of the commands that only answer (45_decoder.md R230 to R239, 46_control.md
R260). -/

namespace Sys2Proof.Machine

open Sys2Proof.Claims

/-! ### The frame (R230, R260) -/

/-- Settles O60: a failing operand check only answers, and so do the two bodies. -/
theorem csrReadAndDecodeFrame : Obligations.CsrReadAndDecodeFrame := by
  intro o i s t hi he
  obtain ⟨e, -, hx⟩ | ⟨-, hx⟩ := exec_cases i s <;> cases hx.symm.trans he
  · exact ⟨_, rfl⟩
  · obtain rfl | rfl := hi
    · exact csrReadBody_delivers o.imm s
    · exact decDecodeBody_delivers o.payload s

/-! ### The steps of a decode (R231 to R237) -/

/-- How the decode of `b` goes on from the parse of its tree slice: a failure of the parse is the decode's, and a tree is
walked over the payload (R233 to R236). -/
def decodeParsed (b : List Byte) : ParseEnd → DecodeEnd
  | .malformed => .failed .eMalformedTree
  | .treeCapacity => .failed .eTreeCapacity
  | .tree t _ _ =>
    .bytes (walk t (unpack (payloadOf b)) (originalSize b)).1 (walk t (unpack (payloadOf b)) (originalSize b)).2

section Buffer

variable {b : List Byte}

/-- A buffer without its header or its tree slice is not parsed (R232, R233). -/
theorem decodeBuffer_short (max : Nat) (h : b.length < 12 + treeSize b) : decodeBuffer max b = .failed .eFormat := by
  by_cases hheader : b.length < 12
  · exact if_pos hheader
  · have hslice : b.length - 12 < treeSize b := by omega
    rw [decodeBuffer, if_neg hheader]
    exact if_pos hslice

/-- A buffer with its header and tree slice decodes as the parse of the slice alone goes on (R233). -/
theorem decodeBuffer_sliced (max : Nat) (h : 12 + treeSize b ≤ b.length) :
    decodeBuffer max b = decodeParsed b (deserialize max (treeSlice b)) := by
  have hheader : ¬b.length < 12 := by omega
  have hslice : ¬b.length - 12 < treeSize b := by omega
  rw [decodeBuffer, if_neg hheader]
  refine (if_neg hslice).trans ?_
  rw [treeSlice, treeSize]
  cases deserialize max ((b.drop 12).take (fromLe (b.take 4))) <;> rfl

/-- A decode fails with an error code or walks a tree over the payload. -/
theorem decodeBuffer_cases (max : Nat) (b : List Byte) :
    (∃ c, decodeBuffer max b = .failed c ∧ statusCode c ≠ 0) ∨
      ∃ t, decodeBuffer max b =
        .bytes (walk t (unpack (payloadOf b)) (originalSize b)).1 (walk t (unpack (payloadOf b)) (originalSize b)).2 := by
  obtain h | h := Nat.lt_or_ge b.length (12 + treeSize b)
  · exact .inl ⟨_, decodeBuffer_short max h, by decide⟩
  · rw [decodeBuffer_sliced max h]
    cases deserialize max (treeSlice b) with
    | malformed => exact .inl ⟨_, rfl, by decide⟩
    | treeCapacity => exact .inl ⟨_, rfl, by decide⟩
    | tree t rest n => exact .inr ⟨t, rfl⟩

end Buffer

/-! ### DEC_DECODE of a buffer within the payload capacity -/

section Command

variable {s : State} {b : List Byte}

/-- The operand checks of DEC_DECODE pass (R81). -/
theorem exec_decDecode (hlt : b.length < 2 ^ 32) (hp : b.length ≤ s.cfg.cmdPayloadMax) :
    exec (.decDecode (Operands.ofPayload b)) s = .next (decDecodeBody b s) := by
  have hcheck : operandError s.cfg ⟨.unused, .len⟩ (Operands.ofPayload b) = none :=
    operandError_none_iff.2 ⟨not_failsCheck_ofPayload _ hlt, fun _ => (Nat.mod_eq_of_lt hlt).trans_le hp⟩
  rw [exec_eq_checked, checked_ok _ hcheck]
  rfl

theorem decDecodeBody_failed {c : Status} (h : decodeBuffer s.cfg.maxNodes b = .failed c) :
    decDecodeBody b s = answered s (statusWord c false) 0 [] := by
  rw [decDecodeBody, h]; rfl

theorem decDecodeBody_bytes {out : List Byte} {rem : Nat} (h : decodeBuffer s.cfg.maxNodes b = .bytes out rem) :
    decDecodeBody b s = answered s (statusWord .ok (0 < rem)) 0 out := by
  rw [decDecodeBody, h]; rfl

end Command

/-- Symbols are missing exactly when fewer bytes than asked for came out (R237). -/
theorem walk_missing (t : FreqTree) (bits : List Bool) (n : Nat) :
    0 < (walk t bits n).2 ↔ (walk t bits n).1.length < n := by
  obtain ⟨-, hcount⟩ := walk_bound t bits n
  omega

theorem statusWord_ok_decide (p : Prop) [Decidable p] : statusWord .ok p = if p then 0x100 else 0 := by
  by_cases h : p <;> simp [h, statusWord, statusCode]

/-- Settles O54: both ways of being short are being shorter than header and tree slice. -/
theorem shortBuffersAreMalformed : Obligations.ShortBuffersAreMalformed := by
  intro s b hlt hp hshort
  have hslice : b.length < 12 + treeSize b := by omega
  rw [exec_decDecode hlt hp, decDecodeBody_failed (decodeBuffer_short _ hslice)]
  rfl

/-- Settles O55: one clause per end of the parse; a lone Leaf's walk repeats its byte, and a Composite's walk follows
paths from the root. -/
theorem decodeFollowsItsSteps : Obligations.DecodeFollowsItsSteps := by
  intro s b hlt hp _ hslice
  have hdecode := decodeBuffer_sliced s.cfg.maxNodes hslice
  rw [exec_decDecode hlt hp]
  refine ⟨fun hparse => ?_, fun hparse => ?_, fun t rest n hparse => ⟨?_, ?_, ?_⟩⟩ <;> rw [hparse] at hdecode
  · rw [decDecodeBody_failed hdecode]; rfl
  · rw [decDecodeBody_failed hdecode]; rfl
  · rw [decDecodeBody_bytes hdecode, statusWord_ok_decide]
    simp only [walk_missing]
  · rintro x w rfl
    rw [walk, walkLeaf_eq]
  · rintro w l r rfl
    exact walkTree_paths rfl (unpack (payloadOf b)) [] w l r (originalSize b) rfl

/-- Settles O58: CODE OK leaves only the walk, which emits at most one byte per bit and counts each. -/
theorem decodedLengthIsBounded : Obligations.DecodedLengthIsBounded := by
  intro s t b r hlt hp he hresps hok
  cases (exec_decDecode hlt hp).symm.trans he
  obtain ⟨c, hdecode, hc⟩ | ⟨u, hdecode⟩ := decodeBuffer_cases s.cfg.maxNodes b
  · rw [decDecodeBody_failed hdecode] at hresps
    cases List.append_cancel_left hresps
    exact absurd ((statusWord_code c false).symm.trans hok) hc
  · rw [decDecodeBody_bytes hdecode] at hresps
    cases List.append_cancel_left hresps
    obtain ⟨hbits, hcount⟩ := walk_bound u (unpack (payloadOf b)) (originalSize b)
    rw [unpack_length] at hbits
    refine ⟨Nat.le.intro hcount, hbits, ?_⟩
    simp only [statusWord_trunc, decide_eq_true_iff, walk_missing]

end Sys2Proof.Machine
end

section
/-! No step stops the machine (60_exceptions.md R300, R310). -/

namespace Sys2Proof.Machine

/-! ### What a step runs goes on -/

/-- A packet is answered or runs its command, whose failing operand check is a response too (R79 to R81). -/
theorem runPacket_next (p : Packet) (s : State) : ∃ t, s.runPacket p = .next t := by
  cases hd : decode p with
  | error e => exact ⟨s.reject e, by rw [State.runPacket, hd]⟩
  | ok i =>
    rw [runPacket_ok s hd]
    obtain ⟨e, -, hx⟩ | ⟨-, hx⟩ := exec_cases i s
    · exact ⟨_, hx⟩
    · exact ⟨_, hx⟩

/-- A packet that was only accepted is run; every other job goes on with what the port answers, or waits (R65). -/
theorem resume_next (j : Job) (s : State) : ∃ t, s.resume j = .next t := by
  cases j with
  | started p => exact runPacket_next p s
  | srcNextBit | srcNextByte | snkWriteBit | snkWriteByte | snkFirstDrain | snkSecondDrain => exact ⟨_, rfl⟩

/-! ### The four things a step can be -/

theorem step_reset {s : State} (hr : s.rst = true) : step s = .next s.hardReset := by
  simp [step, hr]

theorem step_idle_empty {s : State} (hr : s.rst = false) (he : s.eng = .idle) (hc : s.cmds = []) : step s = .next s := by
  simp [step, hr, he, State.accept, hc]

/-- Settles O20: a reset and a step with nothing to run have a next state, and so has what any other step runs. -/
theorem noStepStops : Obligations.NoStepStops := by
  intro s
  cases hr : s.rst with
  | true => exact ⟨_, step_reset hr⟩
  | false =>
    cases he : s.eng with
    | busy j => rw [step_busy hr he]; exact resume_next j s
    | idle =>
      cases hc : s.cmds with
      | nil => exact ⟨s, step_idle_empty hr he hc⟩
      | cons p ps => rw [step_idle hr he hc]; exact runPacket_next p _

end Sys2Proof.Machine
end

section
/-! Reset: the values it gives, and what becomes of the request it abandons (70_reset_and_hazards.md R340 to R342). -/

namespace Sys2Proof.Machine

open Sys2Proof.Claims

/-! ### Reset values (R341) -/

/-- A fresh encoder has counted no byte value. -/
theorem encSyms_fresh : encSyms Enc.fresh = 0 := by
  rw [encSyms, Enc.fresh, Vector.toList_replicate, List.countP_replicate]; rfl

/-- Settles O15: the fields are those of the fresh units, and each CSR is read off its unit. -/
theorem resetValues : Obligations.ResetValues := by
  obtain ⟨hlive, hdata, htotal, hfreq⟩ := fresh_empty
  have hsyms : csrValue State.reset .encSyms = 0 := by
    rw [csrValue, State.reset, encSyms_fresh]; exact resultWord_of_lt (by decide)
  exact ⟨rfl, rfl, rfl, hlive, hdata, htotal, hfreq, rfl, rfl, rfl, rfl, rfl, rfl, rfl, rfl, rfl, rfl, hsyms, rfl, rfl, rfl⟩

/-! ### The request a command waits on -/

section Request

variable {s : State} {j : Job}

theorem outstanding_of_idle (he : s.eng = .idle) : s.outstanding = none := by rw [State.outstanding, he]

theorem outstanding_of_started {p : Packet} (he : s.eng = .busy (.started p)) : s.outstanding = none := by
  rw [State.outstanding, he]

theorem outstanding_of_reads (he : s.eng = .busy j) (hj : readsBits j) :
    s.outstanding = some (.read (s.bsrc.batch.toNat - s.bsrc.buf.length)) := by
  cases j with
  | srcNextBit | srcNextByte => rw [State.outstanding, he]
  | started | snkWriteBit | snkWriteByte | snkFirstDrain | snkSecondDrain => exact hj.elim

theorem outstanding_of_writes (he : s.eng = .busy j) (hj : writesBits j) :
    s.outstanding = some (.write s.bsnk.buf) := by
  cases j with
  | snkWriteBit | snkWriteByte | snkFirstDrain | snkSecondDrain => rw [State.outstanding, he]
  | started | srcNextBit | srcNextByte => exact hj.elim

/-! ### What a reset does to the ports (R340) -/

/-- An abandoned request carries no byte over a port (R342). -/
theorem abandoned_carries_nothing (s : State) :
    s.abandoned.flatMap bytesTaken = [] ∧ s.abandoned.flatMap bytesGiven = [] := by
  unfold State.abandoned
  split <;> exact ⟨rfl, rfl⟩

theorem hardReset_transfers_nothing (s : State) :
    portOTaken s.hardReset.trace = portOTaken s.trace ∧ portIGiven s.hardReset.trace = portIGiven s.trace := by
  obtain ⟨hO, hI⟩ := abandoned_carries_nothing s
  simp [portOTaken, portIGiven, State.hardReset, hO, hI]

/-- With no request outstanding, a reset leaves the record, the answers and the counts of late answers. -/
theorem hardReset_noRequest (h : s.outstanding = none) :
    s.hardReset.trace = s.trace ∧ s.hardReset.portI = s.portI ∧ s.hardReset.portO = s.portO ∧
      s.hardReset.lateI = s.lateI ∧ s.hardReset.lateO = s.lateO := by
  simp [State.hardReset, State.answersIAfterReset, State.answersOAfterReset, State.lateIAfterReset,
    State.lateOAfterReset, State.abandoned, h]

section Read

variable {n : Nat}

theorem hardReset_read_unanswered (h : s.outstanding = some (.read n)) (hp : s.portI = []) :
    s.hardReset.portI = [] ∧ s.hardReset.lateI = s.lateI + 1 := by
  simp [State.hardReset, State.answersIAfterReset, State.lateIAfterReset, h, hp]

/-- An answer already given to the abandoned read goes, and it alone, when it holds no more than was asked for. -/
theorem hardReset_read_answered {a : PortIAnswer} {as : List PortIAnswer} (h : s.outstanding = some (.read n))
    (hp : s.portI = a :: as) (ha : ∀ c, a = .bytes c → c.length ≤ n) :
    s.hardReset.portI = as ∧ s.hardReset.lateI = s.lateI := by
  cases a with
  | bytes c =>
    simp [State.hardReset, State.answersIAfterReset, State.lateIAfterReset, h, hp, answersAfterRead, ha c rfl]
  | ioErr => simp [State.hardReset, State.answersIAfterReset, State.lateIAfterReset, h, hp]

/-- Abandoning a read leaves port O alone. -/
theorem hardReset_read_portO (h : s.outstanding = some (.read n)) :
    s.hardReset.portO = s.portO ∧ s.hardReset.lateO = s.lateO := by
  simp [State.hardReset, State.answersOAfterReset, State.lateOAfterReset, h]

end Read

section Write

variable {l : List Byte}

theorem hardReset_write_unanswered (h : s.outstanding = some (.write l)) (hp : s.portO = []) :
    s.hardReset.portO = [] ∧ s.hardReset.lateO = s.lateO + 1 := by
  simp [State.hardReset, State.answersOAfterReset, State.lateOAfterReset, h, hp]

theorem hardReset_write_answered {a : PortOAnswer} {as : List PortOAnswer} (h : s.outstanding = some (.write l))
    (hp : s.portO = a :: as) : s.hardReset.portO = as ∧ s.hardReset.lateO = s.lateO := by
  simp [State.hardReset, State.answersOAfterReset, State.lateOAfterReset, h, hp]

/-- Abandoning a write leaves port I alone. -/
theorem hardReset_write_portI (h : s.outstanding = some (.write l)) :
    s.hardReset.portI = s.portI ∧ s.hardReset.lateI = s.lateI := by
  simp [State.hardReset, State.answersIAfterReset, State.lateIAfterReset, h]

end Write

end Request

/-- Settles O16: the step is the reset, whose units are fresh, and an abandoned request carries nothing. -/
theorem resetAbandonsEverything : Obligations.ResetAbandonsEverything := by
  intro s hr
  obtain ⟨hlive, hdata, htotal, hfreq⟩ := fresh_empty
  obtain ⟨htaken, hgiven⟩ := hardReset_transfers_nothing s
  refine ⟨s.hardReset, step_reset hr, rfl, rfl, rfl, hlive, hdata, htotal, hfreq, rfl, rfl, rfl, rfl, rfl, rfl,
    htaken, hgiven, fun he => ?_⟩
  obtain ⟨htrace, hI, hO, -⟩ := hardReset_noRequest (outstanding_of_idle he)
  exact ⟨htrace, hI, hO⟩

/-! ### A late answer (log entry 7) -/

/-- With one answer of port I owed to an abandoned read, the next answer is discarded and the one after it is kept. -/
theorem answerI_discards_late {t : State} (hp : t.portI = []) (hl : t.lateI = 1) (a b : PortIAnswer) :
    (t.answerI a).portI = [] ∧ ((t.answerI a).answerI b).portI = [b] := by
  simp [State.answerI, hp, hl]

/-- With one answer of port O owed to an abandoned write, the next answer is discarded and the one after it is kept. -/
theorem answerO_discards_late {t : State} (hp : t.portO = []) (hl : t.lateO = 1) (a b : PortOAnswer) :
    (t.answerO a).portO = [] ∧ ((t.answerO a).answerO b).portO = [b] := by
  simp [State.answerO, hp, hl]

/-! ### Only a reset abandons a request -/

/-- From `s` to `t` no request was abandoned, and no late answer came. -/
def KeepsLate (s t : State) : Prop := t.lateI = s.lateI ∧ t.lateO = s.lateO

section KeepsLate

variable {s t : State} {o : Operands} {i : Instr}

theorem srcCommands_keepLate
    (hi : i = .srcOpen o ∨ i = .srcNextBit o ∨ i = .srcNextByte o ∨ i = .srcTakeUnconsumed o)
    (he : exec i s = .next t) : KeepsLate s t := by
  obtain ⟨-, -, -, -, -, -, -, hI, hO, -⟩ := srcCommandsFrame o i s t hi he
  exact ⟨hI, hO⟩

theorem snkCommands_keepLate
    (hi : i = .snkOpen o ∨ i = .snkWriteBit o ∨ i = .snkWriteByte o ∨ i = .snkFlush o ∨ i = .snkSetThreshold o ∨
      i = .snkClose o)
    (he : exec i s = .next t) : KeepsLate s t := by
  obtain ⟨-, -, -, -, -, -, -, hI, hO, -⟩ := snkCommandsFrame o i s t hi he
  exact ⟨hI, hO⟩

theorem treeCommands_keepLate
    (hi : i = .treeBuild o ∨ i = .treeSerialize o ∨ i = .treeDeserialize o ∨ i = .treeCodeTable o)
    (he : exec i s = .next t) : KeepsLate s t := by
  obtain ⟨⟨k, r, ht, -⟩, -⟩ := treeCommandsFrame o i s t hi he
  rw [ht]; exact ⟨rfl, rfl⟩

theorem encCommands_keepLate (hi : i = .encNew o ∨ i = .encAddChunk o ∨ i = .encEncode o)
    (he : exec i s = .next t) : KeepsLate s t := by
  obtain ⟨k, r, ht, -⟩ := encCommandsFrame o i s t hi he
  rw [ht]; exact ⟨rfl, rfl⟩

theorem csrReadAndDecode_keepLate (hi : i = .csrRead o ∨ i = .decDecode o) (he : exec i s = .next t) :
    KeepsLate s t := by
  obtain ⟨r, rfl⟩ := csrReadAndDecodeFrame o i s t hi he
  exact ⟨rfl, rfl⟩

/-- Every command is in one of the five families, whose frames hold the two counts. -/
theorem exec_keepsLate (he : exec i s = .next t) : KeepsLate s t := by
  cases i with
  | csrRead o | decDecode o => exact csrReadAndDecode_keepLate (o := o) (by simp) he
  | srcOpen o | srcNextBit o | srcNextByte o | srcTakeUnconsumed o => exact srcCommands_keepLate (o := o) (by simp) he
  | snkOpen o | snkWriteBit o | snkWriteByte o | snkFlush o | snkSetThreshold o | snkClose o =>
    exact snkCommands_keepLate (o := o) (by simp) he
  | treeBuild o | treeSerialize o | treeDeserialize o | treeCodeTable o =>
    exact treeCommands_keepLate (o := o) (by simp) he
  | encNew o | encAddChunk o | encEncode o => exact encCommands_keepLate (o := o) (by simp) he

theorem runPacket_keepsLate {p : Packet} (he : s.runPacket p = .next t) : KeepsLate s t := by
  cases hd : decode p with
  | ok i => exact exec_keepsLate ((runPacket_ok s hd).symm.trans he)
  | error e =>
    rw [State.runPacket, hd] at he
    cases he
    exact ⟨rfl, rfl⟩

theorem resume_reads_keepsLate {j : Job} (hj : readsBits j) (he : s.resume j = .next t) : KeepsLate s t := by
  obtain ⟨u, e, rs, ⟨buf, rpos, bpos, as, es, rfl, -⟩, rfl⟩ := resume_reads_frame hj he
  exact ⟨rfl, rfl⟩

theorem resume_writes_keepsLate {j : Job} (hj : writesBits j) (he : s.resume j = .next t) : KeepsLate s t := by
  obtain ⟨u, e, rs, k, ⟨acc, nbits, buf, as, es, rfl, -⟩, rfl, -⟩ := resume_writes_frame hj he
  exact ⟨rfl, rfl⟩

theorem resume_keepsLate {j : Job} (he : s.resume j = .next t) : KeepsLate s t := by
  cases j with
  | started p => exact runPacket_keepsLate he
  | srcNextBit | srcNextByte => exact resume_reads_keepsLate (by trivial) he
  | snkWriteBit | snkWriteByte | snkFirstDrain | snkSecondDrain => exact resume_writes_keepsLate (by trivial) he

theorem step_keepsLate (hr : s.rst = false) (he : step s = .next t) : KeepsLate s t := by
  obtain ⟨hr', -⟩ | ⟨-, j, -, hres⟩ | ⟨-, -, -, rfl⟩ | ⟨-, -, p, ps, -, hrun⟩ := step_cases he
  · rw [hr] at hr'; cases hr'
  · exact resume_keepsLate hres
  · exact ⟨rfl, rfl⟩
  · exact runPacket_keepsLate (s := { s with cmds := ps }) hrun

/-! ### Reset of a command at each place it can be (R340) -/

/-- A packet accepted and not answered has no request outstanding, so its reset leaves both ports alone. -/
theorem reset_of_started {p : Packet} {ps : List Packet} (hr : s.rst = false) (he : s.eng = .idle)
    (hc : s.cmds = p :: ps) :
    ∃ t, step s.start.assertReset = .next t ∧ t.eng = .idle ∧ t.resps = s.resps ∧ t.cmds = ps ∧ t.trace = s.trace ∧
      t.portI = s.portI ∧ t.portO = s.portO ∧ t.lateI = s.lateI ∧ t.lateO = s.lateO := by
  rw [start_idle hr he hc]
  exact ⟨_, step_reset rfl, rfl, rfl, rfl, hardReset_noRequest (outstanding_of_started (p := p) rfl)⟩

theorem step_eq_hardReset (hr : s.rst = true) (he : step s = .next t) : t = s.hardReset := by
  cases (step_reset hr).symm.trans he; rfl

end KeepsLate

/-- Settles O17: at each place a command can be, its outstanding request says which answer the reset discards; every
other step keeps the counts of late answers. -/
theorem resetAbandonsTheRequest : Obligations.ResetAbandonsTheRequest := by
  refine ⟨fun s p ps => reset_of_started, fun s t j a b as hr he hj hs => ?_, fun s t j a b as hr he hj hs => ?_,
    fun s t => step_keepsLate⟩
  · obtain rfl := step_eq_hardReset hr hs
    have hreq := outstanding_of_reads he hj
    refine ⟨fun hp => ?_, fun hp ha => hardReset_read_answered hreq hp ha, hardReset_read_portO hreq⟩
    obtain ⟨hI, hlate⟩ := hardReset_read_unanswered hreq hp
    exact ⟨hI, hlate, fun h0 => answerI_discards_late hI (by rw [hlate, h0]) a b⟩
  · obtain rfl := step_eq_hardReset hr hs
    have hreq := outstanding_of_writes he hj
    refine ⟨fun hp => ?_, fun hp => hardReset_write_answered hreq hp, hardReset_write_portI hreq⟩
    obtain ⟨hO, hlate⟩ := hardReset_write_unanswered hreq hp
    exact ⟨hO, hlate, fun h0 => answerO_discards_late hO (by rw [hlate, h0]) a b⟩

end Sys2Proof.Machine
end
